-- ==== Sys2Proof/Word.lean ====
section
/-! DEFINITION. The word types of the engine: everything the spec numbers bit by bit is a bit vector of that width. -/

namespace Sys2Proof

/-- One 32-bit word of the host interface: a register, a command word, a word of a buffer window (R17, R34, R45). -/
abbrev Word := BitVec 32

/-- One byte of the aperture, as a byte-addressed host names it (R35). -/
abbrev Byte := BitVec 8

/-- A byte offset of the 64 KiB aperture (R29). -/
abbrev Offset := BitVec 16

/-- A buffer index: m0, m1, m2 or m3, the values of a 2-bit operand field (R11, R46). -/
abbrev Buf := Fin 4

end Sys2Proof
end

