-- ==== Sys2Proof/Syntax.lean ====
section
/-! DEFINITION. The commands (one constructor per row of spec/opcode_table.json), the one command format, and the host's
accesses to the aperture, which are what a program of this hardware is made of (R2, R27, R55). -/

namespace Sys2Proof

/-- A legal command (R49, R53): its opcode and its used operands, in the order RD, RS1, RS2. -/
inductive Instr where
  /-- No operation (R65). -/
  | nop
  /-- Rank of `rs1` (R68). -/
  | rank (rs1 : Buf)
  /-- Invertibility test of `rs1` (R69). -/
  | isinv (rs1 : Buf)
  /-- `rd` becomes the inverse of `rs1` (R70). -/
  | inv (rd rs1 : Buf)
  /-- `rd` becomes the transpose of `rs1`, a permutation matrix's inverse (R71). -/
  | pinv (rd rs1 : Buf)
  /-- `rd` becomes the product `rs1 · rs2` (R75). -/
  | mmul (rd rs1 rs2 : Buf)
  /-- `rd` becomes the message whose codeword under generator `rs1` is nearest to vector `rs2` (R79). -/
  | decode (rd rs1 rs2 : Buf)
  /-- `rd` becomes `rs1` modulo 2, a copy (R67). -/
  | reduce (rd rs1 : Buf)
  /-- `rd` becomes the sum of `rs1` and `rs2` (R76). -/
  | madd (rd rs1 rs2 : Buf)
  /-- Hamming weight of `rs1` (R77). -/
  | weight (rs1 : Buf)
deriving DecidableEq, Repr

/-- The destination buffer of a command, if it has one: RD where R49 says the opcode uses it. -/
def Instr.destination : Instr → Option Buf
  | .nop => none
  | .rank _ => none
  | .isinv _ => none
  | .inv rd _ => some rd
  | .pinv rd _ => some rd
  | .mmul rd _ _ => some rd
  | .decode rd _ _ => some rd
  | .reduce rd _ => some rd
  | .madd rd _ _ => some rd
  | .weight _ => none

/-- The source buffers of a command in the order they are checked, RS1 then RS2 (R49, R84). -/
def Instr.sources : Instr → List Buf
  | .nop => []
  | .rank rs1 => [rs1]
  | .isinv rs1 => [rs1]
  | .inv _ rs1 => [rs1]
  | .pinv _ rs1 => [rs1]
  | .mmul _ rs1 rs2 => [rs1, rs2]
  | .decode _ rs1 rs2 => [rs1, rs2]
  | .reduce _ rs1 => [rs1]
  | .madd _ rs1 rs2 => [rs1, rs2]
  | .weight rs1 => [rs1]

/-- The fields of format C (R45), the one command format, of any 32-bit word whether legal or not. -/
structure FormatC where
  /-- Bits [4:0]. -/
  op : BitVec 5
  /-- Bits [7:5], reserved. -/
  rsv : BitVec 3
  /-- Bits [9:8]. -/
  rd : BitVec 2
  /-- Bits [11:10]. -/
  rs1 : BitVec 2
  /-- Bits [13:12]. -/
  rs2 : BitVec 2
  /-- Bits [31:14], reserved. -/
  hi : BitVec 18
deriving DecidableEq, Repr

/-- What the outside world does to the engine next: one host access of R34 and R55, the host macro WAIT of R55, or the hard
reset input of R94. -/
inductive HostEvent where
  /-- `R off`: a read of `size` bytes at an offset. The interface defines `size = 4` at multiples of 4 only (R34). -/
  | read (off : Offset) (size : Nat)
  /-- `W off, v`: a write of `size` bytes at an offset. -/
  | write (off : Offset) (size : Nat) (v : Word)
  /-- `WAIT`: read STATUS until DONE is 1 (R55). -/
  | wait
  /-- The hard (power-on) reset input (R94). -/
  | hardReset
deriving DecidableEq, Repr

end Sys2Proof
end

