-- ==== Sys2Proof/WellFormed.lean ====
section
/-! DEFINITION. When the fields of a command word are well formed: the clauses of R50, each a check of its own. -/

namespace Sys2Proof

/-- An opcode of R49, not one of the reserved 0x0A to 0x1F (R50, R51). -/
def FormatC.opAssigned (f : FormatC) : Bool := f.op.toNat ≤ 0x09

/-- Bits [7:5] and [31:14] are 0 (R45, R50). -/
def FormatC.reservedZero (f : FormatC) : Bool := f.rsv = 0 && f.hi = 0

/-- The opcodes whose row of R49 uses RD. -/
def FormatC.usesRd (f : FormatC) : Bool := f.op.toNat ∈ [0x03, 0x04, 0x05, 0x06, 0x07, 0x08]

/-- The opcodes whose row of R49 uses RS1. -/
def FormatC.usesRs1 (f : FormatC) : Bool :=
  f.op.toNat ∈ [0x01, 0x02, 0x03, 0x04, 0x05, 0x06, 0x07, 0x08, 0x09]

/-- The opcodes whose row of R49 uses RS2. -/
def FormatC.usesRs2 (f : FormatC) : Bool := f.op.toNat ∈ [0x05, 0x06, 0x08]

/-- An operand field the opcode does not use is 0 (R46, R50). -/
def FormatC.unusedZero (f : FormatC) : Bool :=
  (f.usesRd || f.rd = 0) && (f.usesRs1 || f.rs1 = 0) && (f.usesRs2 || f.rs2 = 0)

/-- A word with these fields is legal: none of R50's clauses makes it illegal. -/
def FormatC.wellFormed (f : FormatC) : Bool := f.opAssigned && f.reservedZero && f.unusedZero

/-- A 2-bit operand field naming a buffer (R46). -/
def bufField (i : Buf) : BitVec 2 := BitVec.ofNat 2 i.val

/-- The fields of an instruction's word (R49, R53): its opcode, its operands, and 0 elsewhere. -/
def Instr.format : Instr → FormatC
  | .nop => ⟨0x00, 0, 0, 0, 0, 0⟩
  | .rank rs1 => ⟨0x01, 0, 0, bufField rs1, 0, 0⟩
  | .isinv rs1 => ⟨0x02, 0, 0, bufField rs1, 0, 0⟩
  | .inv rd rs1 => ⟨0x03, 0, bufField rd, bufField rs1, 0, 0⟩
  | .pinv rd rs1 => ⟨0x04, 0, bufField rd, bufField rs1, 0, 0⟩
  | .mmul rd rs1 rs2 => ⟨0x05, 0, bufField rd, bufField rs1, bufField rs2, 0⟩
  | .decode rd rs1 rs2 => ⟨0x06, 0, bufField rd, bufField rs1, bufField rs2, 0⟩
  | .reduce rd rs1 => ⟨0x07, 0, bufField rd, bufField rs1, 0, 0⟩
  | .madd rd rs1 rs2 => ⟨0x08, 0, bufField rd, bufField rs1, bufField rs2, 0⟩
  | .weight rs1 => ⟨0x09, 0, 0, bufField rs1, 0, 0⟩

/-- An instruction is well formed when its fields are. The type of a buffer index already bounds every operand, so every
instruction is (`Sys2Proof.Laws.instr_wellFormed`). -/
def Instr.wellFormed (i : Instr) : Bool := i.format.wellFormed

end Sys2Proof
end

