-- ==== Sys2Proof/Decode.lean ====
section
/-! DEFINITION. The command decoder, total on every 32-bit word (R52), and after it the encoder (R53), the pseudo-instructions
(R54) and the reading of a table word. -/

namespace Sys2Proof

/-- One row of the opcode map R49. -/
structure OpRow where
  /-- The opcode number, bits [4:0]. -/
  op : Nat
  /-- The mnemonic. -/
  mnemonic : String
  /-- `match`: the value of the fixed bits. -/
  pattern : Word
  /-- The fixed bits: OP, both reserved fields and every unused operand field. -/
  mask : Word
  /-- The command, from the fields RD, RS1 and RS2. -/
  build : Buf → Buf → Buf → Instr

/-- The ten assigned opcodes (R49). -/
def opTable : List OpRow :=
  [⟨0x00, "NOP",    0x00000000, 0xFFFFFFFF, fun _ _ _ => .nop⟩,
   ⟨0x01, "RANK",   0x00000001, 0xFFFFF3FF, fun _ rs1 _ => .rank rs1⟩,
   ⟨0x02, "ISINV",  0x00000002, 0xFFFFF3FF, fun _ rs1 _ => .isinv rs1⟩,
   ⟨0x03, "INV",    0x00000003, 0xFFFFF0FF, fun rd rs1 _ => .inv rd rs1⟩,
   ⟨0x04, "PINV",   0x00000004, 0xFFFFF0FF, fun rd rs1 _ => .pinv rd rs1⟩,
   ⟨0x05, "MMUL",   0x00000005, 0xFFFFC0FF, fun rd rs1 rs2 => .mmul rd rs1 rs2⟩,
   ⟨0x06, "DECODE", 0x00000006, 0xFFFFC0FF, fun rd rs1 rs2 => .decode rd rs1 rs2⟩,
   ⟨0x07, "REDUCE", 0x00000007, 0xFFFFF0FF, fun rd rs1 _ => .reduce rd rs1⟩,
   ⟨0x08, "MADD",   0x00000008, 0xFFFFC0FF, fun rd rs1 rs2 => .madd rd rs1 rs2⟩,
   ⟨0x09, "WEIGHT", 0x00000009, 0xFFFFF3FF, fun _ rs1 _ => .weight rs1⟩]

/-- The fields of a word (R45). -/
def formatOf (w : Word) : FormatC where
  op := w.extractLsb' 0 5
  rsv := w.extractLsb' 5 3
  rd := w.extractLsb' 8 2
  rs1 := w.extractLsb' 10 2
  rs2 := w.extractLsb' 12 2
  hi := w.extractLsb' 14 18

/-- The word with given fields (R45). -/
def FormatC.toWord (f : FormatC) : Word := f.hi ++ f.rs2 ++ f.rs1 ++ f.rd ++ f.rsv ++ f.op

/-- Why a command word is illegal, by the clauses of R50; the engine reports all three as ILLEGAL (R82). -/
inductive IllegalWord where
  /-- OP is one of the reserved 0x0A to 0x1F. -/
  | unassignedOpcode
  /-- Bits [7:5] or [31:14] are not 0. -/
  | reservedBits
  /-- An operand field the opcode does not use is not 0. -/
  | unusedOperand
deriving DecidableEq, Repr

/-- `rd`, `rs1` or `rs2` as a buffer index (R46). -/
def bufOf (f : BitVec 2) : Buf := f.toFin

/-- The decoding function of R52, total on every word; an illegal word is rejected by the name of what is wrong with it. -/
def decode (w : Word) : Except IllegalWord Instr :=
  match opTable.find? (fun row => row.op == (formatOf w).op.toNat) with
  | none => .error .unassignedOpcode
  | some row =>
    if w &&& row.mask = row.pattern then
      .ok (row.build (bufOf (formatOf w).rd) (bufOf (formatOf w).rs1) (bufOf (formatOf w).rs2))
    else if (formatOf w).reservedZero then .error .unusedOperand
    else .error .reservedBits

/-- `OP | (rd << 8) | (rs1 << 10) | (rs2 << 12)`, the encoding of R53. -/
def encodeFields (op : Nat) (rd rs1 rs2 : Buf) : Word :=
  BitVec.ofNat 32 op ||| (BitVec.ofNat 32 rd.val <<< 8) ||| (BitVec.ofNat 32 rs1.val <<< 10)
    ||| (BitVec.ofNat 32 rs2.val <<< 12)

/-- The word of an instruction (R53), unused operands 0. -/
def encode : Instr → Word
  | .nop => encodeFields 0x00 0 0 0
  | .rank rs1 => encodeFields 0x01 0 rs1 0
  | .isinv rs1 => encodeFields 0x02 0 rs1 0
  | .inv rd rs1 => encodeFields 0x03 rd rs1 0
  | .pinv rd rs1 => encodeFields 0x04 rd rs1 0
  | .mmul rd rs1 rs2 => encodeFields 0x05 rd rs1 rs2
  | .decode rd rs1 rs2 => encodeFields 0x06 rd rs1 rs2
  | .reduce rd rs1 => encodeFields 0x07 rd rs1 0
  | .madd rd rs1 rs2 => encodeFields 0x08 rd rs1 rs2
  | .weight rs1 => encodeFields 0x09 0 rs1 0

/-- `MOV rd, rs1` (R54): REDUCE is a copy. -/
def Instr.mov (rd rs1 : Buf) : Instr := .reduce rd rs1

/-- `TRANSPOSE rd, rs1` (R54): PINV is a transpose. -/
def Instr.transpose (rd rs1 : Buf) : Instr := .pinv rd rs1

/-- A command word as a number of `nbits` bits, bit 0 the least significant. A command is one word written whole to CMD, so
nothing of it lies in another word (R48). -/
def wordOfTable (nbits w : Nat) : Word := BitVec.ofNat 32 (w % 2 ^ nbits)

/-- The instruction the decoder reads from a table word; none where it refuses. -/
def decodeTableWord (nbits w : Nat) : Option Instr :=
  match decode (wordOfTable nbits w) with
  | .ok i => some i
  | .error _ => none

end Sys2Proof
end

