-- ==== Sys2Proof/Config.lean ====
section
/-! DEFINITION. What an implementation fixes (R5) and the values the spec leaves open (93_implementation_defined.md). -/

namespace Sys2Proof

/-- `ENUM_ORDER` of R5 and R78: which end of the message vector varies slowest in DECODE's enumeration. -/
inductive EnumOrder where
  /-- `LEX_MSB_FIRST`, the default. -/
  | lexMsbFirst
  /-- `LEX_LSB_FIRST`. -/
  | lexLsbFirst
deriving DecidableEq, Repr

/-- The parameters of R5 that a model takes as arguments (`NBUF` is fixed at 4 and `WPR` is derived).
They are chosen when the machine is built: `State.params` holds them and no step changes them (R19). -/
structure Params where
  /-- `RMAX`: the most rows of a matrix in any buffer. -/
  rmax : Nat
  /-- `CMAX`: the most columns of a matrix in any buffer. -/
  cmax : Nat
  /-- `KMAX`: the largest message length DECODE accepts. -/
  kmax : Nat
  /-- `ENUM_ORDER`. -/
  order : EnumOrder
deriving DecidableEq, Repr

/-- The default column of R5: the values this spec's hardware takes. -/
def Params.default : Params where
  rmax := 64
  cmax := 64
  kmax := 20
  order := .lexMsbFirst

/-- `WPR`, the 32-bit words of a buffer row (R5). -/
def Params.wpr (p : Params) : Nat := p.cmax / 32

/-- The legal ranges of R5. -/
abbrev Params.legal (p : Params) : Prop :=
  1 ≤ p.rmax ∧ p.rmax ≤ 255 ∧ p.cmax % 32 = 0 ∧ 32 ≤ p.cmax ∧ p.cmax ≤ 224 ∧ p.kmax ≤ 31

/-! Free values. None has a body, so no proof can see one, and a claim holds whatever they are. -/

/-- `ENGINE_BASE` (R29, X7): where the platform puts the aperture; no rule of the engine reads it. -/
opaque Config.engineBase : Nat

/-- `IRQ_LINE` (R86, X8): the host interrupt line the platform connects IRQ to; no rule of the engine reads it. -/
opaque Config.irqLine : Nat

/-- `LATENCY` (R5, R62, X5) of one command instance, told apart by its command word and the value of `State.fresh`
at its acceptance: how many turns the host gets before the command completes. A natural number, so finite (R64). -/
opaque Config.latency : Word → Nat → Nat

/-- The storage byte at an aperture offset that nothing has written since the hard reset of that number (R94, X1):
chosen once at the reset, kept until written. -/
opaque Config.powerOnByte : Nat → Nat → Byte

/-- What one host read of a window, RESULT or DCOUNT returns while the engine is busy (R99, X2). -/
opaque Config.freeRead : Nat → Word

/-- RESULT of one command that read storage unspecified since hard reset (R101, X3). -/
opaque Config.freeResult : Nat → Word

/-- DCOUNT of one command that read storage unspecified since hard reset (R101, X3). -/
opaque Config.freeDcount : Nat → Word

/-- The entry in a row and column of the destination of one command that read storage unspecified since hard reset
(R101, X3). -/
opaque Config.freeEntry : Nat → Nat → Nat → Bool

/-- Whether one INV that read storage unspecified since hard reset reports SINGULAR (R101, X3). -/
opaque Config.freeSingular : Nat → Bool

end Sys2Proof
end

