-- ==== Sys2Proof/Machine/State.lean ====
section
/-! DEFINITION. The state of the engine (10_state.md, section 5) as plain data, the two ways a step can stop, and the state
after reset (R94). -/

namespace Sys2Proof.Machine

/-- The contents of the buffer storage: (aperture offset, byte) pairs at strictly rising offsets. An offset that is not listed
is a storage byte UNSPECIFIED since the hard reset (R94): it has no value in the list, and reads as the free value
`Config.powerOnByte`. Storage is written only in whole words (R33, R63), so a byte is never specified in part. -/
abbrev Memory := List Host.Cell

/-- The one canonical form of a memory: offsets strictly rising. An unlisted offset has no value, so no entry equals it. -/
abbrev Memory.wf (m : Memory) : Prop := m.Pairwise (fun x y => x.1 < y.1)

/-- A SHAPE register (R12): its two 8-bit fields; the other bits read as zero and ignore writes. -/
structure Shape where
  /-- `ROWS`, bits [7:0]. -/
  rows : BitVec 8
  /-- `COLS`, bits [23:16]. -/
  cols : BitVec 8
deriving DecidableEq, Repr

/-- The values STATUS.ERRCODE takes (R82); 7 to 15 are never written, so no constructor stands for them. -/
inductive ErrCode where
  /-- 0: the command succeeded. -/
  | none
  /-- 1: the command word is illegal (R50). -/
  | illegal
  /-- 2: a source's shape, or PINV's result shape, is out of range. -/
  | shapeRange
  /-- 3: the source of ISINV or INV is not square. -/
  | notSquare
  /-- 4: the shapes of the sources of MMUL, MADD or DECODE do not fit together. -/
  | shapeMismatch
  /-- 5: DECODE with k > KMAX. -/
  | kRange
  /-- 6: INV's operand is singular. -/
  | singular
deriving DecidableEq, Repr

/-- The phase of R28. `busy w left`: command word `w` was accepted and completes after the host has had `left` more turns
(the rest of its LATENCY, R62). -/
inductive Phase where
  | idle
  | busy (w : Word) (left : Nat)
deriving DecidableEq, Repr

/-- The engine (10_state.md section 5), its parameters, and, marked MODEL, what the model adds to run it. STATUS.BUSY is the
phase (R28), ID and PARAM are constants of the parameters (R18, R19), and IRQ is a function of the state (R86). -/
structure State where
  /-- The parameters this engine is built with (R5, R6); no step changes them (R19). -/
  params : Params
  /-- The storage bits of buffers m0 to m3 (R11, R31). -/
  mem : Memory
  /-- SHAPE_0 to SHAPE_3 (R12). -/
  shape : Vector Shape 4
  /-- CTRL.IRQ_EN (R20). -/
  irqEn : Bool
  /-- STATUS.DONE (R21). -/
  done : Bool
  /-- STATUS.ERR (R21). -/
  err : Bool
  /-- STATUS.WOB (R21, R98). -/
  wob : Bool
  /-- STATUS.ERRCODE (R21, R82). -/
  errcode : ErrCode
  /-- What CMD reads: the last accepted command word (R23). -/
  cmdLast : Word
  /-- RESULT (R24). -/
  result : Word
  /-- DCOUNT (R25). -/
  dcount : Word
  /-- The phase (R28). -/
  phase : Phase
  /-- MODEL: what the outside world does next, first to happen first (R40); a host program is placed here from outside. -/
  host : List HostEvent
  /-- MODEL: the words the host's reads have returned, newest first (the names a host program reads into, R55). -/
  replies : List Word
  /-- MODEL: how many hard resets there have been; it tells the power-on contents after one from those after another (X1). -/
  epoch : Nat
  /-- MODEL: the counter of free values: each use of one advances it, so that no two uses are tied together. -/
  fresh : Nat
deriving DecidableEq, Repr

/-- Why the machine would stop with a fault: for no reason. The engine takes no trap and never hangs (R64, R87); a command that
fails completes and reports its error in STATUS (R83). -/
inductive Fault where
deriving DecidableEq, Repr

/-- Why a step has no next state. -/
inductive Refusal where
  /-- Raised by `exec` for an instruction that has no meaning yet; safe: the machine stops. -/
  | notModelled (mnemonic : String)
  /-- Raised by a host access that is not a 32-bit access at a multiple of 4 (R34): "its effect is UNSPECIFIED and a model
  refuses it (has no step for it)"; safe: the machine stops. -/
  | accessOutsideInterface
deriving DecidableEq, Repr

/-- An engine with parameters `p` after power-on: R94's table. The MODEL fields start with no host event pending, nothing
read, and both counters 0 (DESIGN CHOICE, unsafe only for a claim about the counters: assumption 3). -/
def State.powerOn (p : Params) : State where
  params := p
  mem := []
  shape := Vector.replicate 4 ⟨0, 0⟩
  irqEn := false
  done := false
  err := false
  wob := false
  errcode := .none
  cmdLast := 0
  result := 0
  dcount := 0
  phase := .idle
  host := []
  replies := []
  epoch := 0
  fresh := 0

/-- The machine right after reset: R94's table at the default parameters of R5. -/
def State.reset : State := State.powerOn Params.default

end Sys2Proof.Machine
end

