-- ==== Sys2Proof/Machine/Flags.lean ====
section
/-! DEFINITION. The engine's flags, the STATUS bits and the IRQ output (R22), and the register words the state is read and
written as: CTRL, STATUS, SHAPE, PARAM, ID. -/

namespace Sys2Proof.Machine

/-- The number of an error code (R82). -/
def ErrCode.toBits : ErrCode → BitVec 4
  | .none => 0
  | .illegal => 1
  | .shapeRange => 2
  | .notSquare => 3
  | .shapeMismatch => 4
  | .kRange => 5
  | .singular => 6

/-- STATUS.BUSY: a command was accepted and has not completed (R21, R28). -/
def State.busy (s : State) : Bool :=
  match s.phase with
  | .idle => false
  | .busy _ _ => true

/-- What STATUS reads (R21): BUSY, DONE, ERR, WOB in bits 0 to 3, ERRCODE in [11:8], 0 elsewhere. -/
def State.statusWord (s : State) : Word :=
  0#20 ++ s.errcode.toBits ++ 0#4 ++ BitVec.ofBool s.wob ++ BitVec.ofBool s.err ++ BitVec.ofBool s.done
    ++ BitVec.ofBool s.busy

/-- A write of v to STATUS (R21): it clears the W1C bits DONE, ERR and WOB written as 1 and changes nothing else. This is also
the host's acknowledgement of a completion (R88), all there is of a return from an error. -/
def State.writeStatus (v : Word) (s : State) : State :=
  { s with
    done := s.done && !v.getLsbD 1
    err := s.err && !v.getLsbD 2
    wob := s.wob && !v.getLsbD 3 }

/-- The IRQ output (R86): `CTRL.IRQ_EN & STATUS.DONE`. -/
def State.irq (s : State) : Bool := s.irqEn && s.done

/-- What CTRL reads (R20): IRQ_EN in bit 0, 0 elsewhere. -/
def State.ctrlWord (s : State) : Word := 0#31 ++ BitVec.ofBool s.irqEn

/-- What SHAPE_i reads (R12): ROWS in [7:0], COLS in [23:16], 0 elsewhere. -/
def Shape.toWord (sh : Shape) : Word := 0#8 ++ sh.cols ++ 0#8 ++ sh.rows

/-- The shape a written word stores (R13): bits [7:0] and [23:16]; the others are ignored. -/
def Shape.ofWord (v : Word) : Shape where
  rows := v.extractLsb' 0 8
  cols := v.extractLsb' 16 8

/-- The constant ID reads (R18). -/
def idWord : Word := 0x47463244

/-- What PARAM reads (R19): RMAX [7:0], CMAX [15:8], KMAX [20:16], NBUF [26:24], ENUM [27]. -/
def paramWord (p : Params) : Word :=
  0#4 ++ BitVec.ofBool (p.order == .lexLsbFirst) ++ 4#3 ++ 0#3 ++ BitVec.ofNat 5 p.kmax ++ BitVec.ofNat 8 p.cmax
    ++ BitVec.ofNat 8 p.rmax

end Sys2Proof.Machine
end

