-- ==== Sys2Proof/Machine/Matrix.lean ====
section
/-! DEFINITION. Matrices over GF(2) and the computations the command rules share: R7, R9, R66, R72, R73, R78. -/

namespace Sys2Proof.Machine

/-- An r×c matrix of bits (R7), row 0 first and column 0 first. Every matrix the model makes is made by `Mat.ofFn`, so `bits`
has `rows` rows of `cols` entries. -/
structure Mat where
  /-- Number of rows, r. -/
  rows : Nat
  /-- Number of columns, c. -/
  cols : Nat
  /-- The rows, each the list of its entries. -/
  bits : List (List Bool)
deriving DecidableEq, Repr

/-- `A[i][j]` (R7). -/
def Mat.get (A : Mat) (i j : Nat) : Bool := (A.bits.getD i []).getD j false

/-- The r×c matrix with entries `f i j`. -/
def Mat.ofFn (r c : Nat) (f : Nat → Nat → Bool) : Mat where
  rows := r
  cols := c
  bits := (List.range r).map fun i => (List.range c).map (f i)

/-- XOR of `f l` over `l in 0..n-1` (R72, R73); 0 when n = 0. -/
def xorSum : Nat → (Nat → Bool) → Bool
  | 0, _ => false
  | n + 1, f => xorSum n f ^^ f n

/-- How many `l in 0..n-1` have `f l`. -/
def countOnes : Nat → (Nat → Bool) → Nat
  | 0, _ => 0
  | n + 1, f => countOnes n f + (f n).toNat

/-- Sum of `f i` over `i in 0..n-1`. -/
def natSum : Nat → (Nat → Nat) → Nat
  | 0, _ => 0
  | n + 1, f => natSum n f + f n

/-- `popcount(A)`, the number of 1 entries (R9). -/
def Mat.popcount (A : Mat) : Nat := natSum A.rows fun i => countOnes A.cols (A.get i)

/-- `I_n` (R9). -/
def Mat.identity (n : Nat) : Mat := .ofFn n n fun i j => i == j

/-- `A · B` (R73). -/
def Mat.mul (A B : Mat) : Mat :=
  .ofFn A.rows B.cols fun i j => xorSum A.cols fun l => A.get i l && B.get l j

/-- The entrywise XOR of two matrices of one shape (R72, R76). -/
def Mat.add (A B : Mat) : Mat := .ofFn A.rows A.cols fun i j => A.get i j ^^ B.get i j

/-- `A^T` (R9). -/
def Mat.transpose (A : Mat) : Mat := .ofFn A.cols A.rows fun i j => A.get j i

/-- Every entry modulo 2 (R67): the entry itself, a bit (R15). -/
def Mat.reduceMod2 (A : Mat) : Mat := .ofFn A.rows A.cols fun i j => (A.get i j).toNat % 2 == 1

/-- `[A | I_r]`: A in columns 0..c-1, the identity to its right (R70). -/
def Mat.augment (A : Mat) : Mat :=
  .ofFn A.rows (A.cols + A.rows) fun i j => if j < A.cols then A.get i j else i == j - A.cols

/-- Columns `from..from+n-1` of a matrix (R70). -/
def Mat.columns (A : Mat) (start n : Nat) : Mat := .ofFn A.rows n fun i j => A.get i (start + j)

/-- The least row index q in p..r-1 with `A[q][col] = 1`, or none (R66). -/
def Mat.pivotRow (A : Mat) (p col : Nat) : Option Nat :=
  (List.range' p (A.rows - p)).find? fun q => A.get q col

/-- Swap rows p and q (R66). -/
def Mat.swapRows (A : Mat) (p q : Nat) : Mat :=
  .ofFn A.rows A.cols fun i j => A.get (if i = p then q else if i = q then p else i) j

/-- XOR row p into every other row that has a 1 in column `col` (R66). -/
def Mat.clearColumn (A : Mat) (p col : Nat) : Mat :=
  .ofFn A.rows A.cols fun i j => if i ≠ p ∧ A.get i col then A.get i j ^^ A.get p j else A.get i j

/-- One turn of R66's loop: the column's pivot, if any, is swapped into row p and its column cleared elsewhere. -/
def elimColumn (Ap : Mat × Nat) (col : Nat) : Mat × Nat :=
  match Ap.1.pivotRow Ap.2 col with
  | none => Ap
  | some q => ((Ap.1.swapRows Ap.2 q).clearColumn Ap.2 col, Ap.2 + 1)

/-- `elim(A, pc)` (R66): the reduced matrix and the number of pivots found in columns 0..pc-1. -/
def elim (A : Mat) (pc : Nat) : Mat × Nat := (List.range pc).foldl elimColumn (A, 0)

/-- `cand(i)`, the length-k message vector of index i (R78). -/
def candidate (order : EnumOrder) (k i : Nat) : Mat :=
  .ofFn 1 k fun _ j =>
    match order with
    | .lexMsbFirst => i.testBit (k - 1 - j)
    | .lexLsbFirst => i.testBit j

/-- The Hamming distance of candidate i's codeword under generator G from the received vector y (R72, R79). -/
def candidateDistance (order : EnumOrder) (G y : Mat) (i : Nat) : Nat :=
  (((candidate order G.rows i).mul G).add y).popcount

/-- What DECODE's loop carries (R79). -/
structure Search where
  /-- Index of the best candidate so far. -/
  bestI : Nat
  /-- Its distance. -/
  bestD : Nat
  /-- Candidates evaluated. -/
  count : Nat
deriving DecidableEq, Repr

/-- `turns` turns of DECODE's loop from index i (R79): the first minimum wins, and distance 0 ends the loop. -/
def searchFrom (dist : Nat → Nat) : Nat → Nat → Search → Search
  | 0, _, b => b
  | turns + 1, i, b =>
    let b' : Search :=
      if dist i < b.bestD then ⟨i, dist i, b.count + 1⟩ else ⟨b.bestI, b.bestD, b.count + 1⟩
    if dist i = 0 then b' else searchFrom dist turns (i + 1) b'

/-- DECODE's whole loop: indices 0..2^k-1 from `best_i = 0`, `best_d = n + 1`, `count = 0` (R79). -/
def nearestCodeword (order : EnumOrder) (G y : Mat) : Search :=
  searchFrom (candidateDistance order G y) (2 ^ G.rows) 0 ⟨0, G.cols + 1, 0⟩

end Sys2Proof.Machine
end

