-- ==== Sys2Proof/Machine/Ops.lean ====
section
/-! DEFINITION. The named operations over the buffer storage and the registers: reading and writing storage, committing a
result (R63), accepting a command (R58), completing one with success or with an error (R62, R83), and the two resets
(R94, R95). -/

namespace Sys2Proof.Machine

/-- The outcome of one step or of one instruction. -/
abbrev Result := Host.Outcome State Fault Refusal

/-! ### Storage bytes -/

/-- The value listed at an address, if any. -/
def Memory.read : Memory → Nat → Option Byte
  | [], _ => none
  | x :: m, a => if x.1 = a then some x.2 else Memory.read m a

/-- The entries for bytes stored from address a upward. -/
def Memory.block : Nat → List Byte → Memory
  | _, [] => []
  | a, b :: bs => (a, b) :: Memory.block (a + 1) bs

/-- Store bytes from address a upward: the one operation that writes memory. -/
def Memory.writeBlock (m : Memory) (a : Nat) (bs : List Byte) : Memory :=
  m.filter (fun x => x.1 < a) ++ Memory.block a bs ++ m.filter (fun x => a + bs.length ≤ x.1)

/-! ### Where a storage bit stands (R31, R35) -/

/-- `WBASE(i)` (R31). -/
def wbase (i : Buf) : Nat := 0x2000 + 0x2000 * i.val

/-- `WADDR(i, r, w)` (R31). -/
def waddr (p : Params) (i : Buf) (r w : Nat) : Nat := wbase i + 4 * (r * p.wpr + w)

/-- The aperture offset of the byte that carries `store[i][r][c]`: bit c % 32 of word c / 32 of row r (R31), bytes little-endian
(R35). -/
def byteAddr (p : Params) (i : Buf) (r c : Nat) : Nat := waddr p i r (c / 32) + c % 32 / 8

/-- How many storage bytes a buffer has: `4·RMAX·WPR` (R31). -/
def bufferBytes (p : Params) : Nat := 4 * (p.rmax * p.wpr)

/-- The byte whose bit t is `f t`. -/
def byteOfBits (f : Nat → Bool) : Byte := BitVec.ofFnLE fun t : Fin 8 => f t.val

/-- The four bytes of a word, the lowest address first (R35). -/
def wordBytes (v : Word) : List Byte :=
  [v.extractLsb' 0 8, v.extractLsb' 8 8, v.extractLsb' 16 8, v.extractLsb' 24 8]

/-- The storage byte at an aperture offset; the free value of its power-on where nothing has written it (R94, X1). -/
def State.storeByte (s : State) (a : Nat) : Byte := (s.mem.read a).getD (Config.powerOnByte s.epoch a)

/-- `store[i][r][c]` (R11). -/
def State.storeBit (s : State) (i : Buf) (r c : Nat) : Bool :=
  (s.storeByte (byteAddr s.params i r c)).getLsbD (c % 8)

/-- `store[i][r][c]` has been written since the hard reset: it is not UNSPECIFIED (R94, R101). -/
def State.bitSpecified (s : State) (i : Buf) (r c : Nat) : Bool :=
  (s.mem.read (byteAddr s.params i r c)).isSome

/-- The word of the window at `WADDR(i, r, w)` (R31, R32). -/
def State.storeWord (s : State) (i : Buf) (r w : Nat) : Word :=
  s.storeByte (waddr s.params i r w + 3) ++ s.storeByte (waddr s.params i r w + 2)
    ++ s.storeByte (waddr s.params i r w + 1) ++ s.storeByte (waddr s.params i r w)

/-- Store a word at `WADDR(i, r, w)` (R33). -/
def State.setStoreWord (i : Buf) (r w : Nat) (v : Word) (s : State) : State :=
  { s with mem := s.mem.writeBlock (waddr s.params i r w) (wordBytes v) }

/-! ### SHAPE registers -/

/-- `SHAPE[i]` (R12). -/
def State.shapeOf (s : State) (i : Buf) : Shape := s.shape[i.val]

/-- `SHAPE[i] <- sh` (R13). -/
def State.setShape (i : Buf) (sh : Shape) (s : State) : State := { s with shape := s.shape.set i.val sh i.isLt }

/-! ### Commit (R63) -/

/-- Every storage byte of a buffer holding V: the bit at row rr and column cc is V's where V has that entry, else 0 (R63). -/
def matrixBytes (p : Params) (V : Mat) : List Byte :=
  (List.range (bufferBytes p)).map fun n =>
    byteOfBits fun t =>
      if n / (4 * p.wpr) < V.rows ∧ 8 * (n % (4 * p.wpr)) + t < V.cols then
        V.get (n / (4 * p.wpr)) (8 * (n % (4 * p.wpr)) + t)
      else false

/-- `x[i] <- V` (R63): all of the buffer's storage and its SHAPE at once. -/
def State.commit (i : Buf) (V : Mat) (s : State) : State :=
  { s with
    mem := s.mem.writeBlock (wbase i) (matrixBytes s.params V)
    shape := s.shape.set i.val ⟨BitVec.ofNat 8 V.rows, BitVec.ofNat 8 V.cols⟩ i.isLt }

/-- The commit of a command that has a destination; no buffer is written by one that has none (R62). -/
def State.commitDest (dest : Option (Buf × Mat)) (s : State) : State :=
  match dest with
  | none => s
  | some (i, V) => s.commit i V

/-! ### Acceptance (R58) -/

/-- Acceptance of command word w: BUSY set, DONE, ERR and ERRCODE cleared, w recorded. How long the command will take is
drawn here (R62). -/
def State.accept (w : Word) (s : State) : State :=
  { s with
    phase := .busy w (Config.latency w s.fresh)
    done := false
    err := false
    errcode := .none
    cmdLast := w
    fresh := s.fresh + 1 }

/-! ### Completion (R62) -/

/-- The STATUS effect common to every completion: BUSY cleared, DONE set, the phase Idle (R62). -/
def State.finish (s : State) : State := { s with done := true, phase := .idle }

/-- Completion as `Success(dest, res, dc)` (R62). -/
def complete (dest : Option (Buf × Mat)) (res dc : Word) (s : State) : Result :=
  .next { (s.commitDest dest).finish with result := res, dcount := dc, errcode := .none }

/-- `raise Error(code)`, completion as `Fail(code)` (R62, R83): what this hardware has in place of taking an exception. ERR, the
code and DONE are set, RESULT and DCOUNT are 0, and no buffer or SHAPE is written. No state is saved and nothing is jumped
to (R87); the failing word stays in CMD's read-back (R82). -/
def raiseError (code : ErrCode) (s : State) : Result :=
  .next { s.finish with result := 0, dcount := 0, err := true, errcode := code }

/-- A destination of r rows and c columns whose contents are UNSPECIFIED (R101). -/
def unspecifiedMatrix (n r c : Nat) : Mat := .ofFn r c (Config.freeEntry n)

/-- Completion of a command that read a storage bit UNSPECIFIED since hard reset (R101): it "completes normally", and its
destination contents, RESULT and DCOUNT are free values. `dest` names the destination and the shape the command gives it. -/
def completeUnspecified (dest : Option (Buf × Nat × Nat)) (s : State) : Result :=
  complete (dest.map fun d => (d.1, unspecifiedMatrix s.fresh d.2.1 d.2.2)) (Config.freeResult s.fresh)
    (Config.freeDcount s.fresh) { s with fresh := s.fresh + 1 }

/-- Completion as SINGULAR of an INV that read such a bit (R101): RESULT and DCOUNT are free values. -/
def raiseUnspecifiedSingular (s : State) : Result :=
  .next { s.finish with
    result := Config.freeResult s.fresh
    dcount := Config.freeDcount s.fresh
    err := true
    errcode := .singular
    fresh := s.fresh + 1 }

/-! ### Resets -/

/-- A soft reset (R95): CTRL, STATUS, CMD read-back, RESULT and DCOUNT take their reset values and the phase is Idle; an
executing command is aborted, and buffers and SHAPEs keep their values. -/
def State.softReset (s : State) : State :=
  { s with
    irqEn := false
    done := false
    err := false
    wob := false
    errcode := .none
    cmdLast := 0
    result := 0
    dcount := 0
    phase := .idle }

/-- A hard reset (R94): every register takes its reset value and every storage bit is UNSPECIFIED anew. The outside world, which
drives the reset, goes on with what it was doing. -/
def State.hardReset (s : State) : State :=
  { State.powerOn s.params with
    host := s.host
    replies := s.replies
    epoch := s.epoch + 1
    fresh := s.fresh }

end Sys2Proof.Machine
end

