-- ==== Sys2Proof/Machine/Aperture.lean ====
section
/-! DEFINITION. The host's side: the register map (R17, R31), what a read returns, what a write does in each phase (R98, R99),
and one turn of the outside world. -/

namespace Sys2Proof.Machine

/-- What stands at an aperture offset (R17, R31). -/
inductive Target where
  | id
  | param
  | ctrl
  | status
  | cmd
  | result
  | dcount
  | shape (i : Buf)
  /-- Row r, word w of buffer i. -/
  | window (i : Buf) (r w : Nat)
  /-- Reads as zero, ignores writes, in every phase (R26, V2). -/
  | reserved
deriving DecidableEq, Repr

/-- Where the host finds an offset: the platform's `ENGINE_BASE` plus the offset (R29); no rule of the engine reads it. -/
def hostAddress (off : Offset) : Nat := Config.engineBase + off.toNat

/-- Which window an offset of 0x2000 to 0x9FFF lies in (R31). -/
def windowOf (a : Nat) : Buf := Fin.ofNat 4 ((a - 0x2000) / 0x2000)

/-- The registers, offsets 0x0000 to 0x1FFF and 0xA000 to 0xFFFF (R17). -/
def registerAt (a : Nat) : Target :=
  match a with
  | 0x000 => .id
  | 0x004 => .param
  | 0x008 => .ctrl
  | 0x00C => .status
  | 0x010 => .cmd
  | 0x014 => .result
  | 0x018 => .dcount
  | 0x020 => .shape 0
  | 0x024 => .shape 1
  | 0x028 => .shape 2
  | 0x02C => .shape 3
  | _ => .reserved

/-- Word n of the window of buffer i (R31): row n / WPR, word n % WPR; beyond its `RMAX·WPR` words the window is reserved. -/
def windowWord (p : Params) (i : Buf) (n : Nat) : Target :=
  if n < p.rmax * p.wpr then .window i (n / p.wpr) (n % p.wpr) else .reserved

/-- The map of R17 and R31. -/
def targetOf (p : Params) (off : Offset) : Target :=
  if 0x2000 ≤ off.toNat ∧ off.toNat ≤ 0x9FFF then
    windowWord p (windowOf off.toNat) ((off.toNat - wbase (windowOf off.toNat)) / 4)
  else registerAt off.toNat

/-- The word a host read returns (R17 to R26, R32, R99). While the engine is busy, a window, RESULT or DCOUNT reads as a free
value. -/
def State.readValue (off : Offset) (s : State) : Word :=
  match targetOf s.params off with
  | .id => idWord
  | .param => paramWord s.params
  | .ctrl => s.ctrlWord
  | .status => s.statusWord
  | .cmd => s.cmdLast
  | .result => if s.busy then Config.freeRead s.fresh else s.result
  | .dcount => if s.busy then Config.freeRead s.fresh else s.dcount
  | .shape i => (s.shapeOf i).toWord
  | .window i r w => if s.busy then Config.freeRead s.fresh else s.storeWord i r w
  | .reserved => 0

/-- A host read: the word goes back to the host and nothing of the engine changes (R36). -/
def State.hostRead (off : Offset) (s : State) : State :=
  { s with replies := s.readValue off :: s.replies, fresh := s.fresh + 1 }

/-- A write the busy engine drops: it changes nothing but WOB (R98). -/
def State.dropWrite (s : State) : State := { s with wob := true }

/-- A write of v to CTRL (R20): with SRST = 1 a soft reset, whatever bit 0 is; else bit 0 goes to IRQ_EN. -/
def State.writeCtrl (v : Word) (s : State) : State :=
  if v.getLsbD 1 then s.softReset else { s with irqEn := v.getLsbD 0 }

/-- A host write of v (R17 to R26, R33, R98). -/
def State.hostWrite (off : Offset) (v : Word) (s : State) : State :=
  match targetOf s.params off with
  | .id => s
  | .param => s
  | .ctrl => s.writeCtrl v
  | .status => s.writeStatus v
  | .cmd => if s.busy then s.dropWrite else s.accept v
  | .result => s
  | .dcount => s
  | .shape i => if s.busy then s.dropWrite else s.setShape i (Shape.ofWord v)
  | .window i r w => if s.busy then s.dropWrite else s.setStoreWord i r w v
  | .reserved => s

/-- The one access the interface defines: 32 bits at a multiple of 4 (R34). -/
def accessDefined (off : Offset) (size : Nat) : Bool := size = 4 && off.toNat % 4 = 0

/-- One turn of the outside world (R40): its first pending event happens, if it has one; with none the engine waits (R93).
WAIT reads STATUS; while DONE is 0 it stays pending, and the word it ends on goes to the host (R55). -/
def hostTurn (s : State) : Result :=
  match s.host with
  | [] => .next s
  | .read off size :: rest =>
    if accessDefined off size then .next (State.hostRead off { s with host := rest })
    else .refused .accessOutsideInterface
  | .write off size v :: rest =>
    if accessDefined off size then .next (State.hostWrite off v { s with host := rest })
    else .refused .accessOutsideInterface
  | .wait :: rest =>
    if s.done then .next { s with host := rest, replies := s.statusWord :: s.replies } else .next s
  | .hardReset :: rest => .next (State.hardReset { s with host := rest })

end Sys2Proof.Machine
end

