-- ==== Sys2Proof/Machine/Operands.lean ====
section
/-! DEFINITION. Source operands: the one operand form of this hardware is a whole buffer (R47), read as the matrix of its
SHAPE (R12), with the shape checks of R84 and the question R101 asks of it. -/

namespace Sys2Proof.Machine

/-- `SHAPE[i].ROWS` as a count. -/
def State.rowsOf (s : State) (i : Buf) : Nat := (s.shapeOf i).rows.toNat

/-- `SHAPE[i].COLS` as a count. -/
def State.colsOf (s : State) (i : Buf) : Nat := (s.shapeOf i).cols.toNat

/-- `x[i]`, the ROWS×COLS matrix of buffer i (R9, R12). -/
def State.matrix (s : State) (i : Buf) : Mat := .ofFn (s.rowsOf i) (s.colsOf i) (s.storeBit i)

/-- A shape of r rows and c columns fits a buffer (R13, R71). -/
def fitsBuffer (p : Params) (r c : Nat) : Bool := r ≤ p.rmax && c ≤ p.cmax

/-- The shape of buffer i is in range (R13): not the cause of SHAPE_RANGE (R82). -/
def State.inRange (s : State) (i : Buf) : Bool := fitsBuffer s.params (s.rowsOf i) (s.colsOf i)

/-- No storage bit of buffer i inside its shape is UNSPECIFIED since hard reset (R101). -/
def State.specified (s : State) (i : Buf) : Bool :=
  (List.range (s.rowsOf i)).all fun r => (List.range (s.colsOf i)).all fun c => s.bitSpecified i r c

end Sys2Proof.Machine
end

