-- ==== Sys2Proof/Machine/Algebra.lean ====
section
/-! DEFINITION. The GF(2) linear algebra commands: REDUCE, RANK, ISINV, INV, PINV (41_gf2_algebra.md). Each makes its checks in
the order of R84, then asks whether it read unspecified storage (R101), then computes. -/

namespace Sys2Proof.Machine

/-- REDUCE (R67): a copy of the source modulo 2, shape included. -/
def execReduce (rd rs1 : Buf) (s : State) : Result :=
  if ¬ s.inRange rs1 then raiseError .shapeRange s
  else if ¬ s.specified rs1 then completeUnspecified (some (rd, s.rowsOf rs1, s.colsOf rs1)) s
  else complete (some (rd, (s.matrix rs1).reduceMod2)) 0 0 s

/-- RANK (R68): RESULT is the number of pivots over all columns. -/
def execRank (rs1 : Buf) (s : State) : Result :=
  if ¬ s.inRange rs1 then raiseError .shapeRange s
  else if ¬ s.specified rs1 then completeUnspecified none s
  else complete none (BitVec.ofNat 32 (elim (s.matrix rs1) (s.colsOf rs1)).2) 0 s

/-- ISINV (R69): RESULT is 1 when every row of the square source has a pivot, else 0. -/
def execIsinv (rs1 : Buf) (s : State) : Result :=
  if ¬ s.inRange rs1 then raiseError .shapeRange s
  else if s.rowsOf rs1 ≠ s.colsOf rs1 then raiseError .notSquare s
  else if ¬ s.specified rs1 then completeUnspecified none s
  else complete none (if (elim (s.matrix rs1) (s.rowsOf rs1)).2 = s.rowsOf rs1 then 1 else 0) 0 s

/-- INV (R70): Gauss–Jordan on [A | I]; SINGULAR when the left block does not reduce to the identity. -/
def execInv (rd rs1 : Buf) (s : State) : Result :=
  if ¬ s.inRange rs1 then raiseError .shapeRange s
  else if s.rowsOf rs1 ≠ s.colsOf rs1 then raiseError .notSquare s
  else if ¬ s.specified rs1 then
    if Config.freeSingular s.fresh then raiseUnspecifiedSingular s
    else completeUnspecified (some (rd, s.rowsOf rs1, s.rowsOf rs1)) s
  else
    if (elim (s.matrix rs1).augment (s.rowsOf rs1)).1.columns 0 (s.rowsOf rs1) ≠ .identity (s.rowsOf rs1) then
      raiseError .singular s
    else
      complete (some (rd, (elim (s.matrix rs1).augment (s.rowsOf rs1)).1.columns (s.rowsOf rs1) (s.rowsOf rs1))) 0 0 s

/-- PINV (R71): the transpose, with no check that the source is a permutation; the c×r result must fit a buffer. -/
def execPinv (rd rs1 : Buf) (s : State) : Result :=
  if ¬ s.inRange rs1 then raiseError .shapeRange s
  else if ¬ fitsBuffer s.params (s.colsOf rs1) (s.rowsOf rs1) then raiseError .shapeRange s
  else if ¬ s.specified rs1 then completeUnspecified (some (rd, s.colsOf rs1, s.rowsOf rs1)) s
  else complete (some (rd, (s.matrix rs1).transpose)) 0 0 s

end Sys2Proof.Machine
end

