-- ==== Sys2Proof/Machine/Arithmetic.lean ====
section
/-! DEFINITION. The GF(2) arithmetic commands: MMUL, MADD, WEIGHT (42_gf2_arithmetic.md). Each makes its checks in the order of
R84 (RS1's range, then RS2's), then asks whether it read unspecified storage (R101), then computes. -/

namespace Sys2Proof.Machine

/-- MMUL (R75): the product `x[rs1] · x[rs2]`. -/
def execMmul (rd rs1 rs2 : Buf) (s : State) : Result :=
  if ¬ s.inRange rs1 then raiseError .shapeRange s
  else if ¬ s.inRange rs2 then raiseError .shapeRange s
  else if s.colsOf rs1 ≠ s.rowsOf rs2 then raiseError .shapeMismatch s
  else if ¬ (s.specified rs1 ∧ s.specified rs2) then
    completeUnspecified (some (rd, s.rowsOf rs1, s.colsOf rs2)) s
  else complete (some (rd, (s.matrix rs1).mul (s.matrix rs2))) 0 0 s

/-- MADD (R76): the entrywise XOR of two matrices of one shape. -/
def execMadd (rd rs1 rs2 : Buf) (s : State) : Result :=
  if ¬ s.inRange rs1 then raiseError .shapeRange s
  else if ¬ s.inRange rs2 then raiseError .shapeRange s
  else if s.rowsOf rs1 ≠ s.rowsOf rs2 ∨ s.colsOf rs1 ≠ s.colsOf rs2 then raiseError .shapeMismatch s
  else if ¬ (s.specified rs1 ∧ s.specified rs2) then
    completeUnspecified (some (rd, s.rowsOf rs1, s.colsOf rs1)) s
  else complete (some (rd, (s.matrix rs1).add (s.matrix rs2))) 0 0 s

/-- WEIGHT (R77): RESULT is the number of 1 entries inside the shape. -/
def execWeight (rs1 : Buf) (s : State) : Result :=
  if ¬ s.inRange rs1 then raiseError .shapeRange s
  else if ¬ s.specified rs1 then completeUnspecified none s
  else complete none (BitVec.ofNat 32 (s.matrix rs1).popcount) 0 s

end Sys2Proof.Machine
end

