-- ==== Sys2Proof/Machine/Control.lean ====
section
/-! DEFINITION. NOP (R65), and what an illegal command word does (R50). -/

namespace Sys2Proof.Machine

/-- NOP (R65): RESULT and DCOUNT are 0, and there is no destination. -/
def execNop (s : State) : Result := complete none 0 0 s

/-- An illegal command word (R50, R82): it completes with ILLEGAL "without reading or writing any buffer". -/
def execIllegal (s : State) : Result := raiseError .illegal s

end Sys2Proof.Machine
end

