-- ==== Sys2Proof/Machine/Decoder.lean ====
section
/-! DEFINITION. DECODE, the exhaustive nearest-codeword decoder (43_decoder.md). -/

namespace Sys2Proof.Machine

/-- DECODE (R79): `rs1` is the k×n generator, `rs2` the received 1×n vector; `rd` receives the best candidate, RESULT its
distance, DCOUNT how many candidates were evaluated. All checks come before the first candidate (R84). -/
def execDecode (rd rs1 rs2 : Buf) (s : State) : Result :=
  if ¬ s.inRange rs1 then raiseError .shapeRange s
  else if ¬ s.inRange rs2 then raiseError .shapeRange s
  else if s.rowsOf rs2 ≠ 1 ∨ s.colsOf rs2 ≠ s.colsOf rs1 then raiseError .shapeMismatch s
  else if s.params.kmax < s.rowsOf rs1 then raiseError .kRange s
  else if ¬ (s.specified rs1 ∧ s.specified rs2) then
    completeUnspecified (some (rd, 1, s.rowsOf rs1)) s
  else
    let b := nearestCodeword s.params.order (s.matrix rs1) (s.matrix rs2)
    complete (some (rd, candidate s.params.order (s.rowsOf rs1) b.bestI)) (BitVec.ofNat 32 b.bestD)
      (BitVec.ofNat 32 b.count) s

end Sys2Proof.Machine
end

