-- ==== Sys2Proof/Machine/Dispatch.lean ====
section
/-! DEFINITION. The completion of each legal command (R59, R62): one arm per constructor of `Instr`. -/

namespace Sys2Proof.Machine

def exec (i : Instr) (s : State) : Host.Outcome State Fault Refusal :=
  match i with
  | .nop => Sys2Proof.Machine.execNop s
  | .rank rs1 => Sys2Proof.Machine.execRank rs1 s
  | .isinv rs1 => Sys2Proof.Machine.execIsinv rs1 s
  | .inv rd rs1 => Sys2Proof.Machine.execInv rd rs1 s
  | .pinv rd rs1 => Sys2Proof.Machine.execPinv rd rs1 s
  | .mmul rd rs1 rs2 => Sys2Proof.Machine.execMmul rd rs1 rs2 s
  | .decode rd rs1 rs2 => Sys2Proof.Machine.execDecode rd rs1 rs2 s
  | .reduce rd rs1 => Sys2Proof.Machine.execReduce rd rs1 s
  | .madd rd rs1 rs2 => Sys2Proof.Machine.execMadd rd rs1 rs2 s
  | .weight rs1 => Sys2Proof.Machine.execWeight rs1 s

end Sys2Proof.Machine
end

