-- ==== Sys2Proof/Machine/Fetch.lean ====
section
/-! DEFINITION. Whose turn it is, and how the accepted command word runs. The engine fetches no instruction from a memory (R27,
R44): the command it runs is the word its phase holds. -/

namespace Sys2Proof.Machine

/-- The completion of the accepted command word (R59, R62): a legal word's instruction, or ILLEGAL (R50). -/
def runCommand (w : Word) (s : State) : Result :=
  match decode w with
  | .ok i => exec i s
  | .error _ => execIllegal s

/-- An accepted command completes once the host has had as many turns as its latency gives it (R62); until then, and while the
engine is idle, the turn is the host's. A completion is thus wholly before or wholly after each host access (R37, R85), and
host accesses happen one at a time in program order (R40). -/
def nextTurn (s : State) : Result :=
  match s.phase with
  | .idle => hostTurn s
  | .busy w 0 => runCommand w s
  | .busy w (left + 1) => hostTurn { s with phase := .busy w left }

/-- Acceptance of `w` whatever the phase, with completion due at the next step: what R58 sets, and no turn left to the host. -/
def State.capture (w : Word) (s : State) : State :=
  { s with
    phase := .busy w 0
    done := false
    err := false
    errcode := .none
    cmdLast := w }

end Sys2Proof.Machine
end

