-- ==== Sys2Proof/Machine/Step.lean ====
section
/-! DEFINITION. One step of the machine. -/

namespace Sys2Proof.Machine

/-- One step: the accepted command completes, or the outside world has its turn (R37, R40, R62). -/
def step (s : State) : Host.Outcome State Fault Refusal := nextTurn s

/-- `s` with a command word accepted and about to complete: the engine has no instruction memory, and a command is captured when
CMD is written (R27, R44), so what holds the next instruction is the phase. -/
def State.withFetchWord (s : State) (nbits w : Nat) : State := s.capture (wordOfTable nbits w)

end Sys2Proof.Machine
end

