-- ==== Sys2Proof/Machine/Assembler.lean ====
section
/-! DEFINITION. The assembler syntax of R53 and the pseudo-instructions of R54, over lists of characters. -/

namespace Sys2Proof.Machine

/-- A blank between the parts of a line. -/
def isBlank (ch : Char) : Bool := ch == ' ' || ch == '\t'

/-- A line part without the blanks around it. -/
def trimBlanks (cs : List Char) : List Char := ((cs.dropWhile isBlank).reverse.dropWhile isBlank).reverse

/-- The parts of a line between commas. -/
def splitCommas : List Char → List (List Char)
  | [] => [[]]
  | ch :: cs =>
    if ch = ',' then [] :: splitCommas cs
    else
      match splitCommas cs with
      | [] => [[ch]]
      | part :: parts => (ch :: part) :: parts

/-- A buffer name, `m0` to `m3` (R53). -/
def bufNamed : List Char → Option Buf
  | ['m', '0'] => some 0
  | ['m', '1'] => some 1
  | ['m', '2'] => some 2
  | ['m', '3'] => some 3
  | _ => none

/-- The command of a mnemonic in lower case and its operands in the order RD, RS1, RS2 (R53, R54). -/
def commandNamed : List Char → List Buf → Option Instr
  | ['n', 'o', 'p'], [] => some .nop
  | ['r', 'a', 'n', 'k'], [rs1] => some (.rank rs1)
  | ['i', 's', 'i', 'n', 'v'], [rs1] => some (.isinv rs1)
  | ['i', 'n', 'v'], [rd, rs1] => some (.inv rd rs1)
  | ['p', 'i', 'n', 'v'], [rd, rs1] => some (.pinv rd rs1)
  | ['m', 'm', 'u', 'l'], [rd, rs1, rs2] => some (.mmul rd rs1 rs2)
  | ['d', 'e', 'c', 'o', 'd', 'e'], [rd, rs1, rs2] => some (.decode rd rs1 rs2)
  | ['r', 'e', 'd', 'u', 'c', 'e'], [rd, rs1] => some (.reduce rd rs1)
  | ['m', 'a', 'd', 'd'], [rd, rs1, rs2] => some (.madd rd rs1 rs2)
  | ['w', 'e', 'i', 'g', 'h', 't'], [rs1] => some (.weight rs1)
  | ['m', 'o', 'v'], [rd, rs1] => some (Instr.mov rd rs1)
  | ['t', 'r', 'a', 'n', 's', 'p', 'o', 's', 'e'], [rd, rs1] => some (Instr.transpose rd rs1)
  | _, _ => none

/-- The operands of a line: none, or buffer names separated by commas (R53). -/
def operandsNamed (cs : List Char) : Option (List Buf) :=
  if trimBlanks cs = [] then some []
  else (splitCommas cs).mapM fun part => bufNamed (trimBlanks part)

/-- The command a line writes (R53): `;` starts a comment, and mnemonics are case-insensitive. -/
def assembleLine (line : List Char) : Option Instr :=
  let body := trimBlanks (line.takeWhile (· ≠ ';'))
  let mnemonic := body.takeWhile fun ch => !isBlank ch
  (operandsNamed (body.drop mnemonic.length)).bind (commandNamed (mnemonic.map Char.toLower))

/-- A buffer's name (R53). -/
def bufName (i : Buf) : List Char := ['m', Char.ofNat (48 + i.val)]

/-- A line with two operands. -/
def twoOperands (rd rs1 : Buf) : List Char := ' ' :: (bufName rd ++ [',', ' '] ++ bufName rs1)

/-- A line with three operands. -/
def threeOperands (rd rs1 rs2 : Buf) : List Char := twoOperands rd rs1 ++ [',', ' '] ++ bufName rs2

/-- How R53 writes a command. -/
def assembly : Instr → List Char
  | .nop => ['N', 'O', 'P']
  | .rank rs1 => ['R', 'A', 'N', 'K', ' '] ++ bufName rs1
  | .isinv rs1 => ['I', 'S', 'I', 'N', 'V', ' '] ++ bufName rs1
  | .inv rd rs1 => ['I', 'N', 'V'] ++ twoOperands rd rs1
  | .pinv rd rs1 => ['P', 'I', 'N', 'V'] ++ twoOperands rd rs1
  | .mmul rd rs1 rs2 => ['M', 'M', 'U', 'L'] ++ threeOperands rd rs1 rs2
  | .decode rd rs1 rs2 => ['D', 'E', 'C', 'O', 'D', 'E'] ++ threeOperands rd rs1 rs2
  | .reduce rd rs1 => ['R', 'E', 'D', 'U', 'C', 'E'] ++ twoOperands rd rs1
  | .madd rd rs1 rs2 => ['M', 'A', 'D', 'D'] ++ threeOperands rd rs1 rs2
  | .weight rs1 => ['W', 'E', 'I', 'G', 'H', 'T', ' '] ++ bufName rs1

end Sys2Proof.Machine
end

