-- ==== Sys2Proof/Machine/HostProgram.lean ====
section
/-! DEFINITION. The host statements of R55, as the events a host program is made of. Its control flow (if, goto, labels) is the
host processor's. -/

namespace Sys2Proof.Machine

/-- `W off, v` (R55). -/
def hostW (off : Nat) (v : Word) : HostEvent := .write (BitVec.ofNat 16 off) 4 v

/-- `R off` (R55). -/
def hostR (off : Nat) : HostEvent := .read (BitVec.ofNat 16 off) 4

/-- `CMD <command>` (R55). -/
def hostCmd (i : Instr) : HostEvent := hostW 0x010 (encode i)

/-- The word LOADM writes to SHAPE_i: `(c << 16) OR r` (R55). -/
def loadShapeWord (r c : Nat) : Word := (BitVec.ofNat 32 c <<< 16) ||| BitVec.ofNat 32 r

/-- `LOADM mi, r×c, [row words]` (R55): the SHAPE write, then each row's ceil(c/32) words in order. R55 does not say what a list
of another length than r·ceil(c/32) means: a missing word is written as 0 and words beyond the last are not written (DESIGN
CHOICE, log entry 22). -/
def loadm (p : Params) (i : Buf) (r c : Nat) (rowWords : List Word) : List HostEvent :=
  hostW (0x020 + 4 * i.val) (loadShapeWord r c) ::
    (List.range (r * ((c + 31) / 32))).map fun n =>
      hostW (waddr p i (n / ((c + 31) / 32)) (n % ((c + 31) / 32))) (rowWords.getD n 0)

end Sys2Proof.Machine
end

