-- ==== Sys2Proof/Safety.lean ====
section
/-! DEFINITION. The terms the claims are stated in: a state a run can be in, a run of several steps, what a completed command may
have changed, and the order of the checks of R84. -/

namespace Sys2Proof.Machine

/-- The aperture offset a belongs to the storage of buffer i: its window up to `RMAX·WPR` words (R31). -/
def InStorage (p : Params) (i : Buf) (a : Nat) : Prop :=
  0x2000 + 0x2000 * i.val ≤ a ∧ a < 0x2000 + 0x2000 * i.val + 4 * (p.rmax * p.wpr)

/-- What every state of a run satisfies. -/
structure State.Inv (s : State) : Prop where
  /-- The parameters are in the ranges of R5. -/
  paramsLegal : s.params.legal
  /-- Memory is in its canonical form. -/
  memCanonical : s.mem.wf
  /-- Only storage of the four buffers is listed. -/
  memInStorage : ∀ x ∈ s.mem, ∃ i, InStorage s.params i x.1
  /-- A busy engine shows the flags acceptance set, and CMD reads the word it is executing (R23, R58). -/
  busyFlags : ∀ w n, s.phase = .busy w n → s.done = false ∧ s.err = false ∧ s.errcode = .none ∧ s.cmdLast = w
  /-- ERR is never set without a code (R21, R83). -/
  errHasCode : s.err = true → s.errcode ≠ .none

/-- Several steps, stopping where a step has no next state. -/
def runFor : Nat → State → Result
  | 0, s => .next s
  | n + 1, s =>
    match step s with
    | .next t => runFor n t
    | .fault r => .fault r
    | .refused r => .refused r

/-- A pending event that neither resets the engine nor leaves the interface (R34, R94, R95). -/
def LetsCommandRun : HostEvent → Prop
  | .read off size => size = 4 ∧ off.toNat % 4 = 0
  | .write off size v => size = 4 ∧ off.toNat % 4 = 0 ∧ ¬ (off = 0x008 ∧ v.getLsbD 1 = true)
  | .wait => True
  | .hardReset => False

/-- Buffer b can be read as a source: its shape is in range (R13) and no storage bit inside it is UNSPECIFIED since hard reset
(R101). -/
def State.Ready (s : State) (b : Buf) : Prop :=
  (s.rowsOf b ≤ s.params.rmax ∧ s.colsOf b ≤ s.params.cmax) ∧
    ∀ r < s.rowsOf b, ∀ c < s.colsOf b, s.bitSpecified b r c = true

/-- t is s after a command completed with success (R62), the scalar results given; memory and the SHAPEs aside, nothing else has
changed. -/
def Succeeded (s t : State) (res dc : Word) : Prop :=
  t = { s with
    mem := t.mem
    shape := t.shape
    result := res
    dcount := dc
    errcode := .none
    done := true
    phase := .idle }

/-- No buffer and no SHAPE has changed. -/
def BuffersKept (s t : State) : Prop := t.mem = s.mem ∧ t.shape = s.shape

/-- s after a command failed with a code (R62, R83). -/
def State.failed (s : State) (code : ErrCode) : State :=
  { s with
    result := 0
    dcount := 0
    err := true
    errcode := code
    done := true
    phase := .idle }

/-- Buffer i holds the r×c matrix with entries f, its storage outside that shape is 0, and all of it has been written (R63). -/
structure State.Holds (t : State) (i : Buf) (r c : Nat) (f : Nat → Nat → Bool) : Prop where
  rows : t.rowsOf i = r
  cols : t.colsOf i = c
  bits : ∀ rr < t.params.rmax, ∀ cc < t.params.cmax, t.storeBit i rr cc = if rr < r ∧ cc < c then f rr cc else false
  written : ∀ rr < t.params.rmax, ∀ cc < t.params.cmax, t.bitSpecified i rr cc = true

/-- Every byte of memory outside buffer i's storage, and every other SHAPE, is as before. -/
structure KeptOutside (s t : State) (i : Buf) : Prop where
  shapes : ∀ j, j ≠ i → t.shapeOf j = s.shapeOf j
  bytes : ∀ a, ¬ InStorage s.params i a → t.mem.read a = s.mem.read a ∧ t.storeByte a = s.storeByte a

/-- The matrix of buffer b over the field of two elements, as Mathlib has it (R7). -/
def State.overGF2 (s : State) (b : Buf) : Matrix (Fin (s.rowsOf b)) (Fin (s.colsOf b)) (ZMod 2) :=
  Matrix.of fun i j => if s.storeBit b i.val j.val then 1 else 0

/-- The entry of candidate i's message vector (R78). -/
def candidateBit (order : EnumOrder) (k i j : Nat) : Bool :=
  match order with
  | .lexMsbFirst => i.testBit (k - 1 - j)
  | .lexLsbFirst => i.testBit j

/-- The distance of candidate i's codeword from the received vector, written out from R72, R73, R78 and R79. -/
def State.distanceOf (s : State) (rs1 rs2 : Buf) (i : Nat) : Nat :=
  countOnes (s.colsOf rs1) fun j =>
    (xorSum (s.rowsOf rs1) fun l => candidateBit s.params.order (s.rowsOf rs1) i l && s.storeBit rs1 l j)
      ^^ s.storeBit rs2 0 j

/-- A source buffer has an out-of-range shape (R13). -/
def State.outOfRange (s : State) (b : Buf) : Prop := s.params.rmax < s.rowsOf b ∨ s.params.cmax < s.colsOf b

/-- The shapes of a command's sources do not fit its rule: check 3 of R84, with its code. -/
def State.shapeFault (s : State) : Instr → Option ErrCode
  | .isinv rs1 => if s.rowsOf rs1 ≠ s.colsOf rs1 then some .notSquare else none
  | .inv _ rs1 => if s.rowsOf rs1 ≠ s.colsOf rs1 then some .notSquare else none
  | .mmul _ rs1 rs2 => if s.colsOf rs1 ≠ s.rowsOf rs2 then some .shapeMismatch else none
  | .madd _ rs1 rs2 =>
    if (s.rowsOf rs1, s.colsOf rs1) ≠ (s.rowsOf rs2, s.colsOf rs2) then some .shapeMismatch else none
  | .decode _ rs1 rs2 => if s.rowsOf rs2 ≠ 1 ∨ s.colsOf rs2 ≠ s.colsOf rs1 then some .shapeMismatch else none
  | .nop => none
  | .rank _ => none
  | .pinv _ _ => none
  | .reduce _ _ => none
  | .weight _ => none

/-- A limit a command's rule sets on its result or on k: checks 4 and 5 of R84, with their codes. -/
def State.limitFault (s : State) : Instr → Option ErrCode
  | .pinv _ rs1 => if s.colsOf rs1 > s.params.rmax ∨ s.rowsOf rs1 > s.params.cmax then some .shapeRange else none
  | .decode _ rs1 _ => if s.rowsOf rs1 > s.params.kmax then some .kRange else none
  | .nop => none
  | .rank _ => none
  | .isinv _ => none
  | .inv _ _ => none
  | .mmul _ _ _ => none
  | .reduce _ _ => none
  | .madd _ _ _ => none
  | .weight _ => none

/-- The checks 2 to 5 of R84 in their order, none of which fails. -/
def State.PassesChecks (s : State) (i : Instr) : Prop :=
  (∀ b ∈ i.sources, ¬ s.outOfRange b) ∧ s.shapeFault i = none ∧ s.limitFault i = none

/-- The states agree on a source operand: its SHAPE, and the bits inside it and whether they have been written (R59, R61). -/
def SameOperand (s s' : State) (b : Buf) : Prop :=
  s'.shapeOf b = s.shapeOf b ∧
    ∀ r < s.rowsOf b, ∀ c < s.colsOf b,
      s'.storeBit b r c = s.storeBit b r c ∧ s'.bitSpecified b r c = s.bitSpecified b r c

end Sys2Proof.Machine
end

