-- ==== Sys2Proof/Certificates/Slice0/Obligations.lean ====
section
/-! DEFINITION. The statements about the model, one definition each, and the few terms only they use. A value that the model leaves
free (`Config.…`) is never fixed by a statement: one that names a free value holds whatever that value is. -/

open Sys2Proof Sys2Proof.Machine

/-! ### Encoding -/

/-- Words written out from R45, R49 and the examples of R53 and 95_test_vectors.md section 2.1. -/
def Obligations.SpecWordsDecode : Prop :=
  decode 0x00000000 = .ok .nop ∧ decode 0x00000801 = .ok (.rank 2) ∧ decode 0x00000002 = .ok (.isinv 0) ∧
  decode 0x00000103 = .ok (.inv 1 0) ∧ decode 0x00000104 = .ok (.pinv 1 0) ∧
  decode 0x00000605 = .ok (.mmul 2 1 0) ∧ decode 0x00003706 = .ok (.decode 3 1 3) ∧
  decode 0x00000207 = .ok (.reduce 2 0) ∧ decode 0x00001208 = .ok (.madd 2 0 1) ∧
  decode 0x00000409 = .ok (.weight 1) ∧
  decode 0x0000000A = .error .unassignedOpcode ∧ decode 0x0000001F = .error .unassignedOpcode ∧
  decode 0x00000020 = .error .reservedBits ∧ decode 0x00000101 = .error .unusedOperand ∧
  decode 0x00001003 = .error .unusedOperand ∧ decode 0x80000006 = .error .reservedBits

/-- R49: a word selects exactly the row whose fixed bits it has, and its operands are its fields (R46). -/
def Obligations.WordSelectsItsOpcodeRow : Prop :=
  ∀ (w : Word) (i : Instr),
    decode w = .ok i ↔
      ∃ row ∈ opTable, w &&& row.mask = row.pattern ∧
        i = row.build (bufOf (w.extractLsb' 8 2)) (bufOf (w.extractLsb' 10 2)) (bufOf (w.extractLsb' 12 2))

/-- R50, whole: which words are illegal, by its clauses and by its equivalent; that an illegal word is accepted (BUSY set, CMD
recording it) and completes with ILLEGAL, no buffer read or written. -/
def Obligations.IllegalWordsAreRejectedAndReported : Prop :=
  ∀ w : Word,
    ((∃ e, decode w = .error e) ↔
      0x0A ≤ (w.extractLsb' 0 5).toNat ∨ w.extractLsb' 5 3 ≠ 0 ∨ w.extractLsb' 14 18 ≠ 0 ∨
        ((w.extractLsb' 0 5).toNat ∈ [0x00, 0x01, 0x02, 0x09] ∧ w.extractLsb' 8 2 ≠ 0) ∨
        ((w.extractLsb' 0 5).toNat = 0x00 ∧ w.extractLsb' 10 2 ≠ 0) ∨
        ((w.extractLsb' 0 5).toNat ∈ [0x00, 0x01, 0x02, 0x03, 0x04, 0x07, 0x09] ∧ w.extractLsb' 12 2 ≠ 0)) ∧
    ((∃ e, decode w = .error e) ↔ ∀ row ∈ opTable, w &&& row.mask ≠ row.pattern) ∧
    ((∃ e, decode w = .error e) →
      (∀ s : State, s.phase = .idle → (s.hostWrite 0x010 w).busy = true ∧ (s.hostWrite 0x010 w).cmdLast = w) ∧
      ∀ s : State, s.phase = .busy w 0 → step s = .next (s.failed .illegal))

/-- R45, R46, R53: the encoder and the decoder agree in both directions: every instruction comes back from its word with every
operand at every value, and a legal word is the encoding of what it decodes to. -/
def Obligations.DecodeEncodeAgree : Prop :=
  (∀ i : Instr, i.wellFormed = true → decode (encode i) = .ok i) ∧
    ∀ (w : Word) (i : Instr), decode w = .ok i → encode i = w

/-- R45, R46: the fields of a word stand where format C puts them, and an instruction's word has its fields (R49, R53). -/
def Obligations.FieldsStandWhereFormatCPutsThem : Prop :=
  (∀ w : Word,
    w.toNat = (formatOf w).op.toNat + (formatOf w).rsv.toNat * 2 ^ 5 + (formatOf w).rd.toNat * 2 ^ 8 +
      (formatOf w).rs1.toNat * 2 ^ 10 + (formatOf w).rs2.toNat * 2 ^ 12 + (formatOf w).hi.toNat * 2 ^ 14) ∧
    (∀ f : FormatC, formatOf f.toWord = f) ∧
    ∀ i : Instr, formatOf (encode i) = i.format

/-- R53, R54: a line as R53 writes it assembles to its command; case, blanks and a comment do not matter, and the two
pseudo-instructions stand for their expansions. -/
def Obligations.AssemblerReadsTheSyntax : Prop :=
  (∀ i : Instr, assembleLine (assembly i) = some i) ∧
    assembleLine "INV m1, m0".toList = some (.inv 1 0) ∧
    assembleLine "  decode m3,m1 , m3  ; rs1 = generator".toList = some (.decode 3 1 3) ∧
    (∀ rd rs1, Instr.mov rd rs1 = .reduce rd rs1 ∧ Instr.transpose rd rs1 = .pinv rd rs1) ∧
    assembleLine "MOV m2, m0".toList = some (.reduce 2 0) ∧
    assembleLine "TRANSPOSE m1, m0".toList = some (.pinv 1 0)

/-! ### The step and the life of a command -/

/-- A step runs the decoded command: with a command due, the step is `exec` of what its word decodes to and nothing else; before
that, and when the engine is idle, the step is the host's turn. -/
def Obligations.StepRunsDecodedCommand : Prop :=
  (∀ (s : State) (w : Word) (i : Instr), s.phase = .busy w 0 → decode w = .ok i → step s = exec i s) ∧
    (∀ (s : State) (i : Instr),
      step (s.withFetchWord 32 (encode i).toNat) = exec i (s.withFetchWord 32 (encode i).toNat)) ∧
    (∀ s : State, s.phase = .idle → step s = hostTurn s) ∧
    ∀ (s : State) (w : Word) (n : Nat), s.phase = .busy w (n + 1) → step s = hostTurn { s with phase := .busy w n }

/-- R58, whole: acceptance, in one step, of any word written to CMD while Idle; what it sets, that it changes nothing else of the
engine, that RESULT and DCOUNT read as free values until completion, and that a busy engine does not accept. (The model's own
counter `fresh` aside; how long the command will take is free, R62.) -/
def Obligations.CommandWriteIsAccepted : Prop :=
  ∀ (s : State) (w : Word),
    (s.phase = .idle →
      ∃ t, s.hostWrite 0x010 w = t ∧ (∃ n, t.phase = .busy w n) ∧ t.busy = true ∧
        t = { s with
          phase := t.phase
          done := false
          err := false
          errcode := .none
          cmdLast := w
          fresh := t.fresh } ∧
        ∀ rest, s.host = .write 0x010 4 w :: rest → step s = .next { t with host := rest }) ∧
    ∀ (v : Word) (n : Nat), s.phase = .busy v n →
      s.hostWrite 0x010 w = { s with wob := true } ∧
        s.readValue 0x014 = Config.freeRead s.fresh ∧ s.readValue 0x018 = Config.freeRead s.fresh

/-- R64, R44, R28: an accepted command completes when its latency is over, whatever the host does meanwhile short of a reset (or of
leaving the interface), on the operands it was accepted with. -/
def Obligations.AcceptedCommandCompletes : Prop :=
  ∀ (s : State) (w : Word) (n : Nat), s.phase = .busy w n → (∀ e ∈ s.host.take n, LetsCommandRun e) →
    ∃ u t, runFor n s = .next u ∧ u.phase = .busy w 0 ∧ u.mem = s.mem ∧ u.shape = s.shape ∧ u.params = s.params ∧
      runCommand w u = .next t ∧ runFor (n + 1) s = .next t ∧ t.phase = .idle ∧ t.done = true

/-- R23: what CMD reads is the last accepted word, whether or not that command failed, 0 after a reset; no completion changes it,
and no step does but one in which the idle engine accepts a word, a soft reset or a hard reset. -/
def Obligations.CmdReadsLastAcceptedWord : Prop :=
  (∀ s : State, s.readValue 0x010 = s.cmdLast) ∧
    (∀ (s : State) (w : Word), s.phase = .idle → (s.hostWrite 0x010 w).readValue 0x010 = w) ∧
    (∀ (s : State) (w v : Word) (n : Nat), s.phase = .busy v n → (s.hostWrite 0x010 w).readValue 0x010 = s.readValue 0x010) ∧
    (∀ (w : Word) (s t : State), runCommand w s = .next t → t.readValue 0x010 = s.readValue 0x010) ∧
    (∀ s : State, s.softReset.readValue 0x010 = 0 ∧ s.hardReset.readValue 0x010 = 0) ∧
    State.reset.readValue 0x010 = 0 ∧
    ∀ s t : State, step s = .next t → t.readValue 0x010 ≠ s.readValue 0x010 →
      (s.phase = .idle ∧ ∃ rest, s.host = .write 0x010 4 (t.readValue 0x010) :: rest) ∨
        (∃ v rest, v.getLsbD 1 = true ∧ s.host = .write 0x008 4 v :: rest) ∨ ∃ rest, s.host = .hardReset :: rest

/-- The engine itself never stops (R64, R87): a step has no next state only where the host's next access is not a 32-bit access at a
multiple of 4, which a model refuses (R34). -/
def Obligations.OnlyUndefinedAccessesStopTheMachine : Prop :=
  ∀ s : State,
    (∃ t, step s = .next t) ∨
      (step s = .refused .accessOutsideInterface ∧ (∀ w, s.phase ≠ .busy w 0) ∧
        ∃ off size rest, (s.host = .read off size :: rest ∨ ∃ v, s.host = .write off size v :: rest) ∧
          ¬ (size = 4 ∧ off.toNat % 4 = 0))

/-- R34, R40: the one access the interface defines is performed in the step whose turn it is, whether the engine is idle or busy
with turns left (one of which the step uses, log entry 4); any other access is refused, by the same test. -/
def Obligations.OnlyAlignedWordAccessesArePerformed : Prop :=
  ∀ (s u : State) (off : Offset) (size : Nat) (v : Word) (rest : List HostEvent),
    (s.phase = .idle ∧ u = { s with host := rest }) ∨
      (∃ w n, s.phase = .busy w (n + 1) ∧ u = { s with phase := .busy w n, host := rest }) →
    (s.host = .read off size :: rest →
      step s = if size = 4 ∧ off.toNat % 4 = 0 then .next (u.hostRead off) else .refused .accessOutsideInterface) ∧
    (s.host = .write off size v :: rest →
      step s = if size = 4 ∧ off.toNat % 4 = 0 then .next (u.hostWrite off v) else .refused .accessOutsideInterface)

/-- R55, R41: WAIT reads STATUS until DONE is 1; the status it ends on is the word the host gets. While the engine is busy with
turns left, each turn of a WAIT uses one of them (log entries 4 and 14) and leaves it pending while DONE is 0. -/
def Obligations.WaitEndsOnDone : Prop :=
  ∀ (s u : State) (rest : List HostEvent), s.host = .wait :: rest →
    (s.phase = .idle ∧ u = s) ∨ (∃ w n, s.phase = .busy w (n + 1) ∧ u = { s with phase := .busy w n }) →
    (s.done = true → step s = .next { u with host := rest, replies := s.statusWord :: s.replies } ∧
      (s.statusWord).getLsbD 1 = true) ∧
    (s.done = false → step s = .next u ∧ u.host = .wait :: rest ∧ (s.statusWord).getLsbD 1 = false)

/-! ### Registers -/

/-- R18, whole: ID reads its constant at all times, a write to it is ignored, and it reads that after reset. -/
def Obligations.IdReadsItsConstant : Prop :=
  (∀ s : State, s.readValue 0x000 = 0x47463244) ∧ (∀ (s : State) (v : Word), s.hostWrite 0x000 v = s) ∧
    State.reset.readValue 0x000 = 0x47463244

/-- R19, R6: the fields of PARAM are the parameters; a write is ignored; no step changes them; the default word. -/
def Obligations.ParamReportsTheParameters : Prop :=
  (∀ s : State, s.params.legal →
    ((s.readValue 0x004).extractLsb' 0 8).toNat = s.params.rmax ∧
    ((s.readValue 0x004).extractLsb' 8 8).toNat = s.params.cmax ∧
    ((s.readValue 0x004).extractLsb' 16 5).toNat = s.params.kmax ∧
    (s.readValue 0x004).extractLsb' 21 3 = 0 ∧ (s.readValue 0x004).extractLsb' 24 3 = 4 ∧
    ((s.readValue 0x004).getLsbD 27 = true ↔ s.params.order = .lexLsbFirst) ∧
    (s.readValue 0x004).extractLsb' 28 4 = 0) ∧
  (∀ (s : State) (v : Word), s.hostWrite 0x004 v = s) ∧
  (∀ s t : State, step s = .next t → t.params = s.params ∧ t.readValue 0x004 = s.readValue 0x004) ∧
  State.reset.readValue 0x004 = 0x04144040

/-- R20: CTRL reads IRQ_EN in bit 0 and 0 elsewhere; a write without SRST sets IRQ_EN from bit 0 and nothing else, in every phase;
one with SRST clears IRQ_EN whatever bit 0 is. -/
def Obligations.CtrlHoldsIrqEnable : Prop :=
  ∀ (s : State) (v : Word),
    (s.readValue 0x008 = if s.irqEn then 1 else 0) ∧
    (v.getLsbD 1 = false → s.hostWrite 0x008 v = { s with irqEn := v.getLsbD 0 }) ∧
    (v.getLsbD 1 = true → (s.hostWrite 0x008 v).irqEn = false) ∧
    State.reset.readValue 0x008 = 0

/-- R21: the bits of STATUS; a write, in every phase, clears the W1C bits written as 1 and changes nothing else, ERRCODE included. -/
def Obligations.StatusBitsAndWriteOneToClear : Prop :=
  ∀ (s : State) (v : Word),
    (((s.readValue 0x00C).getLsbD 0 = true ↔ ∃ w n, s.phase = .busy w n) ∧
      (s.readValue 0x00C).getLsbD 1 = s.done ∧ (s.readValue 0x00C).getLsbD 2 = s.err ∧
      (s.readValue 0x00C).getLsbD 3 = s.wob ∧ (s.readValue 0x00C).extractLsb' 4 4 = 0 ∧
      (s.readValue 0x00C).extractLsb' 8 4 = s.errcode.toBits ∧ (s.readValue 0x00C).extractLsb' 12 20 = 0) ∧
    s.hostWrite 0x00C v =
      { s with
        done := s.done && !v.getLsbD 1
        err := s.err && !v.getLsbD 2
        wob := s.wob && !v.getLsbD 3 } ∧
    State.reset.readValue 0x00C = 0

/-- R12, R13: a SHAPE write while idle stores its two fields exactly as written, in range or not, ignores the other bits and changes
nothing else; SHAPE_i then reads those fields, and the other SHAPEs read as before. -/
def Obligations.ShapeWriteStoresItsFields : Prop :=
  ∀ (s : State) (i : Buf) (v : Word), s.phase = .idle →
    ∃ t, s.hostWrite (BitVec.ofNat 16 (0x020 + 4 * i.val)) v = t ∧ t = { s with shape := t.shape } ∧
      t.rowsOf i = v.toNat % 256 ∧ t.colsOf i = v.toNat / 65536 % 256 ∧
      t.readValue (BitVec.ofNat 16 (0x020 + 4 * i.val)) = v &&& 0x00FF00FF ∧
      ∀ j, j ≠ i → t.readValue (BitVec.ofNat 16 (0x020 + 4 * j.val)) = s.readValue (BitVec.ofNat 16 (0x020 + 4 * j.val))

/-- R26: the reserved offsets of R17 (0x01C, 0x030 to 0x1FFF, 0xA000 to 0xFFFF) read as 0 and ignore writes in every state, and so do
the reserved bits of CTRL, STATUS, SHAPE and PARAM. So does, by R31 and V2 of 93_implementation_defined.md, the part of a window
beyond its `RMAX·WPR` words; that it does so while the engine is busy too is the model's reading of R98 and R99 (log entry 9). -/
def Obligations.ReservedReadsZeroAndIgnoresWrites : Prop :=
  (∀ (s : State) (off : Offset) (v : Word), s.params.legal → off.toNat % 4 = 0 →
    (off.toNat = 0x01C ∨ (0x030 ≤ off.toNat ∧ off.toNat ≤ 0x1FFF) ∨ 0xA000 ≤ off.toNat ∨
      ((0x2000 ≤ off.toNat ∧ off.toNat ≤ 0x9FFF) ∧ ∀ i, ¬ InStorage s.params i off.toNat)) →
    s.readValue off = 0 ∧ s.hostWrite off v = s) ∧
  (∀ (s : State) (v : Word),
    s.readValue 0x008 &&& 0xFFFFFFFC = 0 ∧ s.hostWrite 0x008 v = s.hostWrite 0x008 (v &&& 0x00000003) ∧
    s.readValue 0x00C &&& 0xFFFFF0F0 = 0 ∧ s.hostWrite 0x00C v = s.hostWrite 0x00C (v &&& 0x0000000F) ∧
    s.readValue 0x004 &&& 0xF0E00000 = 0) ∧
  ∀ (s : State) (i : Buf) (v : Word),
    s.readValue (BitVec.ofNat 16 (0x020 + 4 * i.val)) &&& 0xFF00FF00 = 0 ∧
      s.hostWrite (BitVec.ofNat 16 (0x020 + 4 * i.val)) v =
        s.hostWrite (BitVec.ofNat 16 (0x020 + 4 * i.val)) (v &&& 0x00FF00FF)

/-- R86: IRQ is IRQ_EN and DONE. It rises with a completion while enabled, and each of the four events the rule names clears it. -/
def Obligations.InterruptOutputFollowsDone : Prop :=
  (∀ s : State, s.irq = true ↔ s.irqEn = true ∧ s.done = true) ∧
    (∀ (s t : State) (w : Word), runCommand w s = .next t → t.irq = s.irqEn) ∧
    (∀ (s : State) (v : Word), v.getLsbD 1 = true → (s.hostWrite 0x00C v).irq = false) ∧
    (∀ (s : State) (v : Word), v.getLsbD 0 = false → (s.hostWrite 0x008 v).irq = false) ∧
    (∀ (s : State) (w : Word), s.phase = .idle → (s.hostWrite 0x010 w).irq = false) ∧
    ∀ s : State, s.softReset.irq = false ∧ s.hardReset.irq = false

/-- R36: a read changes nothing of the engine (only the model's record of what the host got and its counter of free values), and
reads are idempotent while the engine is idle. -/
def Obligations.ReadsHaveNoSideEffects : Prop :=
  ∀ (s : State) (off : Offset),
    s.hostRead off = { s with replies := s.readValue off :: s.replies, fresh := s.fresh + 1 } ∧
      (s.phase = .idle → ∀ off', (s.hostRead off).readValue off' = s.readValue off')

/-! ### Windows, busy hazards and resets -/

/-- R33 with R31 and R32: while idle a write at `WADDR(i, r, w)` sets the 32 storage bits of that word and changes nothing else; the
word reads back, and a read gives the storage bits whatever the shape. While busy the write is dropped with WOB. -/
def Obligations.WindowWriteSetsItsWord : Prop :=
  ∀ (s : State) (i : Buf) (r w : Nat) (v : Word), s.params.legal → r < s.params.rmax → w < s.params.wpr →
    (s.phase = .idle →
      ∃ t, s.hostWrite (BitVec.ofNat 16 (0x2000 + 0x2000 * i.val + 4 * (r * s.params.wpr + w))) v = t ∧
        t = { s with mem := t.mem } ∧
        t.readValue (BitVec.ofNat 16 (0x2000 + 0x2000 * i.val + 4 * (r * s.params.wpr + w))) = v ∧
        (∀ j < 32, t.storeBit i r (32 * w + j) = v.getLsbD j ∧ t.bitSpecified i r (32 * w + j) = true) ∧
        (∀ j < 32, (s.readValue (BitVec.ofNat 16 (0x2000 + 0x2000 * i.val + 4 * (r * s.params.wpr + w)))).getLsbD j =
          s.storeBit i r (32 * w + j)) ∧
        ∀ i' r' c', r' < s.params.rmax → c' < s.params.cmax → ¬ (i' = i ∧ r' = r ∧ c' / 32 = w) →
          t.storeBit i' r' c' = s.storeBit i' r' c' ∧ t.bitSpecified i' r' c' = s.bitSpecified i' r' c') ∧
    ∀ (u : Word) (n : Nat), s.phase = .busy u n →
      s.hostWrite (BitVec.ofNat 16 (0x2000 + 0x2000 * i.val + 4 * (r * s.params.wpr + w))) v = { s with wob := true }

/-- R98: while busy, a write to CMD, a SHAPE or a window's storage is dropped with WOB; CTRL and STATUS writes are performed as
always; writes to RO registers and reserved offsets are ignored without WOB, among them, by R31, V2 and the model's reading
(log entry 9), those to the part of a window beyond its storage; so neither the operands nor the word of a busy command
change under it: until it completes or a soft reset aborts it, it stays the same word (a hard reset, which is no write, aside). -/
def Obligations.BusyEngineDropsWrites : Prop :=
  (∀ (s : State) (u : Word) (n : Nat) (off : Offset) (v : Word), s.params.legal → s.phase = .busy u n → off.toNat % 4 = 0 →
    (off = 0x010 ∨ off = 0x020 ∨ off = 0x024 ∨ off = 0x028 ∨ off = 0x02C ∨ ∃ i, InStorage s.params i off.toNat) →
    s.hostWrite off v = { s with wob := true }) ∧
  (∀ (s : State) (v : Word),
    (s.hostWrite 0x008 v = if v.getLsbD 1 then s.softReset else { s with irqEn := v.getLsbD 0 }) ∧
    s.hostWrite 0x00C v =
      { s with
        done := s.done && !v.getLsbD 1
        err := s.err && !v.getLsbD 2
        wob := s.wob && !v.getLsbD 3 }) ∧
  (∀ (s : State) (off : Offset) (v : Word), s.params.legal → off.toNat % 4 = 0 →
    (off = 0x000 ∨ off = 0x004 ∨ off = 0x014 ∨ off = 0x018 ∨ off = 0x01C ∨ (0x030 ≤ off.toNat ∧ off.toNat ≤ 0x1FFF) ∨
      0xA000 ≤ off.toNat ∨ ((0x2000 ≤ off.toNat ∧ off.toNat ≤ 0x9FFF) ∧ ∀ i, ¬ InStorage s.params i off.toNat)) →
    s.hostWrite off v = s) ∧
  ∀ (s t : State) (w : Word) (n : Nat), s.phase = .busy w (n + 1) → step s = .next t → s.host.head? ≠ some .hardReset →
    t.mem = s.mem ∧ t.shape = s.shape ∧ ((∃ m, t.phase = .busy w m) ∨ (t.phase = .idle ∧ t.done = false ∧ t.cmdLast = 0))

/-- R99: while busy, a read of a window's storage, RESULT or DCOUNT returns a value the model leaves free, a new one each time; ID,
PARAM, CTRL, STATUS, CMD and the SHAPEs return their defined values. (The rest of a window reads 0: log entry 9.) -/
def Obligations.BusyReadsAreUnspecified : Prop :=
  ∀ (s : State) (u : Word) (n : Nat), s.params.legal → s.phase = .busy u n →
    (∀ off : Offset, off.toNat % 4 = 0 → (off = 0x014 ∨ off = 0x018 ∨ ∃ i, InStorage s.params i off.toNat) →
      s.readValue off = Config.freeRead s.fresh ∧ (s.hostRead off).fresh = s.fresh + 1) ∧
    s.readValue 0x000 = 0x47463244 ∧ s.readValue 0x004 = paramWord s.params ∧
    s.readValue 0x008 = (if s.irqEn then 1 else 0) ∧ s.readValue 0x00C = s.statusWord ∧ s.readValue 0x010 = s.cmdLast ∧
    ∀ i : Buf, ((s.readValue (BitVec.ofNat 16 (0x020 + 4 * i.val))).extractLsb' 0 8).toNat = s.rowsOf i ∧
      ((s.readValue (BitVec.ofNat 16 (0x020 + 4 * i.val))).extractLsb' 16 8).toNat = s.colsOf i

/-- R95, whole: a write to CTRL with bit 1 set, in any phase, resets CTRL, STATUS, CMD, RESULT and DCOUNT to R94's values and the
phase to Idle, and changes no buffer and no SHAPE; the command that was executing is not committed and DONE stays 0. -/
def Obligations.SoftResetAborts : Prop :=
  ∀ (s : State) (v : Word), v.getLsbD 1 = true →
    ∃ t, s.hostWrite 0x008 v = t ∧
      t = { s with
        irqEn := false
        done := false
        err := false
        wob := false
        errcode := .none
        cmdLast := 0
        result := 0
        dcount := 0
        phase := .idle } ∧
      t.readValue 0x008 = 0 ∧ t.readValue 0x00C = 0 ∧ t.readValue 0x010 = 0 ∧ t.readValue 0x014 = 0 ∧
      t.readValue 0x018 = 0 ∧ t.mem = s.mem ∧ t.shape = s.shape ∧
      (∀ rest, s.host = .write 0x008 4 v :: rest → (∀ w, s.phase ≠ .busy w 0) →
        step s = .next { t with host := rest })

/-- R94, whole: after a hard reset, whatever the state before it, every register reads as the table says, the phase is Idle, IRQ is
0 and every storage bit of every buffer is UNSPECIFIED, so that what was executing is lost; and the step in which the reset
input comes is that reset. (A completion that is due at the same step comes first, by the model's choice: log entry 13.) -/
def Obligations.HardResetGivesTheTable : Prop :=
  ∀ s : State,
    (s.hardReset.params = s.params ∧ s.hardReset.phase = .idle ∧ s.hardReset.irq = false ∧
      (∀ i r c, s.hardReset.bitSpecified i r c = false) ∧
      s.hardReset.readValue 0x020 = 0 ∧ s.hardReset.readValue 0x024 = 0 ∧ s.hardReset.readValue 0x028 = 0 ∧
      s.hardReset.readValue 0x02C = 0 ∧ s.hardReset.readValue 0x000 = 0x47463244 ∧
      s.hardReset.readValue 0x004 = s.readValue 0x004 ∧ s.hardReset.readValue 0x008 = 0 ∧
      s.hardReset.readValue 0x00C = 0 ∧ s.hardReset.readValue 0x010 = 0 ∧ s.hardReset.readValue 0x014 = 0 ∧
      s.hardReset.readValue 0x018 = 0) ∧
    ∀ rest, s.host = .hardReset :: rest → (∀ w, s.phase ≠ .busy w 0) →
      step s = .next { s.hardReset with host := rest }

/-- R94 at power-on: what the machine's own reset state reads as, at the default parameters. -/
def Obligations.ResetStateGivesTheTable : Prop :=
  State.reset.phase = .idle ∧ State.reset.irq = false ∧ (∀ i r c, State.reset.bitSpecified i r c = false) ∧
    State.reset.readValue 0x000 = 0x47463244 ∧ State.reset.readValue 0x004 = 0x04144040 ∧
    State.reset.readValue 0x008 = 0 ∧ State.reset.readValue 0x00C = 0 ∧ State.reset.readValue 0x010 = 0 ∧
    State.reset.readValue 0x014 = 0 ∧ State.reset.readValue 0x018 = 0 ∧ State.reset.readValue 0x020 = 0 ∧
    State.reset.readValue 0x024 = 0 ∧ State.reset.readValue 0x028 = 0 ∧ State.reset.readValue 0x02C = 0

/-- R55: LOADM of an r×c matrix into a buffer of an idle engine, one step an access, leaves that matrix in the buffer: every bit of
the words it writes, those beyond column c in a row's last word too (R33), is written and holds its word's bit; every other bit
of the buffer, everything outside the buffer and the rest of the state are as they were (R14). A list of words too short counts
as followed by words 0 (the model's choice, log entry 22). -/
def Obligations.LoadmLoadsTheMatrix : Prop :=
  ∀ (s : State) (i : Buf) (r c : Nat) (ws : List Word) (rest : List HostEvent),
    s.params.legal → s.phase = .idle → r ≤ s.params.rmax → c ≤ s.params.cmax →
    s.host = loadm s.params i r c ws ++ rest →
    ∃ t, runFor (1 + r * ((c + 31) / 32)) s = .next t ∧ t = { s with mem := t.mem, shape := t.shape, host := rest } ∧
      t.rowsOf i = r ∧ t.colsOf i = c ∧ t.Ready i ∧ KeptOutside s t i ∧
      ∀ rr < s.params.rmax, ∀ cc < s.params.cmax,
        if rr < r ∧ cc / 32 < (c + 31) / 32 then
          t.storeBit i rr cc = (ws.getD (rr * ((c + 31) / 32) + cc / 32) 0).getLsbD (cc % 32) ∧ t.bitSpecified i rr cc = true
        else t.storeBit i rr cc = s.storeBit i rr cc ∧ t.bitSpecified i rr cc = s.bitSpecified i rr cc

/-! ### Each command completes, with its result -/

/-- R65: NOP completes from every state; RESULT and DCOUNT are 0, no buffer changes, and STATUS reads DONE alone where ERR and WOB
were clear. -/
def Obligations.NopCompletes : Prop :=
  ∀ s : State, ∃ t, exec .nop s = .next t ∧ Succeeded s t 0 0 ∧ BuffersKept s t ∧
    (s.err = false → s.wob = false → t.statusWord = 0x00000002)

/-- R67, R63: REDUCE completes with a copy of the source in RD, shape included, the storage outside the shape 0. -/
def Obligations.ReduceCopiesTheMatrix : Prop :=
  ∀ (s : State) (rd rs1 : Buf), s.params.legal → s.Ready rs1 →
    ∃ t, exec (.reduce rd rs1) s = .next t ∧ Succeeded s t 0 0 ∧ KeptOutside s t rd ∧
      t.Holds rd (s.rowsOf rs1) (s.colsOf rs1) (s.storeBit rs1)

/-- R68, R66: RANK completes with the number of pivots the elimination finds over all columns, at most the rows and at most the
columns, and writes no buffer. -/
def Obligations.RankCompletesWithPivotCount : Prop :=
  ∀ (s : State) (rs1 : Buf), s.Ready rs1 →
    ∃ t p, exec (.rank rs1) s = .next t ∧ p = (elim (s.matrix rs1) (s.colsOf rs1)).2 ∧
      Succeeded s t (BitVec.ofNat 32 p) 0 ∧ BuffersKept s t ∧ p ≤ s.rowsOf rs1 ∧ p ≤ s.colsOf rs1 ∧ t.result.toNat = p

/-- R68 read with the Glossary's rank and 93_implementation_defined.md G1: the RESULT of RANK is the rank of the matrix over the
field of two elements. -/
def Obligations.RankIsTheMatrixRank : Prop :=
  ∀ (s : State) (rs1 : Buf), s.Ready rs1 →
    ∃ t, exec (.rank rs1) s = .next t ∧ Succeeded s t t.result 0 ∧ BuffersKept s t ∧
      t.result.toNat = (s.overGF2 rs1).rank

/-- Matrix b of a state has an inverse from the left of its own size. -/
def HasInverse (s : State) (b : Buf) : Prop :=
  ∃ B : Mat, B.rows = s.rowsOf b ∧ B.cols = s.rowsOf b ∧ B.mul (s.matrix b) = Mat.identity (s.rowsOf b)

/-- R69: on a square matrix ISINV completes without error, RESULT 1 or 0 as the pivots do or do not reach the dimension. -/
def Obligations.IsinvCompletesOnSquare : Prop :=
  ∀ (s : State) (rs1 : Buf), s.Ready rs1 → s.rowsOf rs1 = s.colsOf rs1 →
    ∃ t, exec (.isinv rs1) s = .next t ∧ BuffersKept s t ∧
      Succeeded s t (if (elim (s.matrix rs1) (s.rowsOf rs1)).2 = s.rowsOf rs1 then 1 else 0) 0

/-- R69 with R70 and G1: ISINV's RESULT is 1 exactly on the matrices that have an inverse. -/
def Obligations.IsinvDecidesInvertibility : Prop :=
  ∀ (s : State) (rs1 : Buf), s.Ready rs1 → s.rowsOf rs1 = s.colsOf rs1 →
    ∃ t, exec (.isinv rs1) s = .next t ∧ (HasInverse s rs1 → t.result = 1) ∧ (¬ HasInverse s rs1 → t.result = 0)

/-- R70: INV on a matrix that has an inverse completes with the two-sided inverse in RD (`B · A = A · B = I_r`), and on a matrix that
has none it fails with SINGULAR, no buffer written. -/
def Obligations.InvReturnsTheInverseOrSingular : Prop :=
  ∀ (s : State) (rd rs1 : Buf), s.params.legal → s.Ready rs1 → s.rowsOf rs1 = s.colsOf rs1 →
    (HasInverse s rs1 →
      ∃ t B, exec (.inv rd rs1) s = .next t ∧ Succeeded s t 0 0 ∧ KeptOutside s t rd ∧
        t.Holds rd (s.rowsOf rs1) (s.rowsOf rs1) B.get ∧ B.rows = s.rowsOf rs1 ∧ B.cols = s.rowsOf rs1 ∧
        B.mul (s.matrix rs1) = Mat.identity (s.rowsOf rs1) ∧ (s.matrix rs1).mul B = Mat.identity (s.rowsOf rs1)) ∧
    (¬ HasInverse s rs1 → exec (.inv rd rs1) s = .next (s.failed .singular))

/-- R70's corner case: the left block reduces to the identity exactly when every column has a pivot, so INV succeeds exactly where
ISINV answers 1. -/
def Obligations.InvSucceedsWhereIsinvAnswersOne : Prop :=
  ∀ (s : State) (rd rs1 : Buf), s.Ready rs1 → s.rowsOf rs1 = s.colsOf rs1 →
    ∃ t u, exec (.isinv rs1) s = .next t ∧ exec (.inv rd rs1) s = .next u ∧
      (t.result = 1 ↔ u.errcode = .none) ∧ (t.result = 0 ↔ u.errcode = .singular)

/-- R71: PINV completes with the transpose in RD, whatever the matrix, where the transposed shape fits a buffer. -/
def Obligations.PinvTransposes : Prop :=
  ∀ (s : State) (rd rs1 : Buf), s.params.legal → s.Ready rs1 →
    s.colsOf rs1 ≤ s.params.rmax → s.rowsOf rs1 ≤ s.params.cmax →
    ∃ t, exec (.pinv rd rs1) s = .next t ∧ Succeeded s t 0 0 ∧ KeptOutside s t rd ∧
      t.Holds rd (s.colsOf rs1) (s.rowsOf rs1) (fun i j => s.storeBit rs1 j i)

/-- R71's property of permutation matrices (exactly one 1 per row and column): PINV, then MMUL of the result with the matrix, gives
the identity. -/
def Obligations.PinvInvertsPermutations : Prop :=
  ∀ (s : State) (rd rd' rs1 : Buf) (n : Nat), s.params.legal → s.Ready rs1 → rd ≠ rs1 →
    s.rowsOf rs1 = n → s.colsOf rs1 = n →
    (∀ i < n, countOnes n (fun j => s.storeBit rs1 i j) = 1) →
    (∀ j < n, countOnes n (fun i => s.storeBit rs1 i j) = 1) →
    ∃ t u, exec (.pinv rd rs1) s = .next t ∧ exec (.mmul rd' rd rs1) t = .next u ∧
      u.errcode = .none ∧ u.Holds rd' n n (fun i j => i == j)

/-- R75, R73: MMUL completes with the product in RD: each entry the XOR of the ANDs along a row and a column. -/
def Obligations.MmulComputesTheProduct : Prop :=
  ∀ (s : State) (rd rs1 rs2 : Buf), s.params.legal → s.Ready rs1 → s.Ready rs2 → s.colsOf rs1 = s.rowsOf rs2 →
    ∃ t, exec (.mmul rd rs1 rs2) s = .next t ∧ Succeeded s t 0 0 ∧ KeptOutside s t rd ∧
      t.Holds rd (s.rowsOf rs1) (s.colsOf rs2)
        (fun i j => xorSum (s.colsOf rs1) fun l => s.storeBit rs1 i l && s.storeBit rs2 l j)

/-- R76: MADD completes with the entrywise XOR in RD. -/
def Obligations.MaddAddsEntrywise : Prop :=
  ∀ (s : State) (rd rs1 rs2 : Buf), s.params.legal → s.Ready rs1 → s.Ready rs2 →
    s.rowsOf rs1 = s.rowsOf rs2 → s.colsOf rs1 = s.colsOf rs2 →
    ∃ t, exec (.madd rd rs1 rs2) s = .next t ∧ Succeeded s t 0 0 ∧ KeptOutside s t rd ∧
      t.Holds rd (s.rowsOf rs1) (s.colsOf rs1) (fun i j => s.storeBit rs1 i j ^^ s.storeBit rs2 i j)

/-- R77, R74: WEIGHT completes with the number of 1 entries inside the shape, at most r·c, not wrapped; no buffer changes. -/
def Obligations.WeightCountsOnes : Prop :=
  ∀ (s : State) (rs1 : Buf), s.Ready rs1 →
    ∃ t n, exec (.weight rs1) s = .next t ∧ Succeeded s t (BitVec.ofNat 32 n) 0 ∧ BuffersKept s t ∧
      n = natSum (s.rowsOf rs1) (fun i => countOnes (s.colsOf rs1) (s.storeBit rs1 i)) ∧
      n ≤ s.rowsOf rs1 * s.colsOf rs1 ∧ t.result.toNat = n

/-- R72: the Hamming distance of two matrices is the weight of their sum: MADD, then WEIGHT of its result. -/
def Obligations.WeightOfSumIsHammingDistance : Prop :=
  ∀ (s : State) (rd rs1 rs2 : Buf), s.params.legal → s.Ready rs1 → s.Ready rs2 →
    s.rowsOf rs1 = s.rowsOf rs2 → s.colsOf rs1 = s.colsOf rs2 →
    ∃ t u, exec (.madd rd rs1 rs2) s = .next t ∧ exec (.weight rd) t = .next u ∧ u.errcode = .none ∧
      u.result.toNat = natSum (s.rowsOf rs1) fun i => countOnes (s.colsOf rs1) fun j => s.storeBit rs1 i j != s.storeBit rs2 i j

/-- R79, R78: DECODE completes with the first candidate in enumeration order at the least distance; RESULT is that distance, and
DCOUNT is its index plus one on an exact match and all 2^k otherwise. -/
def Obligations.DecodeFindsFirstNearestCodeword : Prop :=
  ∀ (s : State) (rd rs1 rs2 : Buf), s.params.legal → s.Ready rs1 → s.Ready rs2 →
    s.rowsOf rs2 = 1 → s.colsOf rs2 = s.colsOf rs1 → s.rowsOf rs1 ≤ s.params.kmax →
    ∃ t b, b < 2 ^ s.rowsOf rs1 ∧ exec (.decode rd rs1 rs2) s = .next t ∧ Succeeded s t t.result t.dcount ∧
      KeptOutside s t rd ∧
      t.Holds rd 1 (s.rowsOf rs1) (fun _ j => candidateBit s.params.order (s.rowsOf rs1) b j) ∧
      (∀ i < 2 ^ s.rowsOf rs1, s.distanceOf rs1 rs2 b ≤ s.distanceOf rs1 rs2 i) ∧
      (∀ i < b, s.distanceOf rs1 rs2 b < s.distanceOf rs1 rs2 i) ∧
      t.result.toNat = s.distanceOf rs1 rs2 b ∧
      t.dcount.toNat = if s.distanceOf rs1 rs2 b = 0 then b + 1 else 2 ^ s.rowsOf rs1

/-- R79's corner case: the all-zero received vector decodes to the all-zero message at distance 0 with one candidate evaluated, for
every generator and either enumeration order. -/
def Obligations.DecodeOfZeroVectorStopsAtOnce : Prop :=
  ∀ (s : State) (rd rs1 rs2 : Buf), s.params.legal → s.Ready rs1 → s.Ready rs2 →
    s.rowsOf rs2 = 1 → s.colsOf rs2 = s.colsOf rs1 → s.rowsOf rs1 ≤ s.params.kmax →
    (∀ j < s.colsOf rs2, s.storeBit rs2 0 j = false) →
    ∃ t, exec (.decode rd rs1 rs2) s = .next t ∧ Succeeded s t 0 1 ∧ KeptOutside s t rd ∧
      t.Holds rd 1 (s.rowsOf rs1) (fun _ _ => false)

/-! ### Errors, unspecified operands, frames -/

/-- R84: which error a legal command reports: the first check that fails gives the code, and then nothing but what R62 says of a
failure happens; a command that passes checks 2 to 5 completes without error, or, INV only, with SINGULAR. -/
def Obligations.FirstFailingCheckIsReported : Prop :=
  ∀ (i : Instr) (s : State),
    ((∃ b ∈ i.sources, s.outOfRange b) → exec i s = .next (s.failed .shapeRange)) ∧
    (∀ code, (∀ b ∈ i.sources, ¬ s.outOfRange b) → s.shapeFault i = some code → exec i s = .next (s.failed code)) ∧
    (∀ code, (∀ b ∈ i.sources, ¬ s.outOfRange b) → s.shapeFault i = none → s.limitFault i = some code →
      exec i s = .next (s.failed code)) ∧
    (s.PassesChecks i →
      ∃ t, exec i s = .next t ∧ (t.errcode = .none ∨ t.errcode = .singular ∧ ∃ rd rs1, i = .inv rd rs1))

/-- R83, with R101: the state after a failed command differs from the state before it only in STATUS, RESULT, DCOUNT (both 0) and the
phase; no buffer and no SHAPE is written. Where INV reports SINGULAR after reading unspecified storage, RESULT and DCOUNT are free
values instead, and that is all the difference. -/
def Obligations.FailuresArePrecise : Prop :=
  ∀ (i : Instr) (s t : State), exec i s = .next t → t.errcode ≠ .none →
    t = s.failed t.errcode ∨
      ((∃ rd rs1, i = .inv rd rs1 ∧ ¬ s.Ready rs1) ∧
        t = { s.failed .singular with
          result := Config.freeResult s.fresh
          dcount := Config.freeDcount s.fresh
          fresh := s.fresh + 1 })

/-- The shape a command's rule gives its destination (R67, R70, R71, R75, R76, R79). -/
def Sys2Proof.Machine.State.resultShape (s : State) : Instr → Nat × Nat
  | .reduce _ rs1 => (s.rowsOf rs1, s.colsOf rs1)
  | .inv _ rs1 => (s.rowsOf rs1, s.rowsOf rs1)
  | .pinv _ rs1 => (s.colsOf rs1, s.rowsOf rs1)
  | .mmul _ rs1 rs2 => (s.rowsOf rs1, s.colsOf rs2)
  | .madd _ rs1 _ => (s.rowsOf rs1, s.colsOf rs1)
  | .decode _ rs1 _ => (1, s.rowsOf rs1)
  | .nop => (0, 0)
  | .rank _ => (0, 0)
  | .isinv _ => (0, 0)
  | .weight _ => (0, 0)

/-- R101: a command that passes the shape checks and reads a storage bit UNSPECIFIED since hard reset completes all the same; RESULT,
DCOUNT and the destination's contents are values the model leaves free, the destination's shape is the one its rule gives, and
only INV may report an error, SINGULAR. -/
def Obligations.UnspecifiedOperandsStillComplete : Prop :=
  ∀ (i : Instr) (s : State), s.params.legal → s.PassesChecks i → (∃ b ∈ i.sources, ¬ s.Ready b) →
    ∃ t, exec i s = .next t ∧ t.done = true ∧ t.phase = .idle ∧
      t.result = Config.freeResult s.fresh ∧ t.dcount = Config.freeDcount s.fresh ∧ t.fresh = s.fresh + 1 ∧
      (t.errcode = .none ∨ (t.errcode = .singular ∧ ∃ rd rs1, i = .inv rd rs1)) ∧
      (t.errcode = .none → i.destination = none → BuffersKept s t) ∧
      (t.errcode = .singular → BuffersKept s t) ∧
      ∀ rd, i.destination = some rd → t.errcode = .none →
        KeptOutside s t rd ∧ t.Holds rd (s.resultShape i).1 (s.resultShape i).2 (Config.freeEntry s.fresh)

/-- The commands without a destination. -/
def ScalarCommand (i : Instr) : Prop := i = .nop ∨ ∃ rs1, i = .rank rs1 ∨ i = .isinv rs1 ∨ i = .weight rs1

/-- The frame of NOP, RANK, ISINV and WEIGHT, whatever they complete with: every byte of memory, every SHAPE, CTRL, WOB, CMD and the
parameters are unchanged. STATUS's DONE, ERR and ERRCODE, RESULT, DCOUNT and the phase are what completion writes (R62). -/
def Obligations.ScalarCommandsFrame : Prop :=
  ∀ (i : Instr) (s t : State), ScalarCommand i → exec i s = .next t →
    (∀ a, t.mem.read a = s.mem.read a ∧ t.storeByte a = s.storeByte a) ∧ (∀ b, t.shapeOf b = s.shapeOf b) ∧
      t.irqEn = s.irqEn ∧ t.wob = s.wob ∧ t.cmdLast = s.cmdLast ∧ t.params = s.params ∧ t.host = s.host ∧
      t.replies = s.replies ∧ t.epoch = s.epoch

/-- The commands with a destination, and which buffer it is. -/
def StoringCommand (i : Instr) (rd : Buf) : Prop :=
  (∃ rs1, i = .reduce rd rs1 ∨ i = .inv rd rs1 ∨ i = .pinv rd rs1) ∨
    ∃ rs1 rs2, i = .mmul rd rs1 rs2 ∨ i = .madd rd rs1 rs2 ∨ i = .decode rd rs1 rs2

/-- The frame of REDUCE, INV, PINV, MMUL, MADD and DECODE, whatever they complete with: every byte of memory outside the storage of
the buffer RD names, every other SHAPE, CTRL, WOB, CMD and the parameters are unchanged; and where the command fails, every byte
and every SHAPE is. -/
def Obligations.StoringCommandsFrame : Prop :=
  ∀ (i : Instr) (rd : Buf) (s t : State), StoringCommand i rd → exec i s = .next t →
    (∀ a, ¬ InStorage s.params rd a → t.mem.read a = s.mem.read a ∧ t.storeByte a = s.storeByte a) ∧
      (∀ b, b ≠ rd → t.shapeOf b = s.shapeOf b) ∧
      (t.errcode ≠ .none → ∀ a, t.mem.read a = s.mem.read a ∧ t.storeByte a = s.storeByte a) ∧
      (t.errcode ≠ .none → ∀ b, t.shapeOf b = s.shapeOf b) ∧
      t.irqEn = s.irqEn ∧ t.wob = s.wob ∧ t.cmdLast = s.cmdLast ∧ t.params = s.params ∧ t.host = s.host ∧
      t.replies = s.replies ∧ t.epoch = s.epoch

/-- R59, R61: what a command does to RESULT, DCOUNT, ERRCODE and its destination depends only on the parameters and on the source
buffers it names, unless it computes on bits UNSPECIFIED since hard reset (R101). -/
def Obligations.OnlyNamedBuffersMatter : Prop :=
  ∀ (i : Instr) (s s' t : State), s.params.legal → s'.params = s.params → (∀ b ∈ i.sources, SameOperand s s' b) →
    ((∀ b ∈ i.sources, s.Ready b) ∨ ¬ s.PassesChecks i) → exec i s = .next t →
    ∃ t', exec i s' = .next t' ∧ t'.result = t.result ∧ t'.dcount = t.dcount ∧ t'.errcode = t.errcode ∧
      ∀ rd, i.destination = some rd → t.errcode = .none →
        t'.shapeOf rd = t.shapeOf rd ∧
          ∀ r < s.params.rmax, ∀ c < s.params.cmax, t'.storeBit rd r c = t.storeBit rd r c

/-- R60: RD may be a source, and both sources one buffer: the next state is the one the command reaches from separate copies of its
sources, buffers that hold the same matrices. -/
def Obligations.AliasedOperandsActAsCopies : Prop :=
  ∀ (s : State) (rd rs1 rs2 a b : Buf), s.Ready rs1 → s.Ready rs2 → s.Ready a → s.Ready b →
    s.matrix a = s.matrix rs1 → s.matrix b = s.matrix rs2 →
    exec (.reduce rd rs1) s = exec (.reduce rd a) s ∧ exec (.inv rd rs1) s = exec (.inv rd a) s ∧
      exec (.pinv rd rs1) s = exec (.pinv rd a) s ∧ exec (.mmul rd rs1 rs2) s = exec (.mmul rd a b) s ∧
      exec (.madd rd rs1 rs2) s = exec (.madd rd a b) s ∧ exec (.decode rd rs1 rs2) s = exec (.decode rd a b) s

/-! ### Rules of the whole machine -/

/-- The invariant holds at reset. -/
def Obligations.ResetSatisfiesTheInvariant : Prop := State.reset.Inv

/-- Every step keeps the invariant: legal parameters, memory canonical and only within buffer storage, the flags of a busy engine as
acceptance left them with CMD reading its word (R23, R58), and no ERR without a code (R83). -/
def Obligations.EveryStepKeepsTheInvariant : Prop :=
  ∀ s t : State, s.Inv → step s = .next t → t.Inv

/-- R21, R62: DONE rises only in a step that completes a command, and then the engine is Idle. -/
def Obligations.DoneRisesOnlyAtCompletion : Prop :=
  ∀ s t : State, step s = .next t → s.done = false → t.done = true → (∃ w, s.phase = .busy w 0) ∧ t.phase = .idle

/-- R21, R98: WOB rises only where the host writes to CMD, a SHAPE or a window's storage of a busy engine. That a write to the part
of a window beyond its storage is not among these rests on R31, V2 of 93_implementation_defined.md and the model's reading of R98
(log entry 9). -/
def Obligations.WobRisesOnlyOnDroppedWrite : Prop :=
  ∀ s t : State, s.params.legal → step s = .next t → s.wob = false → t.wob = true →
    ∃ w n off v rest, s.phase = .busy w (n + 1) ∧ s.host = .write off 4 v :: rest ∧
      (off = 0x010 ∨ off = 0x020 ∨ off = 0x024 ∨ off = 0x028 ∨ off = 0x02C ∨ ∃ i, InStorage s.params i off.toNat)

/-- R14, R16, R33, R63, R93: buffer storage changes only by a host write to a window of an idle engine, by the commit of a command,
or by a hard reset. -/
def Obligations.BuffersChangeOnlyByTheseEvents : Prop :=
  ∀ s t : State, s.params.legal → step s = .next t → t.mem ≠ s.mem →
    (∃ w, s.phase = .busy w 0 ∧ t.errcode = .none) ∨
      (s.phase = .idle ∧ ∃ off v rest i, s.host = .write off 4 v :: rest ∧ InStorage s.params i off.toNat) ∨
      ∃ rest, s.host = .hardReset :: rest

/-- R24, R25: RESULT and DCOUNT read at their own offsets. While the engine is idle a host read of 0x014 gets RESULT and one of 0x018
DCOUNT; after a completion they read what that completion wrote: DCOUNT 0 for every command but DECODE, RESULT 0 for every command
but RANK, ISINV, WEIGHT and DECODE, and both 0 for a command that fails or an illegal word (storage UNSPECIFIED since hard reset
aside, R101). Writes to both are ignored in every phase. -/
def Obligations.ResultAndDcountReadTheLastCompletion : Prop :=
  (∀ s : State, s.phase = .idle →
    s.readValue 0x014 = s.result ∧ s.readValue 0x018 = s.dcount ∧
    (∀ rest, s.host = .read 0x014 4 :: rest → ∃ t, step s = .next t ∧ t.host = rest ∧ t.replies = s.result :: s.replies) ∧
    ∀ rest, s.host = .read 0x018 4 :: rest → ∃ t, step s = .next t ∧ t.host = rest ∧ t.replies = s.dcount :: s.replies) ∧
  (∀ (w : Word) (s t : State), runCommand w s = .next t →
    t.readValue 0x014 = t.result ∧ t.readValue 0x018 = t.dcount ∧
    ((∃ e, decode w = .error e) → t.readValue 0x014 = 0 ∧ t.readValue 0x018 = 0)) ∧
  (∀ (i : Instr) (s t : State), ((∀ b ∈ i.sources, s.Ready b) ∨ ¬ s.PassesChecks i) → exec i s = .next t →
    (t.errcode ≠ .none → t.readValue 0x014 = 0 ∧ t.readValue 0x018 = 0) ∧
    (t.readValue 0x018 ≠ 0 → ∃ rd rs1 rs2, i = .decode rd rs1 rs2) ∧
    (t.readValue 0x014 ≠ 0 →
      (∃ rs1, i = .rank rs1 ∨ i = .isinv rs1 ∨ i = .weight rs1) ∨ ∃ rd rs1 rs2, i = .decode rd rs1 rs2)) ∧
  ∀ (s : State) (v : Word), s.hostWrite 0x014 v = s ∧ s.hostWrite 0x018 v = s
end

