-- ==== Sys2Proof/Laws/Matrix.lean ====
section
/-! SUPPORT. The shape and the entries of every matrix operation, and the small laws of its sums and counts. -/

namespace Sys2Proof.Machine

@[simp] theorem Mat.ofFn_rows (r c : Nat) (f : Nat → Nat → Bool) : (Mat.ofFn r c f).rows = r := rfl

@[simp] theorem Mat.ofFn_cols (r c : Nat) (f : Nat → Nat → Bool) : (Mat.ofFn r c f).cols = c := rfl

/-- The entries of a matrix made from a function; outside its shape every entry reads as 0. -/
@[simp] theorem Mat.get_ofFn (r c : Nat) (f : Nat → Nat → Bool) (i j : Nat) :
    (Mat.ofFn r c f).get i j = (decide (i < r ∧ j < c) && f i j) := by
  by_cases hi : i < r
  · by_cases hj : j < c <;> simp [Mat.get, Mat.ofFn, List.getD, hi, hj]
  · simp [Mat.get, Mat.ofFn, List.getD, hi]

/-- Two matrices made from functions are equal when their shapes are and their entries inside it are. -/
theorem Mat.ofFn_congr {r c : Nat} {f g : Nat → Nat → Bool} (h : ∀ i < r, ∀ j < c, f i j = g i j) :
    Mat.ofFn r c f = Mat.ofFn r c g := by
  simp only [Mat.ofFn, Mat.mk.injEq, true_and]
  refine List.map_congr_left fun i hi => List.map_congr_left fun j hj => ?_
  exact h i (List.mem_range.mp hi) j (List.mem_range.mp hj)

/-- A matrix made from a function is the matrix of its own entries. -/
theorem Mat.ofFn_get (r c : Nat) (f : Nat → Nat → Bool) : Mat.ofFn r c (Mat.ofFn r c f).get = Mat.ofFn r c f :=
  Mat.ofFn_congr fun i hi j hj => by simp [hi, hj]

theorem xorSum_congr {n : Nat} {f g : Nat → Bool} (h : ∀ l < n, f l = g l) : xorSum n f = xorSum n g := by
  induction n with
  | zero => rfl
  | succ n ih => rw [xorSum, xorSum, ih fun l hl => h l (by omega), h n (by omega)]

theorem countOnes_congr {n : Nat} {f g : Nat → Bool} (h : ∀ l < n, f l = g l) : countOnes n f = countOnes n g := by
  induction n with
  | zero => rfl
  | succ n ih => rw [countOnes, countOnes, ih fun l hl => h l (by omega), h n (by omega)]

theorem natSum_congr {n : Nat} {f g : Nat → Nat} (h : ∀ l < n, f l = g l) : natSum n f = natSum n g := by
  induction n with
  | zero => rfl
  | succ n ih => rw [natSum, natSum, ih fun l hl => h l (by omega), h n (by omega)]

theorem countOnes_le (n : Nat) (f : Nat → Bool) : countOnes n f ≤ n := by
  induction n with
  | zero => exact Nat.le_refl 0
  | succ n ih =>
    have := Bool.toNat_le (f n)
    rw [countOnes]
    omega

theorem natSum_le {n b : Nat} {f : Nat → Nat} (h : ∀ l < n, f l ≤ b) : natSum n f ≤ n * b := by
  induction n with
  | zero => simp [natSum]
  | succ n ih =>
    have h1 := ih fun l hl => h l (by omega)
    have h2 := h n (by omega)
    rw [natSum, Nat.succ_mul]
    omega

/-- A weight is at most the number of entries (R74). -/
theorem Mat.popcount_le (A : Mat) : A.popcount ≤ A.rows * A.cols :=
  natSum_le fun i _ => countOnes_le A.cols (A.get i)

@[simp] theorem Mat.mul_rows (A B : Mat) : (A.mul B).rows = A.rows := rfl
@[simp] theorem Mat.mul_cols (A B : Mat) : (A.mul B).cols = B.cols := rfl
@[simp] theorem Mat.add_rows (A B : Mat) : (A.add B).rows = A.rows := rfl
@[simp] theorem Mat.add_cols (A B : Mat) : (A.add B).cols = A.cols := rfl
@[simp] theorem Mat.transpose_rows (A : Mat) : A.transpose.rows = A.cols := rfl
@[simp] theorem Mat.transpose_cols (A : Mat) : A.transpose.cols = A.rows := rfl
@[simp] theorem Mat.reduceMod2_rows (A : Mat) : A.reduceMod2.rows = A.rows := rfl
@[simp] theorem Mat.reduceMod2_cols (A : Mat) : A.reduceMod2.cols = A.cols := rfl
@[simp] theorem Mat.identity_rows (n : Nat) : (Mat.identity n).rows = n := rfl
@[simp] theorem Mat.identity_cols (n : Nat) : (Mat.identity n).cols = n := rfl
@[simp] theorem Mat.augment_rows (A : Mat) : A.augment.rows = A.rows := rfl
@[simp] theorem Mat.augment_cols (A : Mat) : A.augment.cols = A.cols + A.rows := rfl
@[simp] theorem Mat.columns_rows (A : Mat) (a n : Nat) : (A.columns a n).rows = A.rows := rfl
@[simp] theorem Mat.columns_cols (A : Mat) (a n : Nat) : (A.columns a n).cols = n := rfl
@[simp] theorem Mat.swapRows_rows (A : Mat) (p q : Nat) : (A.swapRows p q).rows = A.rows := rfl
@[simp] theorem Mat.swapRows_cols (A : Mat) (p q : Nat) : (A.swapRows p q).cols = A.cols := rfl
@[simp] theorem Mat.clearColumn_rows (A : Mat) (p c : Nat) : (A.clearColumn p c).rows = A.rows := rfl
@[simp] theorem Mat.clearColumn_cols (A : Mat) (p c : Nat) : (A.clearColumn p c).cols = A.cols := rfl
@[simp] theorem candidate_rows (o : EnumOrder) (k i : Nat) : (candidate o k i).rows = 1 := rfl
@[simp] theorem candidate_cols (o : EnumOrder) (k i : Nat) : (candidate o k i).cols = k := rfl

theorem Mat.get_mul {A B : Mat} {i j : Nat} (hi : i < A.rows) (hj : j < B.cols) :
    (A.mul B).get i j = xorSum A.cols fun l => A.get i l && B.get l j := by
  simp [Mat.mul, hi, hj]

theorem Mat.get_add {A B : Mat} {i j : Nat} (hi : i < A.rows) (hj : j < A.cols) :
    (A.add B).get i j = (A.get i j ^^ B.get i j) := by
  simp [Mat.add, hi, hj]

theorem Mat.get_transpose {A : Mat} {i j : Nat} (hi : i < A.cols) (hj : j < A.rows) :
    A.transpose.get i j = A.get j i := by
  simp [Mat.transpose, hi, hj]

theorem Mat.get_reduceMod2 {A : Mat} {i j : Nat} (hi : i < A.rows) (hj : j < A.cols) :
    A.reduceMod2.get i j = A.get i j := by
  simp only [Mat.reduceMod2, Mat.get_ofFn, hi, hj, and_self, decide_true, Bool.true_and]
  cases A.get i j <;> rfl

/-- A pivot row is at or below the current pivot row and has a 1 in the column. -/
theorem Mat.pivotRow_some {A : Mat} {p col q : Nat} (h : A.pivotRow p col = some q) :
    p ≤ q ∧ q < A.rows ∧ A.get q col = true := by
  have hm := List.mem_of_find?_eq_some h
  have ht := List.find?_some h
  rw [List.mem_range'_1] at hm
  exact ⟨hm.1, by omega, ht⟩

/-- No pivot row: every row from the current pivot row on has a 0 in the column. -/
theorem Mat.pivotRow_none {A : Mat} {p col : Nat} (h : A.pivotRow p col = none) {i : Nat} (hp : p ≤ i)
    (hi : i < A.rows) : A.get i col = false := by
  have := List.find?_eq_none.mp h i (by rw [List.mem_range'_1]; omega)
  simpa using this

/-- What one turn of the elimination loop can do. -/
theorem elimColumn_cases (A : Mat) (p col : Nat) :
    (A.pivotRow p col = none ∧ elimColumn (A, p) col = (A, p)) ∨
    (∃ q, A.pivotRow p col = some q ∧ elimColumn (A, p) col = ((A.swapRows p q).clearColumn p col, p + 1)) := by
  unfold elimColumn
  cases h : A.pivotRow p col with
  | none => exact .inl ⟨rfl, by simp⟩
  | some q => exact .inr ⟨q, rfl, by simp⟩

/-- The elimination loop, one column at a time. -/
theorem elim_succ (A : Mat) (pc : Nat) : elim A (pc + 1) = elimColumn (elim A pc) pc := by
  simp [elim, List.range_succ, List.foldl_append]

@[simp] theorem elim_zero (A : Mat) : elim A 0 = (A, 0) := rfl

/-- The elimination keeps the shape and finds at most one pivot a column and a row. -/
theorem elim_shape (A : Mat) (pc : Nat) :
    (elim A pc).1.rows = A.rows ∧ (elim A pc).1.cols = A.cols ∧ (elim A pc).2 ≤ pc ∧ (elim A pc).2 ≤ A.rows := by
  induction pc with
  | zero => simp
  | succ pc ih =>
    obtain ⟨hr, hc, hp, hp'⟩ := ih
    rw [elim_succ]
    rcases elimColumn_cases (elim A pc).1 (elim A pc).2 pc with ⟨-, h⟩ | ⟨q, hq, h⟩ <;>
      rw [show elim A pc = ((elim A pc).1, (elim A pc).2) from rfl, h]
    · exact ⟨hr, hc, by simp; omega, hp'⟩
    · have := Mat.pivotRow_some hq
      refine ⟨by simpa using hr, by simpa using hc, by simp; omega, ?_⟩
      show (elim A pc).2 + 1 ≤ A.rows
      omega

end Sys2Proof.Machine
end

