-- ==== Sys2Proof/Laws/Memory.lean ====
section
/-! SUPPORT. What reading one byte after each memory operation gives, and that every operation keeps the canonical form. -/

namespace Sys2Proof.Machine

theorem Memory.read_append (m m' : Memory) (a : Nat) :
    Memory.read (m ++ m') a = (Memory.read m a).or (Memory.read m' a) := by
  induction m with
  | nil => simp [Memory.read]
  | cons x m ih =>
    by_cases h : x.1 = a <;> simp [Memory.read, h, ih]

theorem Memory.read_filter (p : Nat → Bool) (m : Memory) (a : Nat) :
    Memory.read (m.filter fun x => p x.1) a = if p a then Memory.read m a else none := by
  induction m with
  | nil => simp [Memory.read]
  | cons x m ih =>
    by_cases hx : x.1 = a
    · subst hx
      cases h : p x.1 <;> simp [Memory.read, h, ih]
    · cases h : p x.1 <;> simp [Memory.read, h, ih, hx]

theorem Memory.read_block (a : Nat) (bs : List Byte) (x : Nat) :
    Memory.read (Memory.block a bs) x = if a ≤ x then bs[x - a]? else none := by
  induction bs generalizing a with
  | nil => simp [Memory.read, Memory.block]
  | cons b bs ih =>
    rw [Memory.block, Memory.read, ih]
    by_cases h : a = x
    · simp [h]
    · by_cases h' : a ≤ x
      · have e : x - a = (x - (a + 1)) + 1 := by omega
        simp [h, h', show a + 1 ≤ x by omega, e]
      · simp [h, h', show ¬ a + 1 ≤ x by omega]

/-- A block write gives its bytes inside the block and leaves every other address alone. -/
theorem Memory.read_writeBlock (m : Memory) (a : Nat) (bs : List Byte) (x : Nat) :
    Memory.read (m.writeBlock a bs) x =
      if a ≤ x ∧ x < a + bs.length then bs[x - a]? else Memory.read m x := by
  have h1 := Memory.read_filter (fun y => y < a) m x
  have h2 := Memory.read_filter (fun y => a + bs.length ≤ y) m x
  rw [Memory.writeBlock, Memory.read_append, Memory.read_append, Memory.read_block, h1, h2]
  by_cases lo : x < a
  · simp [lo, show ¬ a ≤ x by omega, show ¬ a + bs.length ≤ x by omega]
  · by_cases hi : x < a + bs.length
    · have : (bs[x - a]?).isSome := by simp; omega
      obtain ⟨b, hb⟩ := Option.isSome_iff_exists.mp this
      simp [lo, hi, show a ≤ x by omega, hb]
    · have : bs[x - a]? = none := by simp; omega
      simp [lo, hi, this, show a + bs.length ≤ x by omega]

theorem Memory.read_writeBlock_inside {m : Memory} {a x : Nat} {bs : List Byte} (h : a ≤ x)
    (h' : x < a + bs.length) : Memory.read (m.writeBlock a bs) x = bs[x - a]? := by
  simp [Memory.read_writeBlock, h, h']

theorem Memory.read_writeBlock_outside {m : Memory} {a x : Nat} {bs : List Byte}
    (h : ¬ (a ≤ x ∧ x < a + bs.length)) : Memory.read (m.writeBlock a bs) x = Memory.read m x := by
  simp only [Memory.read_writeBlock, if_neg h]

/-- A block's entries stand inside it. -/
theorem Memory.mem_block {a : Nat} {bs : List Byte} {x : Host.Cell} (h : x ∈ Memory.block a bs) :
    a ≤ x.1 ∧ x.1 < a + bs.length := by
  induction bs generalizing a with
  | nil => simp [Memory.block] at h
  | cons b bs ih =>
    rcases List.mem_cons.mp h with rfl | h
    · simp
    · have := ih h
      simp only [List.length_cons]
      omega

/-- Addresses listed after a block write are in the block or were listed before. -/
theorem Memory.mem_writeBlock {m : Memory} {a : Nat} {bs : List Byte} {x : Host.Cell}
    (h : x ∈ m.writeBlock a bs) : (a ≤ x.1 ∧ x.1 < a + bs.length) ∨ x ∈ m := by
  rcases List.mem_append.mp h with h | h
  · rcases List.mem_append.mp h with h | h
    · exact .inr (List.mem_filter.mp h).1
    · exact .inl (Memory.mem_block h)
  · exact .inr (List.mem_filter.mp h).1

theorem Memory.wf_block (a : Nat) (bs : List Byte) : Memory.wf (Memory.block a bs) := by
  induction bs generalizing a with
  | nil => exact .nil
  | cons b bs ih =>
    refine List.pairwise_cons.mpr ⟨fun x hx => ?_, ih _⟩
    have := (Memory.mem_block hx).1
    show a < x.1
    omega

/-- The one operation that writes memory keeps the canonical form. -/
theorem Memory.wf_writeBlock {m : Memory} (h : m.wf) (a : Nat) (bs : List Byte) :
    Memory.wf (m.writeBlock a bs) := by
  refine List.pairwise_append.mpr ⟨List.pairwise_append.mpr ⟨h.filter _, Memory.wf_block a bs, ?_⟩, h.filter _, ?_⟩
  · intro x hx y hy
    have h1 := (List.mem_filter.mp hx).2
    have h2 := (Memory.mem_block hy).1
    simp only [decide_eq_true_eq] at h1
    omega
  · intro x hx y hy
    have h2 := (List.mem_filter.mp hy).2
    simp only [decide_eq_true_eq] at h2
    rcases List.mem_append.mp hx with hx | hx
    · have h1 := (List.mem_filter.mp hx).2
      simp only [decide_eq_true_eq] at h1
      omega
    · have h1 := (Memory.mem_block hx).2
      omega

theorem Memory.wf_nil : Memory.wf [] := .nil

/-- An address is listed exactly when it reads as a value. -/
theorem Memory.read_isSome_iff (m : Memory) (a : Nat) : (Memory.read m a).isSome ↔ ∃ x ∈ m, x.1 = a := by
  induction m with
  | nil => simp [Memory.read]
  | cons y m ih =>
    by_cases h : y.1 = a <;> simp [Memory.read, h, ih]

end Sys2Proof.Machine
end

