-- ==== Sys2Proof/Laws/State.lean ====
section
/-! SUPPORT. One lemma per field per named update of the state, so that no proof unfolds a record update. -/

namespace Sys2Proof.Machine

/-! ### `State.finish` -/

@[simp] theorem State.finish_params (s : State) : (s.finish).params = s.params := rfl
@[simp] theorem State.finish_mem (s : State) : (s.finish).mem = s.mem := rfl
@[simp] theorem State.finish_shape (s : State) : (s.finish).shape = s.shape := rfl
@[simp] theorem State.finish_irqEn (s : State) : (s.finish).irqEn = s.irqEn := rfl
@[simp] theorem State.finish_done (s : State) : (s.finish).done = true := rfl
@[simp] theorem State.finish_err (s : State) : (s.finish).err = s.err := rfl
@[simp] theorem State.finish_wob (s : State) : (s.finish).wob = s.wob := rfl
@[simp] theorem State.finish_errcode (s : State) : (s.finish).errcode = s.errcode := rfl
@[simp] theorem State.finish_cmdLast (s : State) : (s.finish).cmdLast = s.cmdLast := rfl
@[simp] theorem State.finish_result (s : State) : (s.finish).result = s.result := rfl
@[simp] theorem State.finish_dcount (s : State) : (s.finish).dcount = s.dcount := rfl
@[simp] theorem State.finish_phase (s : State) : (s.finish).phase = .idle := rfl
@[simp] theorem State.finish_host (s : State) : (s.finish).host = s.host := rfl
@[simp] theorem State.finish_replies (s : State) : (s.finish).replies = s.replies := rfl
@[simp] theorem State.finish_epoch (s : State) : (s.finish).epoch = s.epoch := rfl
@[simp] theorem State.finish_fresh (s : State) : (s.finish).fresh = s.fresh := rfl

/-! ### `State.setShape` -/

@[simp] theorem State.setShape_params (i : Buf) (sh : Shape) (s : State) :
    (State.setShape i sh s).params = s.params := rfl
@[simp] theorem State.setShape_mem (i : Buf) (sh : Shape) (s : State) : (State.setShape i sh s).mem = s.mem := rfl
@[simp] theorem State.setShape_shape (i : Buf) (sh : Shape) (s : State) :
    (State.setShape i sh s).shape = s.shape.set i.val sh i.isLt := rfl
@[simp] theorem State.setShape_irqEn (i : Buf) (sh : Shape) (s : State) :
    (State.setShape i sh s).irqEn = s.irqEn := rfl
@[simp] theorem State.setShape_done (i : Buf) (sh : Shape) (s : State) : (State.setShape i sh s).done = s.done := rfl
@[simp] theorem State.setShape_err (i : Buf) (sh : Shape) (s : State) : (State.setShape i sh s).err = s.err := rfl
@[simp] theorem State.setShape_wob (i : Buf) (sh : Shape) (s : State) : (State.setShape i sh s).wob = s.wob := rfl
@[simp] theorem State.setShape_errcode (i : Buf) (sh : Shape) (s : State) :
    (State.setShape i sh s).errcode = s.errcode := rfl
@[simp] theorem State.setShape_cmdLast (i : Buf) (sh : Shape) (s : State) :
    (State.setShape i sh s).cmdLast = s.cmdLast := rfl
@[simp] theorem State.setShape_result (i : Buf) (sh : Shape) (s : State) :
    (State.setShape i sh s).result = s.result := rfl
@[simp] theorem State.setShape_dcount (i : Buf) (sh : Shape) (s : State) :
    (State.setShape i sh s).dcount = s.dcount := rfl
@[simp] theorem State.setShape_phase (i : Buf) (sh : Shape) (s : State) :
    (State.setShape i sh s).phase = s.phase := rfl
@[simp] theorem State.setShape_host (i : Buf) (sh : Shape) (s : State) : (State.setShape i sh s).host = s.host := rfl
@[simp] theorem State.setShape_replies (i : Buf) (sh : Shape) (s : State) :
    (State.setShape i sh s).replies = s.replies := rfl
@[simp] theorem State.setShape_epoch (i : Buf) (sh : Shape) (s : State) :
    (State.setShape i sh s).epoch = s.epoch := rfl
@[simp] theorem State.setShape_fresh (i : Buf) (sh : Shape) (s : State) :
    (State.setShape i sh s).fresh = s.fresh := rfl

/-! ### `State.setStoreWord` -/

@[simp] theorem State.setStoreWord_params (i : Buf) (r w : Nat) (v : Word) (s : State) :
    (State.setStoreWord i r w v s).params = s.params := rfl
@[simp] theorem State.setStoreWord_mem (i : Buf) (r w : Nat) (v : Word) (s : State) :
    (State.setStoreWord i r w v s).mem = s.mem.writeBlock (waddr s.params i r w) (wordBytes v) := rfl
@[simp] theorem State.setStoreWord_shape (i : Buf) (r w : Nat) (v : Word) (s : State) :
    (State.setStoreWord i r w v s).shape = s.shape := rfl
@[simp] theorem State.setStoreWord_irqEn (i : Buf) (r w : Nat) (v : Word) (s : State) :
    (State.setStoreWord i r w v s).irqEn = s.irqEn := rfl
@[simp] theorem State.setStoreWord_done (i : Buf) (r w : Nat) (v : Word) (s : State) :
    (State.setStoreWord i r w v s).done = s.done := rfl
@[simp] theorem State.setStoreWord_err (i : Buf) (r w : Nat) (v : Word) (s : State) :
    (State.setStoreWord i r w v s).err = s.err := rfl
@[simp] theorem State.setStoreWord_wob (i : Buf) (r w : Nat) (v : Word) (s : State) :
    (State.setStoreWord i r w v s).wob = s.wob := rfl
@[simp] theorem State.setStoreWord_errcode (i : Buf) (r w : Nat) (v : Word) (s : State) :
    (State.setStoreWord i r w v s).errcode = s.errcode := rfl
@[simp] theorem State.setStoreWord_cmdLast (i : Buf) (r w : Nat) (v : Word) (s : State) :
    (State.setStoreWord i r w v s).cmdLast = s.cmdLast := rfl
@[simp] theorem State.setStoreWord_result (i : Buf) (r w : Nat) (v : Word) (s : State) :
    (State.setStoreWord i r w v s).result = s.result := rfl
@[simp] theorem State.setStoreWord_dcount (i : Buf) (r w : Nat) (v : Word) (s : State) :
    (State.setStoreWord i r w v s).dcount = s.dcount := rfl
@[simp] theorem State.setStoreWord_phase (i : Buf) (r w : Nat) (v : Word) (s : State) :
    (State.setStoreWord i r w v s).phase = s.phase := rfl
@[simp] theorem State.setStoreWord_host (i : Buf) (r w : Nat) (v : Word) (s : State) :
    (State.setStoreWord i r w v s).host = s.host := rfl
@[simp] theorem State.setStoreWord_replies (i : Buf) (r w : Nat) (v : Word) (s : State) :
    (State.setStoreWord i r w v s).replies = s.replies := rfl
@[simp] theorem State.setStoreWord_epoch (i : Buf) (r w : Nat) (v : Word) (s : State) :
    (State.setStoreWord i r w v s).epoch = s.epoch := rfl
@[simp] theorem State.setStoreWord_fresh (i : Buf) (r w : Nat) (v : Word) (s : State) :
    (State.setStoreWord i r w v s).fresh = s.fresh := rfl

/-! ### `State.commit` -/

@[simp] theorem State.commit_params (i : Buf) (V : Mat) (s : State) : (State.commit i V s).params = s.params := rfl
@[simp] theorem State.commit_mem (i : Buf) (V : Mat) (s : State) :
    (State.commit i V s).mem = s.mem.writeBlock (wbase i) (matrixBytes s.params V) := rfl
@[simp] theorem State.commit_shape (i : Buf) (V : Mat) (s : State) :
    (State.commit i V s).shape = s.shape.set i.val ⟨BitVec.ofNat 8 V.rows, BitVec.ofNat 8 V.cols⟩ i.isLt := rfl
@[simp] theorem State.commit_irqEn (i : Buf) (V : Mat) (s : State) : (State.commit i V s).irqEn = s.irqEn := rfl
@[simp] theorem State.commit_done (i : Buf) (V : Mat) (s : State) : (State.commit i V s).done = s.done := rfl
@[simp] theorem State.commit_err (i : Buf) (V : Mat) (s : State) : (State.commit i V s).err = s.err := rfl
@[simp] theorem State.commit_wob (i : Buf) (V : Mat) (s : State) : (State.commit i V s).wob = s.wob := rfl
@[simp] theorem State.commit_errcode (i : Buf) (V : Mat) (s : State) : (State.commit i V s).errcode = s.errcode := rfl
@[simp] theorem State.commit_cmdLast (i : Buf) (V : Mat) (s : State) : (State.commit i V s).cmdLast = s.cmdLast := rfl
@[simp] theorem State.commit_result (i : Buf) (V : Mat) (s : State) : (State.commit i V s).result = s.result := rfl
@[simp] theorem State.commit_dcount (i : Buf) (V : Mat) (s : State) : (State.commit i V s).dcount = s.dcount := rfl
@[simp] theorem State.commit_phase (i : Buf) (V : Mat) (s : State) : (State.commit i V s).phase = s.phase := rfl
@[simp] theorem State.commit_host (i : Buf) (V : Mat) (s : State) : (State.commit i V s).host = s.host := rfl
@[simp] theorem State.commit_replies (i : Buf) (V : Mat) (s : State) : (State.commit i V s).replies = s.replies := rfl
@[simp] theorem State.commit_epoch (i : Buf) (V : Mat) (s : State) : (State.commit i V s).epoch = s.epoch := rfl
@[simp] theorem State.commit_fresh (i : Buf) (V : Mat) (s : State) : (State.commit i V s).fresh = s.fresh := rfl

/-! ### `State.accept` -/

@[simp] theorem State.accept_params (w : Word) (s : State) : (State.accept w s).params = s.params := rfl
@[simp] theorem State.accept_mem (w : Word) (s : State) : (State.accept w s).mem = s.mem := rfl
@[simp] theorem State.accept_shape (w : Word) (s : State) : (State.accept w s).shape = s.shape := rfl
@[simp] theorem State.accept_irqEn (w : Word) (s : State) : (State.accept w s).irqEn = s.irqEn := rfl
@[simp] theorem State.accept_done (w : Word) (s : State) : (State.accept w s).done = false := rfl
@[simp] theorem State.accept_err (w : Word) (s : State) : (State.accept w s).err = false := rfl
@[simp] theorem State.accept_wob (w : Word) (s : State) : (State.accept w s).wob = s.wob := rfl
@[simp] theorem State.accept_errcode (w : Word) (s : State) : (State.accept w s).errcode = .none := rfl
@[simp] theorem State.accept_cmdLast (w : Word) (s : State) : (State.accept w s).cmdLast = w := rfl
@[simp] theorem State.accept_result (w : Word) (s : State) : (State.accept w s).result = s.result := rfl
@[simp] theorem State.accept_dcount (w : Word) (s : State) : (State.accept w s).dcount = s.dcount := rfl
@[simp] theorem State.accept_phase (w : Word) (s : State) :
    (State.accept w s).phase = .busy w (Config.latency w s.fresh) := rfl
@[simp] theorem State.accept_host (w : Word) (s : State) : (State.accept w s).host = s.host := rfl
@[simp] theorem State.accept_replies (w : Word) (s : State) : (State.accept w s).replies = s.replies := rfl
@[simp] theorem State.accept_epoch (w : Word) (s : State) : (State.accept w s).epoch = s.epoch := rfl
@[simp] theorem State.accept_fresh (w : Word) (s : State) : (State.accept w s).fresh = s.fresh + 1 := rfl

/-! ### `State.capture` -/

@[simp] theorem State.capture_params (w : Word) (s : State) : (State.capture w s).params = s.params := rfl
@[simp] theorem State.capture_mem (w : Word) (s : State) : (State.capture w s).mem = s.mem := rfl
@[simp] theorem State.capture_shape (w : Word) (s : State) : (State.capture w s).shape = s.shape := rfl
@[simp] theorem State.capture_irqEn (w : Word) (s : State) : (State.capture w s).irqEn = s.irqEn := rfl
@[simp] theorem State.capture_done (w : Word) (s : State) : (State.capture w s).done = false := rfl
@[simp] theorem State.capture_err (w : Word) (s : State) : (State.capture w s).err = false := rfl
@[simp] theorem State.capture_wob (w : Word) (s : State) : (State.capture w s).wob = s.wob := rfl
@[simp] theorem State.capture_errcode (w : Word) (s : State) : (State.capture w s).errcode = .none := rfl
@[simp] theorem State.capture_cmdLast (w : Word) (s : State) : (State.capture w s).cmdLast = w := rfl
@[simp] theorem State.capture_result (w : Word) (s : State) : (State.capture w s).result = s.result := rfl
@[simp] theorem State.capture_dcount (w : Word) (s : State) : (State.capture w s).dcount = s.dcount := rfl
@[simp] theorem State.capture_phase (w : Word) (s : State) : (State.capture w s).phase = .busy w 0 := rfl
@[simp] theorem State.capture_host (w : Word) (s : State) : (State.capture w s).host = s.host := rfl
@[simp] theorem State.capture_replies (w : Word) (s : State) : (State.capture w s).replies = s.replies := rfl
@[simp] theorem State.capture_epoch (w : Word) (s : State) : (State.capture w s).epoch = s.epoch := rfl
@[simp] theorem State.capture_fresh (w : Word) (s : State) : (State.capture w s).fresh = s.fresh := rfl

/-! ### `State.softReset` -/

@[simp] theorem State.softReset_params (s : State) : (s.softReset).params = s.params := rfl
@[simp] theorem State.softReset_mem (s : State) : (s.softReset).mem = s.mem := rfl
@[simp] theorem State.softReset_shape (s : State) : (s.softReset).shape = s.shape := rfl
@[simp] theorem State.softReset_irqEn (s : State) : (s.softReset).irqEn = false := rfl
@[simp] theorem State.softReset_done (s : State) : (s.softReset).done = false := rfl
@[simp] theorem State.softReset_err (s : State) : (s.softReset).err = false := rfl
@[simp] theorem State.softReset_wob (s : State) : (s.softReset).wob = false := rfl
@[simp] theorem State.softReset_errcode (s : State) : (s.softReset).errcode = .none := rfl
@[simp] theorem State.softReset_cmdLast (s : State) : (s.softReset).cmdLast = 0 := rfl
@[simp] theorem State.softReset_result (s : State) : (s.softReset).result = 0 := rfl
@[simp] theorem State.softReset_dcount (s : State) : (s.softReset).dcount = 0 := rfl
@[simp] theorem State.softReset_phase (s : State) : (s.softReset).phase = .idle := rfl
@[simp] theorem State.softReset_host (s : State) : (s.softReset).host = s.host := rfl
@[simp] theorem State.softReset_replies (s : State) : (s.softReset).replies = s.replies := rfl
@[simp] theorem State.softReset_epoch (s : State) : (s.softReset).epoch = s.epoch := rfl
@[simp] theorem State.softReset_fresh (s : State) : (s.softReset).fresh = s.fresh := rfl

/-! ### `State.hardReset` -/

@[simp] theorem State.hardReset_params (s : State) : (s.hardReset).params = s.params := rfl
@[simp] theorem State.hardReset_mem (s : State) : (s.hardReset).mem = [] := rfl
@[simp] theorem State.hardReset_shape (s : State) : (s.hardReset).shape = Vector.replicate 4 ⟨0, 0⟩ := rfl
@[simp] theorem State.hardReset_irqEn (s : State) : (s.hardReset).irqEn = false := rfl
@[simp] theorem State.hardReset_done (s : State) : (s.hardReset).done = false := rfl
@[simp] theorem State.hardReset_err (s : State) : (s.hardReset).err = false := rfl
@[simp] theorem State.hardReset_wob (s : State) : (s.hardReset).wob = false := rfl
@[simp] theorem State.hardReset_errcode (s : State) : (s.hardReset).errcode = .none := rfl
@[simp] theorem State.hardReset_cmdLast (s : State) : (s.hardReset).cmdLast = 0 := rfl
@[simp] theorem State.hardReset_result (s : State) : (s.hardReset).result = 0 := rfl
@[simp] theorem State.hardReset_dcount (s : State) : (s.hardReset).dcount = 0 := rfl
@[simp] theorem State.hardReset_phase (s : State) : (s.hardReset).phase = .idle := rfl
@[simp] theorem State.hardReset_host (s : State) : (s.hardReset).host = s.host := rfl
@[simp] theorem State.hardReset_replies (s : State) : (s.hardReset).replies = s.replies := rfl
@[simp] theorem State.hardReset_epoch (s : State) : (s.hardReset).epoch = s.epoch + 1 := rfl
@[simp] theorem State.hardReset_fresh (s : State) : (s.hardReset).fresh = s.fresh := rfl

/-! ### `State.writeStatus` -/

@[simp] theorem State.writeStatus_params (v : Word) (s : State) : (State.writeStatus v s).params = s.params := rfl
@[simp] theorem State.writeStatus_mem (v : Word) (s : State) : (State.writeStatus v s).mem = s.mem := rfl
@[simp] theorem State.writeStatus_shape (v : Word) (s : State) : (State.writeStatus v s).shape = s.shape := rfl
@[simp] theorem State.writeStatus_irqEn (v : Word) (s : State) : (State.writeStatus v s).irqEn = s.irqEn := rfl
@[simp] theorem State.writeStatus_done (v : Word) (s : State) :
    (State.writeStatus v s).done = (s.done && !v.getLsbD 1) := rfl
@[simp] theorem State.writeStatus_err (v : Word) (s : State) :
    (State.writeStatus v s).err = (s.err && !v.getLsbD 2) := rfl
@[simp] theorem State.writeStatus_wob (v : Word) (s : State) :
    (State.writeStatus v s).wob = (s.wob && !v.getLsbD 3) := rfl
@[simp] theorem State.writeStatus_errcode (v : Word) (s : State) : (State.writeStatus v s).errcode = s.errcode := rfl
@[simp] theorem State.writeStatus_cmdLast (v : Word) (s : State) : (State.writeStatus v s).cmdLast = s.cmdLast := rfl
@[simp] theorem State.writeStatus_result (v : Word) (s : State) : (State.writeStatus v s).result = s.result := rfl
@[simp] theorem State.writeStatus_dcount (v : Word) (s : State) : (State.writeStatus v s).dcount = s.dcount := rfl
@[simp] theorem State.writeStatus_phase (v : Word) (s : State) : (State.writeStatus v s).phase = s.phase := rfl
@[simp] theorem State.writeStatus_host (v : Word) (s : State) : (State.writeStatus v s).host = s.host := rfl
@[simp] theorem State.writeStatus_replies (v : Word) (s : State) : (State.writeStatus v s).replies = s.replies := rfl
@[simp] theorem State.writeStatus_epoch (v : Word) (s : State) : (State.writeStatus v s).epoch = s.epoch := rfl
@[simp] theorem State.writeStatus_fresh (v : Word) (s : State) : (State.writeStatus v s).fresh = s.fresh := rfl

/-! ### `State.dropWrite` -/

@[simp] theorem State.dropWrite_params (s : State) : (s.dropWrite).params = s.params := rfl
@[simp] theorem State.dropWrite_mem (s : State) : (s.dropWrite).mem = s.mem := rfl
@[simp] theorem State.dropWrite_shape (s : State) : (s.dropWrite).shape = s.shape := rfl
@[simp] theorem State.dropWrite_irqEn (s : State) : (s.dropWrite).irqEn = s.irqEn := rfl
@[simp] theorem State.dropWrite_done (s : State) : (s.dropWrite).done = s.done := rfl
@[simp] theorem State.dropWrite_err (s : State) : (s.dropWrite).err = s.err := rfl
@[simp] theorem State.dropWrite_wob (s : State) : (s.dropWrite).wob = true := rfl
@[simp] theorem State.dropWrite_errcode (s : State) : (s.dropWrite).errcode = s.errcode := rfl
@[simp] theorem State.dropWrite_cmdLast (s : State) : (s.dropWrite).cmdLast = s.cmdLast := rfl
@[simp] theorem State.dropWrite_result (s : State) : (s.dropWrite).result = s.result := rfl
@[simp] theorem State.dropWrite_dcount (s : State) : (s.dropWrite).dcount = s.dcount := rfl
@[simp] theorem State.dropWrite_phase (s : State) : (s.dropWrite).phase = s.phase := rfl
@[simp] theorem State.dropWrite_host (s : State) : (s.dropWrite).host = s.host := rfl
@[simp] theorem State.dropWrite_replies (s : State) : (s.dropWrite).replies = s.replies := rfl
@[simp] theorem State.dropWrite_epoch (s : State) : (s.dropWrite).epoch = s.epoch := rfl
@[simp] theorem State.dropWrite_fresh (s : State) : (s.dropWrite).fresh = s.fresh := rfl

/-! ### `State.hostRead` -/

@[simp] theorem State.hostRead_params (off : Offset) (s : State) : (State.hostRead off s).params = s.params := rfl
@[simp] theorem State.hostRead_mem (off : Offset) (s : State) : (State.hostRead off s).mem = s.mem := rfl
@[simp] theorem State.hostRead_shape (off : Offset) (s : State) : (State.hostRead off s).shape = s.shape := rfl
@[simp] theorem State.hostRead_irqEn (off : Offset) (s : State) : (State.hostRead off s).irqEn = s.irqEn := rfl
@[simp] theorem State.hostRead_done (off : Offset) (s : State) : (State.hostRead off s).done = s.done := rfl
@[simp] theorem State.hostRead_err (off : Offset) (s : State) : (State.hostRead off s).err = s.err := rfl
@[simp] theorem State.hostRead_wob (off : Offset) (s : State) : (State.hostRead off s).wob = s.wob := rfl
@[simp] theorem State.hostRead_errcode (off : Offset) (s : State) : (State.hostRead off s).errcode = s.errcode := rfl
@[simp] theorem State.hostRead_cmdLast (off : Offset) (s : State) : (State.hostRead off s).cmdLast = s.cmdLast := rfl
@[simp] theorem State.hostRead_result (off : Offset) (s : State) : (State.hostRead off s).result = s.result := rfl
@[simp] theorem State.hostRead_dcount (off : Offset) (s : State) : (State.hostRead off s).dcount = s.dcount := rfl
@[simp] theorem State.hostRead_phase (off : Offset) (s : State) : (State.hostRead off s).phase = s.phase := rfl
@[simp] theorem State.hostRead_host (off : Offset) (s : State) : (State.hostRead off s).host = s.host := rfl
@[simp] theorem State.hostRead_replies (off : Offset) (s : State) :
    (State.hostRead off s).replies = s.readValue off :: s.replies := rfl
@[simp] theorem State.hostRead_epoch (off : Offset) (s : State) : (State.hostRead off s).epoch = s.epoch := rfl
@[simp] theorem State.hostRead_fresh (off : Offset) (s : State) : (State.hostRead off s).fresh = s.fresh + 1 := rfl

/-! ### `State.commitDest` -/

@[simp] theorem State.commitDest_params (d : Option (Buf × Mat)) (s : State) : (s.commitDest d).params = s.params := by
  cases d <;> rfl
@[simp] theorem State.commitDest_irqEn (d : Option (Buf × Mat)) (s : State) : (s.commitDest d).irqEn = s.irqEn := by
  cases d <;> rfl
@[simp] theorem State.commitDest_done (d : Option (Buf × Mat)) (s : State) : (s.commitDest d).done = s.done := by
  cases d <;> rfl
@[simp] theorem State.commitDest_err (d : Option (Buf × Mat)) (s : State) : (s.commitDest d).err = s.err := by
  cases d <;> rfl
@[simp] theorem State.commitDest_wob (d : Option (Buf × Mat)) (s : State) : (s.commitDest d).wob = s.wob := by
  cases d <;> rfl
@[simp] theorem State.commitDest_errcode (d : Option (Buf × Mat)) (s : State) : (s.commitDest d).errcode = s.errcode := by
  cases d <;> rfl
@[simp] theorem State.commitDest_cmdLast (d : Option (Buf × Mat)) (s : State) : (s.commitDest d).cmdLast = s.cmdLast := by
  cases d <;> rfl
@[simp] theorem State.commitDest_result (d : Option (Buf × Mat)) (s : State) : (s.commitDest d).result = s.result := by
  cases d <;> rfl
@[simp] theorem State.commitDest_dcount (d : Option (Buf × Mat)) (s : State) : (s.commitDest d).dcount = s.dcount := by
  cases d <;> rfl
@[simp] theorem State.commitDest_phase (d : Option (Buf × Mat)) (s : State) : (s.commitDest d).phase = s.phase := by
  cases d <;> rfl
@[simp] theorem State.commitDest_host (d : Option (Buf × Mat)) (s : State) : (s.commitDest d).host = s.host := by
  cases d <;> rfl
@[simp] theorem State.commitDest_replies (d : Option (Buf × Mat)) (s : State) : (s.commitDest d).replies = s.replies := by
  cases d <;> rfl
@[simp] theorem State.commitDest_epoch (d : Option (Buf × Mat)) (s : State) : (s.commitDest d).epoch = s.epoch := by
  cases d <;> rfl
@[simp] theorem State.commitDest_fresh (d : Option (Buf × Mat)) (s : State) : (s.commitDest d).fresh = s.fresh := by
  cases d <;> rfl

@[simp] theorem State.commitDest_none (s : State) : s.commitDest none = s := rfl

@[simp] theorem State.commitDest_some (i : Buf) (V : Mat) (s : State) :
    s.commitDest (some (i, V)) = s.commit i V := rfl

/-! ### `State.busy` -/

theorem State.busy_of_idle {s : State} (h : s.phase = .idle) : s.busy = false := by
  simp [State.busy, h]

theorem State.busy_of_busy {s : State} {w : Word} {n : Nat} (h : s.phase = .busy w n) : s.busy = true := by
  simp [State.busy, h]

theorem State.busy_eq_false {s : State} : s.busy = false ↔ s.phase = .idle := by
  unfold State.busy
  cases s.phase <;> simp

theorem State.busy_eq_true {s : State} : s.busy = true ↔ ∃ w n, s.phase = .busy w n := by
  unfold State.busy
  cases s.phase <;> simp

end Sys2Proof.Machine
end

