-- ==== Sys2Proof/Laws/Ops.lean ====
section
/-! SUPPORT. What the shared operations do to the storage, bit by bit and word by word, and what a completion can be. -/

namespace Sys2Proof.Machine

/-! ### Addresses -/

theorem Params.legal_wpr {p : Params} (h : p.legal) : p.cmax = 32 * p.wpr ∧ 1 ≤ p.wpr ∧ p.wpr ≤ 7 := by
  unfold Params.legal at h
  unfold Params.wpr
  omega

/-- A buffer's storage fits its window (R31). -/
theorem bufferBytes_le {p : Params} (h : p.legal) : bufferBytes p ≤ 0x2000 := by
  have hw := Params.legal_wpr h
  have hr : p.rmax ≤ 255 := h.2.1
  have : p.rmax * p.wpr ≤ 255 * 7 := Nat.mul_le_mul hr hw.2.2
  unfold bufferBytes
  omega

/-- The byte of a storage bit stands in its buffer's storage. -/
theorem byteAddr_bounds {p : Params} (hl : p.legal) (i : Buf) {r c : Nat} (hr : r < p.rmax) (hc : c < p.cmax) :
    wbase i ≤ byteAddr p i r c ∧ byteAddr p i r c < wbase i + bufferBytes p := by
  have hw := Params.legal_wpr hl
  have h2 : (r + 1) * p.wpr ≤ p.rmax * p.wpr := Nat.mul_le_mul_right _ hr
  rw [Nat.succ_mul] at h2
  unfold byteAddr waddr bufferBytes
  omega

/-- The byte of a storage bit, counted from its buffer's first. -/
theorem byteAddr_eq {p : Params} (i : Buf) (r c : Nat) : byteAddr p i r c = wbase i + (r * (4 * p.wpr) + c / 8) := by
  have : r * (4 * p.wpr) = 4 * (r * p.wpr) := by ac_rfl
  unfold byteAddr waddr
  omega

/-- Two bits of one buffer share a byte only in one row and one eighth of a row. -/
theorem byteAddr_inj {p : Params} (hl : p.legal) (i : Buf) {r c r' c' : Nat} (hc : c < p.cmax) (hc' : c' < p.cmax)
    (h : byteAddr p i r c = byteAddr p i r' c') : r = r' ∧ c / 8 = c' / 8 := by
  have hw := Params.legal_wpr hl
  rw [byteAddr_eq, byteAddr_eq] at h
  have e : r * (4 * p.wpr) + c / 8 = r' * (4 * p.wpr) + c' / 8 := by omega
  have h1 : c / 8 < 4 * p.wpr := by omega
  have h2 : c' / 8 < 4 * p.wpr := by omega
  have hr := congrArg (· / (4 * p.wpr)) e
  simp only [Nat.mul_comm _ (4 * p.wpr), Nat.mul_add_div (show 4 * p.wpr > 0 by omega), Nat.div_eq_of_lt h1,
    Nat.div_eq_of_lt h2, Nat.add_zero] at hr
  subst hr
  exact ⟨rfl, by omega⟩

/-- The storages of two buffers are apart. -/
theorem storage_disjoint {p : Params} (hl : p.legal) {i j : Buf} {a : Nat} (hi : wbase i ≤ a ∧ a < wbase i + bufferBytes p)
    (hj : wbase j ≤ a ∧ a < wbase j + bufferBytes p) : i = j := by
  have := bufferBytes_le hl
  unfold wbase at hi hj
  exact Fin.ext (by omega)

/-! ### Bytes and bits -/

@[simp] theorem getLsbD_byteOfBits (f : Nat → Bool) (t : Nat) : (byteOfBits f).getLsbD t = (decide (t < 8) && f t) := by
  by_cases h : t < 8 <;> simp [byteOfBits, h, BitVec.getLsbD_ofFnLE]

@[simp] theorem length_wordBytes (v : Word) : (wordBytes v).length = 4 := rfl

@[simp] theorem length_matrixBytes (p : Params) (V : Mat) : (matrixBytes p V).length = bufferBytes p := by
  simp [matrixBytes]

theorem storeByte_of_read {s : State} {a : Nat} {b : Byte} (h : s.mem.read a = some b) : s.storeByte a = b := by
  simp [State.storeByte, h]

/-- The byte of a committed matrix at a buffer's storage address. -/
theorem read_commit_inside {i : Buf} {V : Mat} {s : State} {n : Nat} (h : n < bufferBytes s.params) :
    (s.commit i V).mem.read (wbase i + n) = (matrixBytes s.params V)[n]? := by
  rw [State.commit_mem, Memory.read_writeBlock_inside (by omega) (by simpa using h)]
  congr 1
  omega

/-- A commit changes no byte outside its buffer's storage (R63). -/
theorem read_commit_outside {i : Buf} {V : Mat} {s : State} {a : Nat}
    (h : ¬ (wbase i ≤ a ∧ a < wbase i + bufferBytes s.params)) : (s.commit i V).mem.read a = s.mem.read a := by
  rw [State.commit_mem, Memory.read_writeBlock_outside (by simpa using h)]

theorem storeByte_commit_outside {i : Buf} {V : Mat} {s : State} {a : Nat}
    (h : ¬ (wbase i ≤ a ∧ a < wbase i + bufferBytes s.params)) : (s.commit i V).storeByte a = s.storeByte a := by
  rw [State.storeByte, read_commit_outside h, State.commit_epoch, State.storeByte]

/-- After a commit every storage bit of the buffer has been written (R63). -/
theorem bitSpecified_commit {i : Buf} {V : Mat} {s : State} (hl : s.params.legal) {r c : Nat} (hr : r < s.params.rmax)
    (hc : c < s.params.cmax) : (s.commit i V).bitSpecified i r c = true := by
  have hb := byteAddr_bounds hl i hr hc
  rw [State.bitSpecified, State.commit_params, show byteAddr s.params i r c =
    wbase i + (byteAddr s.params i r c - wbase i) by omega, read_commit_inside (by omega)]
  simp
  omega

/-- After a commit the buffer's storage holds the matrix inside its shape and 0 elsewhere (R63). -/
theorem storeBit_commit {i : Buf} {V : Mat} {s : State} (hl : s.params.legal) {r c : Nat} (hr : r < s.params.rmax)
    (hc : c < s.params.cmax) :
    (s.commit i V).storeBit i r c = if r < V.rows ∧ c < V.cols then V.get r c else false := by
  have hb := byteAddr_bounds hl i hr hc
  have hw := Params.legal_wpr hl
  have he := byteAddr_eq (p := s.params) i r c
  have hn : r * (4 * s.params.wpr) + c / 8 < bufferBytes s.params := by omega
  have h8 : c / 8 < 4 * s.params.wpr := by omega
  have hdiv : (r * (4 * s.params.wpr) + c / 8) / (4 * s.params.wpr) = r := by
    rw [Nat.mul_comm r, Nat.mul_add_div (by omega), Nat.div_eq_of_lt h8, Nat.add_zero]
  have hmod : (r * (4 * s.params.wpr) + c / 8) % (4 * s.params.wpr) = c / 8 := by
    rw [Nat.mul_comm r, Nat.mul_add_mod, Nat.mod_eq_of_lt h8]
  have hread : (s.commit i V).mem.read (byteAddr s.params i r c) = some (byteOfBits fun t =>
      if r < V.rows ∧ 8 * (c / 8) + t < V.cols then V.get r (8 * (c / 8) + t) else false) := by
    rw [he, read_commit_inside hn]
    simp only [matrixBytes, List.getElem?_map, List.getElem?_range hn, Option.map_some, hdiv, hmod]
  rw [State.storeBit, State.commit_params, storeByte_of_read hread, getLsbD_byteOfBits]
  simp only [show c % 8 < 8 by omega, decide_true, Bool.true_and, show 8 * (c / 8) + c % 8 = c by omega]

/-- A commit leaves the bits of the other buffers alone. -/
theorem storeBit_commit_other {i j : Buf} {V : Mat} {s : State} (hl : s.params.legal) (hij : j ≠ i) {r c : Nat}
    (hr : r < s.params.rmax) (hc : c < s.params.cmax) : (s.commit i V).storeBit j r c = s.storeBit j r c := by
  have hb := byteAddr_bounds hl j hr hc
  rw [State.storeBit, State.commit_params, storeByte_commit_outside fun h => hij (storage_disjoint hl hb h)]
  rfl

@[simp] theorem shapeOf_commit_self (i : Buf) (V : Mat) (s : State) :
    (s.commit i V).shapeOf i = ⟨BitVec.ofNat 8 V.rows, BitVec.ofNat 8 V.cols⟩ := by
  simp [State.shapeOf]

theorem shapeOf_commit_other {i j : Buf} {V : Mat} {s : State} (h : j ≠ i) : (s.commit i V).shapeOf j = s.shapeOf j := by
  simp [State.shapeOf, Fin.val_ne_of_ne (Ne.symm h)]

/-- What SHAPE_i reads after it is written (R13). -/
@[simp] theorem shapeOf_setShape_self (i : Buf) (sh : Shape) (s : State) : (State.setShape i sh s).shapeOf i = sh := by
  simp [State.shapeOf]

theorem shapeOf_setShape_other {i j : Buf} {sh : Shape} {s : State} (h : j ≠ i) :
    (State.setShape i sh s).shapeOf j = s.shapeOf j := by
  simp [State.shapeOf, Fin.val_ne_of_ne (Ne.symm h)]

/-- A word stored at `WADDR(i, r, w)` reads back (R32, R33). -/
theorem storeWord_setStoreWord (i : Buf) (r w : Nat) (v : Word) (s : State) :
    (State.setStoreWord i r w v s).storeWord i r w = v := by
  have h : ∀ k, k < 4 → (State.setStoreWord i r w v s).storeByte (waddr s.params i r w + k) = (wordBytes v)[k]! := by
    intro k hk
    apply storeByte_of_read
    rw [State.setStoreWord_mem, Memory.read_writeBlock_inside (by omega) (by simpa using hk)]
    rw [Nat.add_sub_cancel_left]
    match k, hk with
    | 0, _ | 1, _ | 2, _ | 3, _ => rfl
  have h0 := h 0 (by omega)
  rw [Nat.add_zero] at h0
  rw [State.storeWord, State.setStoreWord_params, h 3 (by omega), h 2 (by omega), h 1 (by omega), h0]
  apply BitVec.eq_of_getLsbD_eq
  intro t ht
  simp only [wordBytes, List.getElem!_cons_succ, List.getElem!_cons_zero, BitVec.getLsbD_append,
    BitVec.getLsbD_extractLsb']
  by_cases h1 : t < 8
  · simp [h1]
  · by_cases h2 : t < 16
    · simp [h1, show t - 8 < 8 by omega, show 8 + (t - 8) = t by omega]
    · by_cases h3 : t < 24
      · simp [h1, show ¬ t - 8 < 8 by omega, show t - 8 - 8 < 8 by omega, show 16 + (t - 8 - 8) = t by omega]
      · simp [h1, show ¬ t - 8 < 8 by omega, show ¬ t - 8 - 8 < 8 by omega, show t - 8 - 8 - 8 < 8 by omega,
          show 24 + (t - 8 - 8 - 8) = t by omega]

end Sys2Proof.Machine
end

