-- ==== Sys2Proof/Laws/Aperture.lean ====
section
/-! SUPPORT. The register map one register at a time, the window map, and what a host write can be. -/

namespace Sys2Proof.Machine

/-! ### The registers (R17) -/

@[simp] theorem targetOf_id (p : Params) : targetOf p 0#16 = .id := rfl

@[simp] theorem targetOf_param (p : Params) : targetOf p 4#16 = .param := rfl

@[simp] theorem targetOf_ctrl (p : Params) : targetOf p 8#16 = .ctrl := rfl

@[simp] theorem targetOf_status (p : Params) : targetOf p 12#16 = .status := rfl

@[simp] theorem targetOf_cmd (p : Params) : targetOf p 16#16 = .cmd := rfl

@[simp] theorem targetOf_result (p : Params) : targetOf p 20#16 = .result := rfl

@[simp] theorem targetOf_dcount (p : Params) : targetOf p 24#16 = .dcount := rfl

/-- SHAPE_i stands at 0x020 + 4i (R17). -/
theorem targetOf_shape (p : Params) (i : Buf) : targetOf p (BitVec.ofNat 16 (0x020 + 4 * i.val)) = .shape i := by
  match i with
  | 0 | 1 | 2 | 3 => rfl

@[simp] theorem readValue_id (s : State) : s.readValue 0#16 = idWord := rfl

@[simp] theorem readValue_param (s : State) : s.readValue 4#16 = paramWord s.params := rfl

@[simp] theorem readValue_ctrl (s : State) : s.readValue 8#16 = s.ctrlWord := rfl

@[simp] theorem readValue_status (s : State) : s.readValue 12#16 = s.statusWord := rfl

@[simp] theorem readValue_cmd (s : State) : s.readValue 16#16 = s.cmdLast := rfl

@[simp] theorem readValue_result (s : State) :
    s.readValue 20#16 = if s.busy then Config.freeRead s.fresh else s.result := rfl

@[simp] theorem readValue_dcount (s : State) :
    s.readValue 24#16 = if s.busy then Config.freeRead s.fresh else s.dcount := rfl

@[simp] theorem readValue_shape (s : State) (i : Buf) :
    s.readValue (BitVec.ofNat 16 (0x020 + 4 * i.val)) = (s.shapeOf i).toWord := by
  rw [State.readValue, targetOf_shape]

/-- DONE is bit 1 of STATUS (R21). -/
theorem statusWord_done (s : State) : s.statusWord.getLsbD 1 = s.done := by
  unfold State.statusWord
  rw [BitVec.getLsbD_append, BitVec.getLsbD_append]
  simp

/-- STATUS does not show how many turns of the latency are left (R21, R62). -/
theorem statusWord_turn {s : State} {w : Word} {m : Nat} (h : s.phase = .busy w m) (n : Nat) :
    ({ s with phase := .busy w n } : State).statusWord = s.statusWord := by
  simp [State.statusWord, State.busy, h]

@[simp] theorem hostWrite_id (v : Word) (s : State) : s.hostWrite 0#16 v = s := rfl

@[simp] theorem hostWrite_param (v : Word) (s : State) : s.hostWrite 4#16 v = s := rfl

@[simp] theorem hostWrite_result (v : Word) (s : State) : s.hostWrite 20#16 v = s := rfl

@[simp] theorem hostWrite_dcount (v : Word) (s : State) : s.hostWrite 24#16 v = s := rfl

@[simp] theorem hostWrite_ctrl (v : Word) (s : State) : s.hostWrite 8#16 v = State.writeCtrl v s := rfl

@[simp] theorem hostWrite_status (v : Word) (s : State) : s.hostWrite 12#16 v = State.writeStatus v s := rfl

@[simp] theorem hostWrite_cmd (v : Word) (s : State) :
    s.hostWrite 16#16 v = if s.busy then s.dropWrite else State.accept v s := rfl

theorem hostWrite_shape (v : Word) (s : State) (i : Buf) :
    s.hostWrite (BitVec.ofNat 16 (0x020 + 4 * i.val)) v =
      if s.busy then s.dropWrite else State.setShape i (Shape.ofWord v) s := by
  rw [State.hostWrite, targetOf_shape]

theorem hostWrite_reserved {off : Offset} {s : State} (h : targetOf s.params off = .reserved) (v : Word) :
    s.hostWrite off v = s := by
  rw [State.hostWrite, h]

theorem hostWrite_window {off : Offset} {s : State} {i : Buf} {r w : Nat} (h : targetOf s.params off = .window i r w)
    (v : Word) : s.hostWrite off v = if s.busy then s.dropWrite else State.setStoreWord i r w v s := by
  rw [State.hostWrite, h]

theorem writeCtrl_soft {v : Word} (h : v.getLsbD 1 = true) (s : State) : State.writeCtrl v s = s.softReset := by
  rw [State.writeCtrl, h, if_pos rfl]

theorem writeCtrl_enable {v : Word} (h : v.getLsbD 1 = false) (s : State) :
    State.writeCtrl v s = { s with irqEn := v.getLsbD 0 } := by
  rw [State.writeCtrl, h, if_neg Bool.false_ne_true]

/-- CMD stands at offset 0x010 alone (R17). -/
theorem targetOf_eq_cmd {p : Params} {off : Offset} (h : targetOf p off = .cmd) : off = 0x010 := by
  unfold targetOf windowWord registerAt at h
  split at h
  · split at h <;> cases h
  · split at h <;> first | exact BitVec.eq_of_toNat_eq (by assumption) | cases h

/-- CTRL stands at offset 0x008 alone (R17). -/
theorem targetOf_eq_ctrl {p : Params} {off : Offset} (h : targetOf p off = .ctrl) : off = 0x008 := by
  unfold targetOf windowWord registerAt at h
  split at h
  · split at h <;> cases h
  · split at h <;> first | exact BitVec.eq_of_toNat_eq (by assumption) | cases h

/-- What a host write can be, whatever its offset. -/
theorem hostWrite_cases (off : Offset) (v : Word) (s : State) :
    State.hostWrite off v s = s ∨
    (s.busy = true ∧ State.hostWrite off v s = s.dropWrite) ∨
    (s.busy = false ∧ off = 0x010 ∧ State.hostWrite off v s = State.accept v s) ∨
    (∃ i, s.busy = false ∧ State.hostWrite off v s = State.setShape i (Shape.ofWord v) s) ∨
    (∃ i r w, s.busy = false ∧ targetOf s.params off = .window i r w ∧
      State.hostWrite off v s = State.setStoreWord i r w v s) ∨
    State.hostWrite off v s = State.writeStatus v s ∨
    (off = 0x008 ∧ v.getLsbD 1 = true ∧ State.hostWrite off v s = s.softReset) ∨
    State.hostWrite off v s = { s with irqEn := v.getLsbD 0 } := by
  unfold State.hostWrite
  cases hT : targetOf s.params off with
  | id | param | result | dcount | reserved => exact .inl rfl
  | status => exact .inr (.inr (.inr (.inr (.inr (.inl rfl)))))
  | ctrl =>
    refine .inr (.inr (.inr (.inr (.inr (.inr ?_)))))
    cases hv : v.getLsbD 1 with
    | true => exact .inl ⟨targetOf_eq_ctrl hT, rfl, writeCtrl_soft hv s⟩
    | false => exact .inr (writeCtrl_enable hv s)
  | cmd =>
    cases hb : s.busy with
    | true => exact .inr (.inl ⟨rfl, rfl⟩)
    | false => exact .inr (.inr (.inl ⟨rfl, targetOf_eq_cmd hT, rfl⟩))
  | shape i =>
    cases hb : s.busy with
    | true => exact .inr (.inl ⟨rfl, rfl⟩)
    | false => exact .inr (.inr (.inr (.inl ⟨i, rfl, rfl⟩)))
  | window i r w =>
    cases hb : s.busy with
    | true => exact .inr (.inl ⟨rfl, rfl⟩)
    | false => exact .inr (.inr (.inr (.inr (.inl ⟨i, r, w, rfl, rfl, rfl⟩))))

/-! ### The aperture map -/

/-- The word at `WADDR(i, r, w)` is row r, word w of buffer i (R31). -/
theorem targetOf_waddr {p : Params} (hl : p.legal) (i : Buf) {r w : Nat} (hr : r < p.rmax) (hw : w < p.wpr) :
    targetOf p (BitVec.ofNat 16 (waddr p i r w)) = .window i r w := by
  have hb := bufferBytes_le hl
  have h1 : (r + 1) * p.wpr ≤ p.rmax * p.wpr := Nat.mul_le_mul_right _ hr
  rw [Nat.succ_mul] at h1
  have hi := i.isLt
  have hn : (BitVec.ofNat 16 (waddr p i r w)).toNat = 0x2000 + 0x2000 * i.val + 4 * (r * p.wpr + w) := by
    rw [BitVec.toNat_ofNat, Nat.mod_eq_of_lt] <;> unfold waddr wbase <;> unfold bufferBytes at hb <;> omega
  unfold bufferBytes at hb
  have hwin : windowOf (0x2000 + 0x2000 * i.val + 4 * (r * p.wpr + w)) = i := by
    apply Fin.ext
    show (0x2000 + 0x2000 * i.val + 4 * (r * p.wpr + w) - 0x2000) / 0x2000 % 4 = i.val
    omega
  have hidx : (0x2000 + 0x2000 * i.val + 4 * (r * p.wpr + w) - wbase i) / 4 = p.wpr * r + w := by
    have : p.wpr * r = r * p.wpr := Nat.mul_comm _ _
    unfold wbase
    omega
  unfold targetOf
  rw [hn, hwin, hidx, if_pos (by omega), windowWord, if_pos (by rw [Nat.mul_comm]; omega),
    Nat.mul_add_div (by omega), Nat.div_eq_of_lt hw, Nat.add_zero, Nat.mul_add_mod, Nat.mod_eq_of_lt hw]

/-- What stands outside the windows is no window. -/
theorem registerAt_ne_window (a : Nat) (i : Buf) (r w : Nat) : registerAt a ≠ .window i r w := by
  unfold registerAt
  split <;> simp

/-- A window word is a word of its buffer's storage (R31). -/
theorem targetOf_window {p : Params} {off : Offset} {i : Buf} {r w : Nat}
    (h : targetOf p off = .window i r w) : r < p.rmax ∧ w < p.wpr ∧ waddr p i r w = off.toNat - off.toNat % 4 := by
  unfold targetOf at h
  split at h
  · rename_i hr
    unfold windowWord at h
    split at h
    · rename_i hn
      cases h
      have hp : 0 < p.wpr := by
        rcases Nat.eq_zero_or_pos p.wpr with h0 | h0
        · simp [h0] at hn
        · exact h0
      refine ⟨Nat.div_lt_of_lt_mul (by rwa [Nat.mul_comm]), Nat.mod_lt _ hp, ?_⟩
      unfold waddr
      rw [Nat.mul_comm _ p.wpr, Nat.div_add_mod]
      have hw : wbase (windowOf off.toNat) = 0x2000 + 0x2000 * ((off.toNat - 0x2000) / 0x2000 % 4) := rfl
      omega
    · cases h
  · exact absurd h (registerAt_ne_window _ i r w)

end Sys2Proof.Machine
end

