-- ==== Sys2Proof/Laws/Exec.lean ====
section
/-! SUPPORT. What a command's completion can be, whichever command it is, and what each shape of completion leaves in the state. -/

namespace Sys2Proof.Machine

theorem inRange_iff (s : State) (b : Buf) :
    s.inRange b = true ↔ s.rowsOf b ≤ s.params.rmax ∧ s.colsOf b ≤ s.params.cmax := by
  simp [State.inRange, fitsBuffer]

theorem inRange_eq_false_iff (s : State) (b : Buf) : s.inRange b = false ↔ s.outOfRange b := by
  rw [← Bool.not_eq_true, inRange_iff, State.outOfRange]
  omega

theorem specified_iff (s : State) (b : Buf) :
    s.specified b = true ↔ ∀ r < s.rowsOf b, ∀ c < s.colsOf b, s.bitSpecified b r c = true := by
  simp [State.specified]

theorem ready_iff (s : State) (b : Buf) : s.Ready b ↔ s.inRange b = true ∧ s.specified b = true := by
  rw [State.Ready, inRange_iff, specified_iff]

/-- The next state of a success. -/
theorem complete_eq (d : Option (Buf × Mat)) (res dc : Word) (s : State) :
    complete d res dc s = .next { (s.commitDest d).finish with result := res, dcount := dc, errcode := .none } := rfl

/-- A success is what `Succeeded` says. -/
theorem complete_succeeded {d : Option (Buf × Mat)} {res dc : Word} {s t : State}
    (h : complete d res dc s = .next t) : Succeeded s t res dc := by
  cases h
  rcases d with _ | ⟨i, V⟩ <;> rfl

/-- A failure is what `State.failed` says. -/
theorem raiseError_eq (code : ErrCode) (s : State) : raiseError code s = .next (s.failed code) := rfl

/-- What a legal command can do (R62, R101): it completes with success, with an error, or as a command that read unspecified
storage. Its destination, where it has one, is the buffer its RD names. -/
theorem exec_cases (i : Instr) (s : State) :
    (∃ d res dc, d.map Prod.fst = i.destination ∧ exec i s = complete d res dc s) ∨
    (∃ code, code ≠ .none ∧ exec i s = raiseError code s) ∨
    (∃ d, d.map Prod.fst = i.destination ∧ exec i s = completeUnspecified d s) ∨
    (∃ rd rs1, i = .inv rd rs1 ∧ exec i s = raiseUnspecifiedSingular s) := by
  cases i with
  | nop => exact .inl ⟨none, 0, 0, rfl, rfl⟩
  | rank rs1 =>
    simp only [exec, execRank]
    split
    · exact .inr (.inl ⟨_, by simp, rfl⟩)
    split
    · exact .inr (.inr (.inl ⟨_, rfl, rfl⟩))
    · exact .inl ⟨_, _, _, rfl, rfl⟩
  | isinv rs1 =>
    simp only [exec, execIsinv]
    split
    · exact .inr (.inl ⟨_, by simp, rfl⟩)
    split
    · exact .inr (.inl ⟨_, by simp, rfl⟩)
    split
    · exact .inr (.inr (.inl ⟨_, rfl, rfl⟩))
    · exact .inl ⟨_, _, _, rfl, rfl⟩
  | inv rd rs1 =>
    simp only [exec, execInv]
    split
    · exact .inr (.inl ⟨_, by simp, rfl⟩)
    split
    · exact .inr (.inl ⟨_, by simp, rfl⟩)
    split
    · split
      · exact .inr (.inr (.inr ⟨rd, rs1, rfl, rfl⟩))
      · exact .inr (.inr (.inl ⟨_, rfl, rfl⟩))
    split
    · exact .inr (.inl ⟨_, by simp, rfl⟩)
    · exact .inl ⟨_, _, _, rfl, rfl⟩
  | pinv rd rs1 =>
    simp only [exec, execPinv]
    split
    · exact .inr (.inl ⟨_, by simp, rfl⟩)
    split
    · exact .inr (.inl ⟨_, by simp, rfl⟩)
    split
    · exact .inr (.inr (.inl ⟨_, rfl, rfl⟩))
    · exact .inl ⟨_, _, _, rfl, rfl⟩
  | mmul rd rs1 rs2 =>
    simp only [exec, execMmul]
    split
    · exact .inr (.inl ⟨_, by simp, rfl⟩)
    split
    · exact .inr (.inl ⟨_, by simp, rfl⟩)
    split
    · exact .inr (.inl ⟨_, by simp, rfl⟩)
    split
    · exact .inr (.inr (.inl ⟨_, rfl, rfl⟩))
    · exact .inl ⟨_, _, _, rfl, rfl⟩
  | decode rd rs1 rs2 =>
    simp only [exec, execDecode]
    split
    · exact .inr (.inl ⟨_, by simp, rfl⟩)
    split
    · exact .inr (.inl ⟨_, by simp, rfl⟩)
    split
    · exact .inr (.inl ⟨_, by simp, rfl⟩)
    split
    · exact .inr (.inl ⟨_, by simp, rfl⟩)
    split
    · exact .inr (.inr (.inl ⟨_, rfl, rfl⟩))
    · exact .inl ⟨_, _, _, rfl, rfl⟩
  | reduce rd rs1 =>
    simp only [exec, execReduce]
    split
    · exact .inr (.inl ⟨_, by simp, rfl⟩)
    split
    · exact .inr (.inr (.inl ⟨_, rfl, rfl⟩))
    · exact .inl ⟨_, _, _, rfl, rfl⟩
  | madd rd rs1 rs2 =>
    simp only [exec, execMadd]
    split
    · exact .inr (.inl ⟨_, by simp, rfl⟩)
    split
    · exact .inr (.inl ⟨_, by simp, rfl⟩)
    split
    · exact .inr (.inl ⟨_, by simp, rfl⟩)
    split
    · exact .inr (.inr (.inl ⟨_, rfl, rfl⟩))
    · exact .inl ⟨_, _, _, rfl, rfl⟩
  | weight rs1 =>
    simp only [exec, execWeight]
    split
    · exact .inr (.inl ⟨_, by simp, rfl⟩)
    split
    · exact .inr (.inr (.inl ⟨_, rfl, rfl⟩))
    · exact .inl ⟨_, _, _, rfl, rfl⟩

/-- Every legal command has a next state: the engine never hangs and takes no trap (R64, R87). -/
theorem exec_next (i : Instr) (s : State) : ∃ t, exec i s = .next t := by
  rcases exec_cases i s with ⟨d, res, dc, -, h⟩ | ⟨code, -, h⟩ | ⟨d, -, h⟩ | ⟨_, _, -, h⟩ <;> exact ⟨_, h⟩

/-- So has every command word, legal or not (R50). -/
theorem runCommand_next (w : Word) (s : State) : ∃ t, runCommand w s = .next t := by
  unfold runCommand
  split
  · exact exec_next _ s
  · exact ⟨_, rfl⟩

/-- A committed buffer holds its matrix (R63), for a matrix that fits it. -/
theorem commit_holds {s : State} (hl : s.params.legal) {i : Buf} {V : Mat} (hr : V.rows ≤ s.params.rmax)
    (hc : V.cols ≤ s.params.cmax) : (s.commit i V).Holds i V.rows V.cols V.get where
  rows := by
    have := hl.2.1
    rw [State.rowsOf, shapeOf_commit_self, BitVec.toNat_ofNat]
    exact Nat.mod_eq_of_lt (by omega)
  cols := by
    have := hl.2.2.2.2.1
    rw [State.colsOf, shapeOf_commit_self, BitVec.toNat_ofNat]
    exact Nat.mod_eq_of_lt (by omega)
  bits rr hrr cc hcc := storeBit_commit hl hrr hcc
  written rr hrr cc hcc := bitSpecified_commit hl hrr hcc

/-- A commit keeps everything outside its buffer (R63). -/
theorem commit_keptOutside (s : State) (i : Buf) (V : Mat) : KeptOutside s (s.commit i V) i where
  shapes _ h := shapeOf_commit_other h
  bytes _ h := ⟨read_commit_outside h, storeByte_commit_outside h⟩

/-- The destination of a success holds the result. -/
theorem complete_holds {s t : State} {i : Buf} {V : Mat} {res dc : Word} (hl : s.params.legal) (hr : V.rows ≤ s.params.rmax)
    (hc : V.cols ≤ s.params.cmax) (h : complete (some (i, V)) res dc s = .next t) : t.Holds i V.rows V.cols V.get := by
  cases h
  exact { commit_holds hl hr hc with }

/-- A success keeps everything outside its destination. -/
theorem complete_keptOutside {s t : State} {i : Buf} {V : Mat} {res dc : Word}
    (h : complete (some (i, V)) res dc s = .next t) : KeptOutside s t i := by
  cases h
  exact { commit_keptOutside s i V with }

/-- A success without a destination keeps every buffer. -/
theorem complete_buffersKept {s t : State} {res dc : Word} (h : complete none res dc s = .next t) : BuffersKept s t := by
  cases h
  exact ⟨rfl, rfl⟩

/-- The operand a command reads: the entries of `x[b]` (R12). -/
@[simp] theorem matrix_rows (s : State) (b : Buf) : (s.matrix b).rows = s.rowsOf b := rfl

@[simp] theorem matrix_cols (s : State) (b : Buf) : (s.matrix b).cols = s.colsOf b := rfl

theorem get_matrix {s : State} {b : Buf} {r c : Nat} (hr : r < s.rowsOf b) (hc : c < s.colsOf b) :
    (s.matrix b).get r c = s.storeBit b r c := by
  simp [State.matrix, hr, hc]

/-- A matrix made from the entries of another has them inside its shape. -/
theorem State.Holds.of_entries {t : State} {i : Buf} {r c : Nat} {f g : Nat → Nat → Bool} (h : t.Holds i r c f)
    (hfg : ∀ rr < r, ∀ cc < c, f rr cc = g rr cc) : t.Holds i r c g where
  rows := h.rows
  cols := h.cols
  bits rr hrr cc hcc := by
    rw [h.bits rr hrr cc hcc]
    split
    · rename_i hh
      exact hfg rr hh.1 cc hh.2
    · rfl
  written := h.written

/-- What a buffer holds is what a command then reads from it, ready to be read. -/
theorem State.Holds.matrix_eq {t : State} {i : Buf} {r c : Nat} {f : Nat → Nat → Bool} (h : t.Holds i r c f)
    (hr : r ≤ t.params.rmax) (hc : c ≤ t.params.cmax) : t.matrix i = Mat.ofFn r c f := by
  rw [State.matrix, h.rows, h.cols]
  refine Mat.ofFn_congr fun a ha b hb => ?_
  rw [h.bits a (by omega) b (by omega), if_pos ⟨ha, hb⟩]

theorem State.Holds.ready {t : State} {i : Buf} {r c : Nat} {f : Nat → Nat → Bool} (h : t.Holds i r c f)
    (hr : r ≤ t.params.rmax) (hc : c ≤ t.params.cmax) : t.Ready i := by
  refine ⟨?_, ?_⟩
  · rw [h.rows, h.cols]
    exact ⟨hr, hc⟩
  · rw [h.rows, h.cols]
    exact fun a ha b hb => h.written a (by omega) b (by omega)

/-! ### Each command on operands that are ready and fit its rule -/

theorem exec_reduce_ready {s : State} {rs1 : Buf} (h : s.Ready rs1) (rd : Buf) :
    exec (.reduce rd rs1) s = complete (some (rd, (s.matrix rs1).reduceMod2)) 0 0 s := by
  rw [ready_iff] at h
  simp [exec, execReduce, h]

theorem exec_rank_ready {s : State} {rs1 : Buf} (h : s.Ready rs1) :
    exec (.rank rs1) s = complete none (BitVec.ofNat 32 (elim (s.matrix rs1) (s.colsOf rs1)).2) 0 s := by
  rw [ready_iff] at h
  simp [exec, execRank, h]

theorem exec_isinv_ready {s : State} {rs1 : Buf} (h : s.Ready rs1) (hs : s.rowsOf rs1 = s.colsOf rs1) :
    exec (.isinv rs1) s =
      complete none (if (elim (s.matrix rs1) (s.rowsOf rs1)).2 = s.rowsOf rs1 then 1 else 0) 0 s := by
  rw [ready_iff] at h
  simp [exec, execIsinv, h, hs]

theorem exec_inv_ready {s : State} {rs1 : Buf} (h : s.Ready rs1) (hs : s.rowsOf rs1 = s.colsOf rs1) (rd : Buf) :
    exec (.inv rd rs1) s =
      if (elim (s.matrix rs1).augment (s.rowsOf rs1)).1.columns 0 (s.rowsOf rs1) = .identity (s.rowsOf rs1) then
        complete (some (rd, (elim (s.matrix rs1).augment (s.rowsOf rs1)).1.columns (s.rowsOf rs1) (s.rowsOf rs1))) 0 0 s
      else raiseError .singular s := by
  rw [ready_iff] at h
  simp only [exec, execInv, h, hs, not_true_eq_false, ne_eq, if_false, ite_not]

theorem exec_pinv_ready {s : State} {rs1 : Buf} (h : s.Ready rs1) (hr : s.colsOf rs1 ≤ s.params.rmax)
    (hc : s.rowsOf rs1 ≤ s.params.cmax) (rd : Buf) :
    exec (.pinv rd rs1) s = complete (some (rd, (s.matrix rs1).transpose)) 0 0 s := by
  rw [ready_iff] at h
  simp [exec, execPinv, h, fitsBuffer, hr, hc]

theorem exec_mmul_ready {s : State} {rs1 rs2 : Buf} (h1 : s.Ready rs1) (h2 : s.Ready rs2)
    (hs : s.colsOf rs1 = s.rowsOf rs2) (rd : Buf) :
    exec (.mmul rd rs1 rs2) s = complete (some (rd, (s.matrix rs1).mul (s.matrix rs2))) 0 0 s := by
  rw [ready_iff] at h1 h2
  simp [exec, execMmul, h1, h2, hs]

theorem exec_madd_ready {s : State} {rs1 rs2 : Buf} (h1 : s.Ready rs1) (h2 : s.Ready rs2)
    (hr : s.rowsOf rs1 = s.rowsOf rs2) (hc : s.colsOf rs1 = s.colsOf rs2) (rd : Buf) :
    exec (.madd rd rs1 rs2) s = complete (some (rd, (s.matrix rs1).add (s.matrix rs2))) 0 0 s := by
  rw [ready_iff] at h1 h2
  simp [exec, execMadd, h1, h2, hr, hc]

theorem exec_weight_ready {s : State} {rs1 : Buf} (h : s.Ready rs1) :
    exec (.weight rs1) s = complete none (BitVec.ofNat 32 (s.matrix rs1).popcount) 0 s := by
  rw [ready_iff] at h
  simp [exec, execWeight, h]

theorem exec_decode_ready {s : State} {rs1 rs2 : Buf} (h1 : s.Ready rs1) (h2 : s.Ready rs2) (hr : s.rowsOf rs2 = 1)
    (hc : s.colsOf rs2 = s.colsOf rs1) (hk : s.rowsOf rs1 ≤ s.params.kmax) (rd : Buf) :
    exec (.decode rd rs1 rs2) s =
      complete
        (some (rd, candidate s.params.order (s.rowsOf rs1)
          (nearestCodeword s.params.order (s.matrix rs1) (s.matrix rs2)).bestI))
        (BitVec.ofNat 32 (nearestCodeword s.params.order (s.matrix rs1) (s.matrix rs2)).bestD)
        (BitVec.ofNat 32 (nearestCodeword s.params.order (s.matrix rs1) (s.matrix rs2)).count) s := by
  rw [ready_iff] at h1 h2
  simp [exec, execDecode, h1, h2, hr, hc, Nat.not_lt.mpr hk]

end Sys2Proof.Machine
end

