-- ==== Sys2Proof/Laws/PerInstr.lean ====
section
/-! SUPPORT. The statement made of every instruction as syntax, one lemma per constructor. -/

namespace Sys2Proof.Laws

/-- The instruction's fields pass every check of R50, and its word has the fixed bits of a row of R49. -/
def LegalEncoding.Statement (i : Instr) : Prop :=
  i.wellFormed = true ∧ (opTable.any fun row => encode i &&& row.mask == row.pattern) = true

theorem LegalEncoding.nop : LegalEncoding.Statement .nop := by
  unfold LegalEncoding.Statement
  decide

theorem LegalEncoding.rank (rs1 : Buf) : LegalEncoding.Statement (.rank rs1) := by
  unfold LegalEncoding.Statement
  revert rs1
  decide

theorem LegalEncoding.isinv (rs1 : Buf) : LegalEncoding.Statement (.isinv rs1) := by
  unfold LegalEncoding.Statement
  revert rs1
  decide

theorem LegalEncoding.inv (rd rs1 : Buf) : LegalEncoding.Statement (.inv rd rs1) := by
  unfold LegalEncoding.Statement
  revert rd rs1
  decide

theorem LegalEncoding.pinv (rd rs1 : Buf) : LegalEncoding.Statement (.pinv rd rs1) := by
  unfold LegalEncoding.Statement
  revert rd rs1
  decide

theorem LegalEncoding.mmul (rd rs1 rs2 : Buf) : LegalEncoding.Statement (.mmul rd rs1 rs2) := by
  unfold LegalEncoding.Statement
  revert rd rs1 rs2
  decide

theorem LegalEncoding.decode (rd rs1 rs2 : Buf) : LegalEncoding.Statement (.decode rd rs1 rs2) := by
  unfold LegalEncoding.Statement
  revert rd rs1 rs2
  decide

theorem LegalEncoding.reduce (rd rs1 : Buf) : LegalEncoding.Statement (.reduce rd rs1) := by
  unfold LegalEncoding.Statement
  revert rd rs1
  decide

theorem LegalEncoding.madd (rd rs1 rs2 : Buf) : LegalEncoding.Statement (.madd rd rs1 rs2) := by
  unfold LegalEncoding.Statement
  revert rd rs1 rs2
  decide

theorem LegalEncoding.weight (rs1 : Buf) : LegalEncoding.Statement (.weight rs1) := by
  unfold LegalEncoding.Statement
  revert rs1
  decide

/-- Every instruction is well formed: the type of its operands bounds them. -/
theorem instr_wellFormed (i : Instr) : i.wellFormed = true := by
  cases i with
  | nop => exact LegalEncoding.nop.1
  | rank rs1 => exact (LegalEncoding.rank rs1).1
  | isinv rs1 => exact (LegalEncoding.isinv rs1).1
  | inv rd rs1 => exact (LegalEncoding.inv rd rs1).1
  | pinv rd rs1 => exact (LegalEncoding.pinv rd rs1).1
  | mmul rd rs1 rs2 => exact (LegalEncoding.mmul rd rs1 rs2).1
  | decode rd rs1 rs2 => exact (LegalEncoding.decode rd rs1 rs2).1
  | reduce rd rs1 => exact (LegalEncoding.reduce rd rs1).1
  | madd rd rs1 rs2 => exact (LegalEncoding.madd rd rs1 rs2).1
  | weight rs1 => exact (LegalEncoding.weight rs1).1

end Sys2Proof.Laws
end

