-- ==== Sys2Proof/Laws/Step.lean ====
section
/-! SUPPORT. What a step can be. -/

namespace Sys2Proof.Machine

theorem step_idle {s : State} (h : s.phase = .idle) : step s = hostTurn s := by
  simp [step, nextTurn, h]

theorem step_complete {s : State} {w : Word} (h : s.phase = .busy w 0) : step s = runCommand w s := by
  simp [step, nextTurn, h]

theorem step_busy {s : State} {w : Word} {n : Nat} (h : s.phase = .busy w (n + 1)) :
    step s = hostTurn { s with phase := .busy w n } := by
  simp [step, nextTurn, h]

/-- A step is a completion, or the host's turn on the state itself or on the state with one turn of the latency gone. -/
theorem step_cases (s : State) :
    (∃ w, s.phase = .busy w 0 ∧ step s = runCommand w s) ∨
    (s.phase = .idle ∧ step s = hostTurn s) ∨
    (∃ w n, s.phase = .busy w (n + 1) ∧ step s = hostTurn { s with phase := .busy w n }) := by
  match h : s.phase with
  | .idle => exact .inr (.inl ⟨rfl, step_idle h⟩)
  | .busy w 0 => exact .inl ⟨w, rfl, step_complete h⟩
  | .busy w (n + 1) => exact .inr (.inr ⟨w, n, rfl, step_busy h⟩)

/-- What the outside world's turn can be. -/
theorem hostTurn_cases {s t : State} (h : hostTurn s = .next t) :
    (s.host = [] ∧ t = s) ∨
    (∃ off rest, s.host = .read off 4 :: rest ∧ off.toNat % 4 = 0 ∧ t = State.hostRead off { s with host := rest }) ∨
    (∃ off v rest, s.host = .write off 4 v :: rest ∧ off.toNat % 4 = 0 ∧
      t = State.hostWrite off v { s with host := rest }) ∨
    (∃ rest, s.host = .wait :: rest ∧
      ((s.done = true ∧ t = { s with host := rest, replies := s.statusWord :: s.replies }) ∨ (s.done = false ∧ t = s))) ∨
    (∃ rest, s.host = .hardReset :: rest ∧ t = State.hardReset { s with host := rest }) := by
  unfold hostTurn at h
  split at h
  · exact .inl ⟨by assumption, by cases h; rfl⟩
  · rename_i off size rest hh
    split at h
    · rename_i ha
      simp only [accessDefined, Bool.and_eq_true, decide_eq_true_eq] at ha
      cases h
      exact .inr (.inl ⟨off, rest, by rw [hh, ha.1], ha.2, rfl⟩)
    · cases h
  · rename_i off size v rest hh
    split at h
    · rename_i ha
      simp only [accessDefined, Bool.and_eq_true, decide_eq_true_eq] at ha
      cases h
      exact .inr (.inr (.inl ⟨off, v, rest, by rw [hh, ha.1], ha.2, rfl⟩))
    · cases h
  · rename_i rest hh
    refine .inr (.inr (.inr (.inl ⟨rest, hh, ?_⟩)))
    split at h
    · rename_i hd
      cases h
      exact .inl ⟨hd, rfl⟩
    · rename_i hd
      cases h
      exact .inr ⟨by simpa using hd, rfl⟩
  · rename_i rest hh
    cases h
    exact .inr (.inr (.inr (.inr ⟨rest, hh, rfl⟩)))

end Sys2Proof.Machine
end

