-- ==== Sys2Proof/Tests/Slice0.lean ====
section
/-! SUPPORT. Tests whose expected values are the spec's own (95_test_vectors.md unless a comment names a rule), and one witness for the
hypotheses of each statement that has any. -/

namespace Sys2Proof.Tests

open Sys2Proof.Machine

/-- A buffer of at most 32 columns loaded with its row words, as LOADM does (R55). -/
def load (i : Buf) (r c : Nat) (ws : List Word) (s : State) : State :=
  (ws.zipIdx.foldl (fun s x => State.setStoreWord i x.2 0 x.1 s) s).setShape i ⟨BitVec.ofNat 8 r, BitVec.ofNat 8 c⟩

/-- What a test looks at in the state a step or a command ends in. -/
def seen {α : Type} (r : Result) (f : State → α) : Option α :=
  match r with
  | .next t => some (f t)
  | .fault _ => none
  | .refused _ => none

/-- The first word of each of the first n rows of a buffer. -/
def rowWords (i : Buf) (n : Nat) (t : State) : List Word := (List.range n).map fun r => t.storeWord i r 0

/-- m0 = S, 3×3. -/
def stS : State := load 0 3 3 [0x3, 0x6, 0x7] .reset

/-- m0 singular, 3×3. -/
def stSingular : State := load 0 3 3 [0x3, 0x6, 0x5] .reset

/-- m0 = the permutation of 2.8, 3×3. -/
def stPerm : State := load 0 3 3 [0x2, 0x4, 0x1] .reset

/-- m0 = 2×3. -/
def stWide : State := load 0 2 3 [0x5, 0x6] .reset

/-- m1 = G, 3×6, and m3 = the received vector, 1×6. -/
def stDecode (y : Word) : State := load 1 3 6 [0x19, 0x2A, 0x34] (load 3 1 6 [y] .reset)

/-- m0 and m1 both 1×6, the sum's operands of 2.9. -/
def stPair : State := load 0 1 6 [0x0D] (load 1 1 6 [0x10] .reset)

/-- m0 = 3×3 whose storage nothing has written since reset. -/
def stUnwritten : State := State.setShape 0 ⟨3, 3⟩ .reset

/-- A busy engine: DECODE m3, m1, m3 accepted, two turns before it completes. -/
def stBusy : State := { (stDecode 0x3D).capture 0x3706 with phase := .busy 0x3706 2 }

/-! ### Well-formedness: one ill-formed term for each check of R50 -/

theorem test_wf_refuses_unassigned_opcode : FormatC.wellFormed ⟨0x0A, 0, 0, 0, 0, 0⟩ = false := by decide
theorem test_wf_refuses_reserved_low : FormatC.wellFormed ⟨0x01, 1, 0, 0, 0, 0⟩ = false := by decide
theorem test_wf_refuses_reserved_high : FormatC.wellFormed ⟨0x01, 0, 0, 0, 0, 1⟩ = false := by decide
theorem test_wf_refuses_unused_rd : FormatC.wellFormed ⟨0x01, 0, 1, 0, 0, 0⟩ = false := by decide
theorem test_wf_refuses_unused_rs1 : FormatC.wellFormed ⟨0x00, 0, 0, 1, 0, 0⟩ = false := by decide
theorem test_wf_refuses_unused_rs2 : FormatC.wellFormed ⟨0x03, 0, 1, 0, 1, 0⟩ = false := by decide
theorem test_wf_accepts_last_opcode : FormatC.wellFormed ⟨0x09, 0, 0, 3, 0, 0⟩ = true := by decide

/-! ### Decoding: each constructor by a word written out field by field (hi, RS2, RS1, RD, reserved, OP) from R45 and R49 -/

theorem test_decode_nop : decode (0b000000000000000000#18 ++ 0b00#2 ++ 0b00#2 ++ 0b00#2 ++ 0b000#3 ++ 0b00000#5) = .ok .nop := by
  decide
theorem test_decode_rank : decode (0b000000000000000000#18 ++ 0b00#2 ++ 0b10#2 ++ 0b00#2 ++ 0b000#3 ++ 0b00001#5) = .ok (.rank 2) := by
  decide
theorem test_decode_isinv : decode (0b000000000000000000#18 ++ 0b00#2 ++ 0b11#2 ++ 0b00#2 ++ 0b000#3 ++ 0b00010#5) = .ok (.isinv 3) := by
  decide
theorem test_decode_inv : decode (0b000000000000000000#18 ++ 0b00#2 ++ 0b00#2 ++ 0b01#2 ++ 0b000#3 ++ 0b00011#5) = .ok (.inv 1 0) := by
  decide
theorem test_decode_pinv : decode (0b000000000000000000#18 ++ 0b00#2 ++ 0b10#2 ++ 0b01#2 ++ 0b000#3 ++ 0b00100#5) = .ok (.pinv 1 2) := by
  decide
theorem test_decode_mmul : decode (0b000000000000000000#18 ++ 0b01#2 ++ 0b10#2 ++ 0b11#2 ++ 0b000#3 ++ 0b00101#5) = .ok (.mmul 3 2 1) := by
  decide
theorem test_decode_decode : decode (0b000000000000000000#18 ++ 0b11#2 ++ 0b01#2 ++ 0b11#2 ++ 0b000#3 ++ 0b00110#5) = .ok (.decode 3 1 3) := by
  decide
theorem test_decode_reduce : decode (0b000000000000000000#18 ++ 0b00#2 ++ 0b01#2 ++ 0b10#2 ++ 0b000#3 ++ 0b00111#5) = .ok (.reduce 2 1) := by
  decide
theorem test_decode_madd : decode (0b000000000000000000#18 ++ 0b01#2 ++ 0b00#2 ++ 0b10#2 ++ 0b000#3 ++ 0b01000#5) = .ok (.madd 2 0 1) := by
  decide
theorem test_decode_weight : decode (0b000000000000000000#18 ++ 0b00#2 ++ 0b01#2 ++ 0b00#2 ++ 0b000#3 ++ 0b01001#5) = .ok (.weight 1) := by
  decide

/-- The table of R49 as the spec prints it. -/
theorem test_opTable_is_R49 : opTable.map (fun r => (r.op, r.pattern, r.mask)) =
    [(0x00, 0x00000000, 0xFFFFFFFF), (0x01, 0x00000001, 0xFFFFF3FF), (0x02, 0x00000002, 0xFFFFF3FF),
     (0x03, 0x00000003, 0xFFFFF0FF), (0x04, 0x00000004, 0xFFFFF0FF), (0x05, 0x00000005, 0xFFFFC0FF),
     (0x06, 0x00000006, 0xFFFFC0FF), (0x07, 0x00000007, 0xFFFFF0FF), (0x08, 0x00000008, 0xFFFFC0FF),
     (0x09, 0x00000009, 0xFFFFF3FF)] := by decide

/-- 2.1, the illegal words of section 2.1 that differ from a legal one in one field. -/
theorem test_illegal_words : [0x0000000A, 0x0000001F, 0x00000020, 0x00000101, 0x00001003, 0x00000100, 0x00004005, 0x80000006,
    0xFFFFFFFF].all (fun w => decodeTableWord 32 w == none) = true := by decide

theorem test_encode_examples : encode (.inv 1 0) = 0x00000103 ∧ encode (.mmul 2 1 0) = 0x00000605 ∧
    encode (.decode 3 1 3) = 0x00003706 ∧ encode (.rank 2) = 0x00000801 := by decide

theorem test_assembler : assembleLine "mmul m2, m1, m0 ; product".toList = some (.mmul 2 1 0) ∧
    assembleLine "MMUL m2, m1".toList = none := by decide +kernel

/-! ### The commands -/

theorem test_nop_status : seen (exec .nop .reset) (fun t => (t.statusWord, t.result, t.dcount)) = some (0x2, 0, 0) := by decide

theorem test_rank_dependent_rows :
    seen (exec (.rank 0) (load 0 3 4 [0xD, 0x6, 0xB] .reset)) (fun t => t.result) = some 2 := by decide +kernel
theorem test_rank_cyclic :
    seen (exec (.rank 0) (load 0 4 4 [0x3, 0x6, 0xC, 0x9] .reset)) (fun t => t.result) = some 3 := by decide +kernel

theorem test_isinv_invertible :
    seen (exec (.isinv 0) stS) (fun t => (t.result, t.statusWord)) = some (1, 0x2) := by decide +kernel
theorem test_isinv_singular_is_no_error :
    seen (exec (.isinv 0) stSingular) (fun t => (t.result, t.statusWord)) = some (0, 0x2) := by decide +kernel

theorem test_inv_in_place : seen (exec (.inv 0 0) stS) (fun t => (rowWords 0 4 t, t.statusWord)) =
    some ([0x6, 0x7, 0x5, 0x0], 0x2) := by decide +kernel
theorem test_inv_singular : seen (exec (.inv 0 0) stSingular) (fun t => (rowWords 0 3 t, t.statusWord)) =
    some ([0x3, 0x6, 0x5], 0x606) := by decide +kernel

theorem test_pinv_permutation : seen (exec (.pinv 1 0) stPerm) (rowWords 1 3) = some [0x4, 0x1, 0x2] := by decide +kernel
theorem test_pinv_not_square : seen (exec (.pinv 1 0) stWide) (fun t => (rowWords 1 3 t, (t.shapeOf 1).toWord)) =
    some ([0x1, 0x2, 0x3], 0x00020003) := by decide +kernel

theorem test_mmul_vector : seen (exec (.mmul 3 3 0) (load 3 1 3 [0x5] stS)) (rowWords 3 1) = some [0x4] := by decide +kernel
theorem test_mmul_order : seen (exec (.mmul 2 2 1) (load 2 3 3 [0x3, 0x6, 0x7] (load 1 3 6 [0x19, 0x2A, 0x34] .reset)))
    (fun t => (rowWords 2 3 t, (t.shapeOf 2).toWord)) = some ([0x33, 0x1E, 0x07], 0x00060003) := by decide +kernel

theorem test_decode_one_error : seen (exec (.decode 3 1 3) (stDecode 0x3D))
    (fun t => (t.storeWord 3 0 0, t.result, t.dcount, (t.shapeOf 3).toWord)) = some (0x5, 1, 8, 0x00030001) := by decide +kernel
theorem test_decode_tie_msb : seen (exec (.decode 3 1 3) (stDecode 0x38))
    (fun t => (t.storeWord 3 0 0, t.result, t.dcount)) = some (0x4, 2, 8) := by decide +kernel
theorem test_decode_tie_lsb :
    seen (exec (.decode 3 1 3) { stDecode 0x38 with params := { Params.default with order := .lexLsbFirst } })
      (fun t => (t.storeWord 3 0 0, t.result, t.dcount)) = some (0x1, 2, 8) := by decide +kernel

/-- 2.4: the bit outside the shape is 0 after the command. -/
theorem test_reduce_clears_outside : seen (exec (.reduce 0 0) (load 0 2 3 [0x25, 0x6] .reset)) (rowWords 0 2) = some [0x5, 0x6] := by
  decide +kernel
theorem test_reduce_copies : seen (exec (.reduce 2 0) stWide) (fun t => (rowWords 2 2 t, (t.shapeOf 2).toWord, t.result)) =
    some ([0x5, 0x6], 0x00030002, 0) := by decide +kernel

theorem test_madd_sum : seen (exec (.madd 2 0 1) stPair) (rowWords 2 1) = some [0x1D] := by decide +kernel
theorem test_madd_self : seen (exec (.madd 1 0 0) stS) (rowWords 1 3) = some [0x0, 0x0, 0x0] := by decide +kernel

theorem test_weight_matrix : seen (exec (.weight 0) stS) (fun t => t.result) = some 7 := by decide +kernel
theorem test_weight_ignores_outside :
    seen (exec (.weight 0) (load 0 1 6 [0xFFFFFFD2] .reset)) (fun t => t.result) = some 2 := by decide +kernel

/-! ### Errors and their priority (2.11) -/

theorem test_shape_range_over_not_square :
    seen (exec (.isinv 0) (State.setShape 0 ⟨3, 65⟩ .reset)) (fun t => t.statusWord) = some 0x206 := by decide
theorem test_mismatch_over_k_range : seen (exec (.decode 3 1 3) (State.setShape 1 ⟨21, 7⟩ (State.setShape 3 ⟨1, 6⟩ .reset)))
    (fun t => t.statusWord) = some 0x406 := by decide
theorem test_k_range : seen (exec (.decode 3 1 3) (State.setShape 1 ⟨21, 6⟩ (State.setShape 3 ⟨1, 6⟩ .reset)))
    (fun t => t.statusWord) = some 0x506 := by decide
theorem test_pinv_result_range :
    seen (exec (.pinv 1 0) (State.setShape 0 ⟨1, 40⟩ (State.powerOn { Params.default with rmax := 32 }))) (fun t => t.statusWord) =
      some 0x206 := by decide
theorem test_illegal_command : seen (step (State.reset.withFetchWord 32 0x0000000A)) (fun t => (t.statusWord, t.cmdLast)) =
    some (0x106, 0x0000000A) := by decide

/-! ### The aperture (2.2) and the step -/

theorem test_waddr : waddr .default 1 3 1 = 0x401C ∧ waddr .default 3 63 1 = 0x81FC := by decide
theorem test_shape_write_keeps_fields_only :
    ((State.reset.hostWrite 0x020 0xFFFFFFFF).readValue 0x020) = 0x00FF00FF := by decide
theorem test_window_write_reads_back :
    ((State.reset.hostWrite 0x81FC 0x80000005).readValue 0x81FC) = 0x80000005 := by decide
theorem test_window_beyond_rows_is_reserved :
    (State.reset.hostWrite 0x8200 0x5).readValue 0x8200 = 0 ∧ State.reset.hostWrite 0x8200 0x5 = .reset := by decide
theorem test_param_default : State.reset.readValue 0x004 = 0x04144040 := by decide

/-- P1's first command through the step: INV m1, m0 accepted and completing. -/
theorem test_step_runs_inv : seen (step (stS.withFetchWord 32 0x103)) (fun t => (rowWords 1 3 t, t.statusWord, t.cmdLast)) =
    some ([0x6, 0x7, 0x5], 0x2, 0x103) := by decide +kernel

/-- Three steps: two polls of a busy engine, then the completion (R62). -/
theorem test_busy_counts_down : seen (runFor 3 { stBusy with host := [.wait] }) (fun t => (t.result, t.dcount, t.host)) =
    some (1, 8, [.wait]) := by decide +kernel

/-- R55: LOADM of S into m0. -/
theorem test_loadm_events : loadm .default 0 3 3 [0x3, 0x6, 0x7] =
    [.write 0x0020 4 0x00030003, .write 0x2000 4 0x3, .write 0x2008 4 0x6, .write 0x2010 4 0x7] := by decide

/-- R101: a rank of unwritten storage still completes. -/
theorem test_unwritten_completes : seen (exec (.rank 0) stUnwritten) (fun t => (t.statusWord, t.phase)) = some (0x2, .idle) := by
  decide

/-! ### Witnesses: the hypotheses of each statement hold together somewhere -/

theorem stS_ready : stS.Ready 0 := by
  unfold State.Ready
  decide +kernel

theorem stSingular_ready : stSingular.Ready 0 := by
  unfold State.Ready
  decide +kernel

theorem stPerm_ready : stPerm.Ready 0 := by
  unfold State.Ready
  decide +kernel

theorem stWide_ready : stWide.Ready 0 := by
  unfold State.Ready
  decide +kernel

theorem stPair_ready : stPair.Ready 0 ∧ stPair.Ready 1 := by
  unfold State.Ready
  decide +kernel

theorem stDecode_ready : (stDecode 0).Ready 1 ∧ (stDecode 0).Ready 3 := by
  unfold State.Ready
  decide +kernel

theorem stUnwritten_not_ready : ¬ stUnwritten.Ready 0 := by
  unfold State.Ready
  decide +kernel

theorem witness_WordSelectsItsOpcodeRow : decode 0x00000103 = .ok (.inv 1 0) := by decide

/-- Each clause of R50 at a boundary: the first and the last reserved opcode, each end of both reserved fields, each unused operand;
and the last assigned opcode, which is legal. -/
theorem witness_IllegalWordsAreRejectedAndReported :
    ([0x0000000A, 0x0000001F, 0x00000021, 0x00000081, 0x00004001, 0x80000001, 0x00000101, 0x00000400, 0x00001001] : List Word).all
      (fun w => match decode w with | .error _ => true | .ok _ => false) = true ∧
    decode 0x00000C09 = .ok (.weight 3) ∧ State.reset.phase = .idle ∧
    (State.reset.withFetchWord 32 0x0A).phase = .busy 0x0A 0 := by decide

theorem witness_DecodeEncodeAgree : (Instr.mmul 3 2 1).wellFormed = true ∧ decode 0x00001B05 = .ok (.mmul 3 2 1) := by decide

theorem witness_StepRunsDecodedCommand :
    (State.reset.withFetchWord 32 0x103).phase = .busy 0x103 0 ∧ decode 0x103 = .ok (.inv 1 0) ∧ State.reset.phase = .idle ∧
      stBusy.phase = .busy 0x3706 (1 + 1) := by decide

theorem witness_CommandWriteIsAccepted :
    State.reset.phase = .idle ∧ ({ State.reset with host := [.write 0x010 4 0] } : State).host = .write 0x010 4 0 :: [] ∧
      stBusy.phase = .busy 0x3706 2 := by decide

theorem witness_AcceptedCommandCompletes :
    ({ stBusy with host := [.write 0x008 4 1, .read 0x00C 4, .hardReset] } : State).phase = .busy 0x3706 2 ∧
      ∀ e ∈ ({ stBusy with host := [.write 0x008 4 1, .read 0x00C 4, .hardReset] } : State).host.take 2, LetsCommandRun e := by
  refine ⟨rfl, ?_⟩
  intro e he
  simp only [List.take_succ_cons, List.take_zero, List.mem_cons, List.not_mem_nil, or_false] at he
  rcases he with rfl | rfl
  · exact ⟨rfl, rfl, by decide⟩
  · exact ⟨rfl, rfl⟩

theorem witness_CmdReadsLastAcceptedWord :
    State.reset.phase = .idle ∧ stBusy.phase = .busy 0x3706 2 ∧ runCommand 0x0A .reset = .next (State.reset.failed .illegal) ∧
      (∃ t, step { State.reset with host := [.write 0x010 4 0x0A] } = .next t ∧ t.readValue 0x010 ≠ State.reset.readValue 0x010) ∧
      (∃ t, step { stBusy with host := [.write 0x008 4 0x2] } = .next t ∧ t.readValue 0x010 ≠ stBusy.readValue 0x010) ∧
      ∃ t, step { stBusy with host := [.hardReset] } = .next t ∧ t.readValue 0x010 ≠ stBusy.readValue 0x010 :=
  ⟨rfl, rfl, rfl, ⟨_, rfl, by decide⟩, ⟨_, rfl, by decide⟩, ⟨_, rfl, by decide⟩⟩

/-- Both ends of what is inside the interface, and an access outside it by its size and by its offset; in both phases. -/
theorem witness_OnlyAlignedWordAccessesArePerformed :
    State.reset.phase = .idle ∧ stBusy.phase = .busy 0x3706 (1 + 1) ∧
      ({ State.reset with host := [.read 0xFFFC 4] } : State).host = .read 0xFFFC 4 :: [] ∧
      ({ State.reset with host := [.read 0x002 4] } : State).host = .read 0x002 4 :: [] ∧
      ({ stBusy with host := [.write 0x000 2 0] } : State).host = .write 0x000 2 0 :: [] := ⟨rfl, rfl, rfl, rfl, rfl⟩

/-- WAIT at an idle engine with DONE and without, and at a busy one. -/
theorem witness_WaitEndsOnDone :
    ({ State.reset with host := [.wait], done := true } : State).host = .wait :: [] ∧
      ({ State.reset with host := [.wait], done := true } : State).done = true ∧
      ({ State.reset with host := [.wait] } : State).done = false ∧ State.reset.phase = .idle ∧
      ({ stBusy with host := [.wait] } : State).host = .wait :: [] ∧ stBusy.phase = .busy 0x3706 (1 + 1) ∧
      stBusy.done = false := ⟨rfl, rfl, rfl, rfl, rfl, rfl, rfl⟩

theorem witness_ParamReportsTheParameters : State.reset.params.legal ∧ step .reset = .next .reset := ⟨by decide, rfl⟩

theorem witness_CtrlHoldsIrqEnable : (0x1 : Word).getLsbD 1 = false ∧ (0x3 : Word).getLsbD 1 = true := by decide

theorem witness_ShapeWriteStoresItsFields : State.reset.phase = .idle ∧ (3 : Buf) ≠ 0 := by decide

theorem reset_storage (i : Buf) (a : Nat) (h : InStorage State.reset.params i a) : a % 0x2000 < 0x200 := by
  have h' : 0x2000 + 0x2000 * i.val ≤ a ∧ a < 0x2000 + 0x2000 * i.val + 512 := h
  omega

/-- Each reserved range at both its ends, and a window's reserved part at both its ends. -/
theorem witness_ReservedReadsZeroAndIgnoresWrites :
    State.reset.params.legal ∧ (0x01C : Offset).toNat = 0x01C ∧ (0x030 : Offset).toNat = 0x030 ∧ (0x1FFC : Offset).toNat ≤ 0x1FFF ∧
      0xA000 ≤ (0xA000 : Offset).toNat ∧ (0xFFFC : Offset).toNat % 4 = 0 ∧
      (∀ i, ¬ InStorage State.reset.params i (0x2200 : Offset).toNat) ∧
      ∀ i, ¬ InStorage State.reset.params i (0x9FFC : Offset).toNat :=
  ⟨by decide, rfl, rfl, by decide, by decide, rfl, fun i h => absurd (reset_storage i _ h) (by decide),
    fun i h => absurd (reset_storage i _ h) (by decide)⟩

theorem witness_InterruptOutputFollowsDone :
    runCommand 0 .reset = .next { State.reset with done := true } ∧ (0x2 : Word).getLsbD 1 = true ∧ (0x2 : Word).getLsbD 0 = false ∧
      State.reset.phase = .idle := ⟨rfl, by decide, by decide, rfl⟩

theorem witness_ReadsHaveNoSideEffects : State.reset.phase = .idle := rfl

/-- The last word of a buffer, idle and busy. -/
theorem witness_WindowWriteSetsItsWord :
    State.reset.params.legal ∧ 63 < State.reset.params.rmax ∧ 1 < State.reset.params.wpr ∧ State.reset.phase = .idle ∧
      stBusy.params = State.reset.params ∧ stBusy.phase = .busy 0x3706 2 := by decide

/-- Storage at the first and the last word of a window and the other dropped registers; an ignored offset beside each. -/
theorem witness_BusyEngineDropsWrites :
    stBusy.params.legal ∧ stBusy.phase = .busy 0x3706 (1 + 1) ∧ InStorage stBusy.params 0 (0x2000 : Offset).toNat ∧
      InStorage stBusy.params 3 (0x81FC : Offset).toNat ∧
      (∀ i, ¬ InStorage stBusy.params i (0x8200 : Offset).toNat) ∧ stBusy.host.head? ≠ some .hardReset ∧
      ∃ t, step stBusy = .next t :=
  ⟨by decide, rfl, ⟨by decide, by decide⟩, ⟨by decide, by decide⟩,
    fun i h => absurd (reset_storage i _ h) (by decide), by decide, _, rfl⟩

theorem witness_BusyReadsAreUnspecified :
    stBusy.params.legal ∧ stBusy.phase = .busy 0x3706 2 ∧ InStorage stBusy.params 3 (0x81FC : Offset).toNat :=
  ⟨by decide, rfl, by decide, by decide⟩

theorem witness_SoftResetAborts :
    (0x2 : Word).getLsbD 1 = true ∧ ({ stBusy with host := [.write 0x008 4 0x2] } : State).host = .write 0x008 4 0x2 :: [] ∧
      ∀ w, ({ stBusy with host := [.write 0x008 4 0x2] } : State).phase ≠ .busy w 0 := by
  refine ⟨by decide, rfl, fun w h => ?_⟩
  cases h

theorem witness_HardResetGivesTheTable :
    ({ stBusy with host := [.hardReset] } : State).host = .hardReset :: [] ∧
      ∀ w, ({ stBusy with host := [.hardReset] } : State).phase ≠ .busy w 0 := by
  refine ⟨rfl, fun w h => ?_⟩
  cases h

/-- A whole buffer, 64×64, and an empty matrix. -/
theorem witness_LoadmLoadsTheMatrix :
    State.reset.params.legal ∧ State.reset.phase = .idle ∧ 64 ≤ State.reset.params.rmax ∧ 64 ≤ State.reset.params.cmax ∧
      ({ State.reset with host := loadm State.reset.params 3 64 64 [] } : State).host =
        loadm State.reset.params 3 64 64 [] ++ [] := by
  refine ⟨by decide, rfl, by decide, by decide, ?_⟩
  rw [List.append_nil]

theorem witness_ReduceCopiesTheMatrix : stWide.params.legal ∧ stWide.Ready 0 := ⟨by decide, stWide_ready⟩

theorem witness_RankCompletesWithPivotCount : stS.Ready 0 := stS_ready

theorem witness_RankIsTheMatrixRank : stWide.Ready 0 := stWide_ready

theorem witness_IsinvCompletesOnSquare : stS.Ready 0 ∧ stS.rowsOf 0 = stS.colsOf 0 := ⟨stS_ready, by decide⟩

/-- A matrix with an inverse: the one 2.7 gives for S. -/
theorem stS_hasInverse : HasInverse stS 0 :=
  ⟨.ofFn 3 3 fun i j => (([0x6, 0x7, 0x5] : List Nat).getD i 0).testBit j, rfl, rfl, by decide +kernel⟩

/-- And one without: the all-zero 1×1 matrix, whose every product is 0. -/
theorem zero_noInverse : ¬ HasInverse (load 0 1 1 [0x0] .reset) 0 := by
  rintro ⟨B, hr, -, h⟩
  have hz : (B.mul ((load 0 1 1 [0x0] .reset).matrix 0)).get 0 0 = false := by
    rw [Mat.get_mul (by rw [hr]; decide) (by decide)]
    have e : ∀ l, ((load 0 1 1 [0x0] .reset).matrix 0).get l 0 = false := by
      intro l
      have hm : (load 0 1 1 [0x0] .reset).matrix 0 = Mat.ofFn 1 1 fun _ _ => false := by decide +kernel
      rw [hm, Mat.get_ofFn, Bool.and_false]
    simp only [e, Bool.and_false]
    generalize B.cols = n
    induction n with
    | zero => rfl
    | succ n ih => rw [xorSum, ih]; rfl
  rw [h] at hz
  exact absurd hz (by decide)

theorem witness_IsinvDecidesInvertibility : stS.Ready 0 ∧ stS.rowsOf 0 = stS.colsOf 0 ∧ HasInverse stS 0 ∧
    (load 0 1 1 [0x0] .reset).Ready 0 ∧ ¬ HasInverse (load 0 1 1 [0x0] .reset) 0 := by
  refine ⟨stS_ready, by decide, stS_hasInverse, ?_, zero_noInverse⟩
  unfold State.Ready
  decide +kernel

theorem witness_InvReturnsTheInverseOrSingular : stS.params.legal ∧ stS.Ready 0 ∧ stS.rowsOf 0 = stS.colsOf 0 ∧
    HasInverse stS 0 ∧ (load 0 1 1 [0x0] .reset).params.legal ∧ (load 0 1 1 [0x0] .reset).Ready 0 ∧
    ¬ HasInverse (load 0 1 1 [0x0] .reset) 0 := by
  refine ⟨by decide, stS_ready, by decide, stS_hasInverse, by decide, ?_, zero_noInverse⟩
  unfold State.Ready
  decide +kernel

theorem witness_InvSucceedsWhereIsinvAnswersOne : stSingular.Ready 0 ∧ stSingular.rowsOf 0 = stSingular.colsOf 0 :=
  ⟨stSingular_ready, by decide⟩

theorem witness_PinvTransposes : stWide.params.legal ∧ stWide.Ready 0 ∧ stWide.colsOf 0 ≤ stWide.params.rmax ∧
    stWide.rowsOf 0 ≤ stWide.params.cmax := ⟨by decide, stWide_ready, by decide, by decide⟩

theorem witness_PinvInvertsPermutations : stPerm.params.legal ∧ stPerm.Ready 0 ∧ (1 : Buf) ≠ 0 ∧ stPerm.rowsOf 0 = 3 ∧
    stPerm.colsOf 0 = 3 ∧ (∀ i < 3, countOnes 3 (fun j => stPerm.storeBit 0 i j) = 1) ∧
    (∀ j < 3, countOnes 3 (fun i => stPerm.storeBit 0 i j) = 1) :=
  ⟨by decide, stPerm_ready, by decide, by decide, by decide, by decide +kernel, by decide +kernel⟩

theorem witness_MmulComputesTheProduct : stS.params.legal ∧ stS.Ready 0 ∧ stS.colsOf 0 = stS.rowsOf 0 :=
  ⟨by decide, stS_ready, by decide⟩

theorem witness_MaddAddsEntrywise : stPair.params.legal ∧ stPair.Ready 0 ∧ stPair.Ready 1 ∧ stPair.rowsOf 0 = stPair.rowsOf 1 ∧
    stPair.colsOf 0 = stPair.colsOf 1 := ⟨by decide, stPair_ready.1, stPair_ready.2, by decide, by decide⟩

theorem witness_WeightCountsOnes : stS.Ready 0 := stS_ready

theorem witness_WeightOfSumIsHammingDistance : stPair.params.legal ∧ stPair.Ready 0 ∧ stPair.Ready 1 ∧
    stPair.rowsOf 0 = stPair.rowsOf 1 ∧ stPair.colsOf 0 = stPair.colsOf 1 :=
  ⟨by decide, stPair_ready.1, stPair_ready.2, by decide, by decide⟩

theorem witness_DecodeFindsFirstNearestCodeword : (stDecode 0).params.legal ∧ (stDecode 0).Ready 1 ∧ (stDecode 0).Ready 3 ∧
    (stDecode 0).rowsOf 3 = 1 ∧ (stDecode 0).colsOf 3 = (stDecode 0).colsOf 1 ∧ (stDecode 0).rowsOf 1 ≤ (stDecode 0).params.kmax :=
  ⟨by decide, stDecode_ready.1, stDecode_ready.2, by decide, by decide, by decide⟩

theorem witness_DecodeOfZeroVectorStopsAtOnce : (stDecode 0).params.legal ∧ (stDecode 0).Ready 1 ∧ (stDecode 0).Ready 3 ∧
    (stDecode 0).rowsOf 3 = 1 ∧ (stDecode 0).colsOf 3 = (stDecode 0).colsOf 1 ∧ (stDecode 0).rowsOf 1 ≤ (stDecode 0).params.kmax ∧
    ∀ j < (stDecode 0).colsOf 3, (stDecode 0).storeBit 3 0 j = false :=
  ⟨by decide, stDecode_ready.1, stDecode_ready.2, by decide, by decide, by decide, by decide +kernel⟩

/-- Each check of R84 at its boundary: 65 rows (RMAX is 64), a 3×4 matrix that is not square, k = 21 (KMAX is 20), a shape that is
in range itself and not when transposed; and a command that passes. -/
theorem witness_FirstFailingCheckIsReported :
    (State.setShape 0 ⟨65, 0⟩ .reset).outOfRange 0 ∧
      (State.setShape 0 ⟨3, 4⟩ .reset).shapeFault (.isinv 0) = some .notSquare ∧ ¬ (State.setShape 0 ⟨64, 64⟩ .reset).outOfRange 0 ∧
      (State.setShape 1 ⟨21, 0⟩ (State.setShape 3 ⟨1, 0⟩ .reset)).limitFault (.decode 3 1 3) = some .kRange ∧
      (State.setShape 1 ⟨21, 0⟩ (State.setShape 3 ⟨1, 0⟩ .reset)).shapeFault (.decode 3 1 3) = none ∧
      (State.setShape 0 ⟨1, 33⟩ (State.powerOn { Params.default with rmax := 32 })).limitFault (.pinv 1 0) = some .shapeRange ∧
      stS.PassesChecks (.inv 1 0) := by
  refine ⟨.inl (by decide), by decide, ?_, by decide, by decide, by decide, ?_, by decide, by decide⟩
  · unfold State.outOfRange
    decide
  · intro b hb
    rw [List.mem_singleton.mp hb]
    unfold State.outOfRange
    decide

theorem witness_FailuresArePrecise : exec (.isinv 0) (State.setShape 0 ⟨3, 4⟩ .reset) =
    .next ((State.setShape 0 ⟨3, 4⟩ .reset).failed .notSquare) ∧
    ((State.setShape 0 ⟨3, 4⟩ .reset).failed .notSquare).errcode ≠ .none := ⟨rfl, by decide⟩

theorem witness_UnspecifiedOperandsStillComplete : stUnwritten.params.legal ∧ stUnwritten.PassesChecks (.inv 1 0) ∧
    ∃ b ∈ (Instr.inv 1 0).sources, ¬ stUnwritten.Ready b := by
  refine ⟨by decide, ⟨?_, by decide, by decide⟩, 0, List.mem_singleton.mpr rfl, stUnwritten_not_ready⟩
  intro b hb
  rw [List.mem_singleton.mp hb]
  unfold State.outOfRange
  decide

theorem witness_ScalarCommandsFrame : ScalarCommand .nop ∧ exec .nop .reset = .next { State.reset with done := true } :=
  ⟨.inl rfl, rfl⟩

theorem witness_StoringCommandsFrame : StoringCommand (.reduce 2 0) 2 ∧ ∃ t, exec (.reduce 2 0) stWide = .next t :=
  ⟨.inl ⟨0, .inl rfl⟩, exec_next _ _⟩

theorem witness_OnlyNamedBuffersMatter : stS.params.legal ∧ (load 1 3 6 [0x19, 0x2A, 0x34] stS).params = stS.params ∧
    (∀ b ∈ (Instr.inv 1 0).sources, SameOperand stS (load 1 3 6 [0x19, 0x2A, 0x34] stS) b) ∧
    (∀ b ∈ (Instr.inv 1 0).sources, stS.Ready b) ∧ ∃ t, exec (.inv 1 0) stS = .next t := by
  refine ⟨by decide, by decide, ?_, ?_, exec_next _ _⟩ <;> intro b hb <;> rw [List.mem_singleton.mp hb]
  · unfold SameOperand
    decide +kernel
  · unfold State.Ready
    decide +kernel

/-- Two separate buffers with one matrix, and aliased ones. -/
theorem witness_AliasedOperandsActAsCopies : (load 1 3 3 [0x3, 0x6, 0x7] stS).Ready 0 ∧ (load 1 3 3 [0x3, 0x6, 0x7] stS).Ready 1 ∧
    (load 1 3 3 [0x3, 0x6, 0x7] stS).matrix 1 = (load 1 3 3 [0x3, 0x6, 0x7] stS).matrix 0 := by
  unfold State.Ready
  decide +kernel

theorem witness_EveryStepKeepsTheInvariant :
    ({ State.reset with phase := .busy 0 1 } : State).Inv ∧ ∃ t, step { State.reset with phase := .busy 0 1 } = .next t := by
  refine ⟨⟨by decide, Memory.wf_nil, by simp [State.reset, State.powerOn], ?_, by simp [State.reset, State.powerOn]⟩, _, rfl⟩
  intro w n h
  cases h
  exact ⟨rfl, rfl, rfl, rfl⟩

theorem witness_DoneRisesOnlyAtCompletion : ∃ t, step (State.reset.withFetchWord 32 0) = .next t ∧
    (State.reset.withFetchWord 32 0).done = false ∧ t.done = true := ⟨_, rfl, rfl, rfl⟩

theorem witness_WobRisesOnlyOnDroppedWrite : stBusy.params.legal ∧
    ∃ t, step { stBusy with host := [.write 0x010 4 0] } = .next t ∧ stBusy.wob = false ∧ t.wob = true :=
  ⟨by decide, _, rfl, rfl, rfl⟩

/-- Each of the three events. -/
theorem witness_BuffersChangeOnlyByTheseEvents : State.reset.params.legal ∧
    (∃ t, step { State.reset with host := [.write 0x2000 4 5] } = .next t ∧ t.mem ≠ []) ∧
    (∃ t, step { stS with host := [.hardReset] } = .next t ∧ t.mem ≠ stS.mem) ∧
    ∃ t, step (stS.withFetchWord 32 0x103) = .next t ∧ t.mem.length ≠ stS.mem.length := by
  refine ⟨by decide, ⟨_, rfl, by decide⟩, ⟨_, rfl, by decide⟩, ?_⟩
  obtain ⟨t, ht⟩ := runCommand_next 0x103 (stS.withFetchWord 32 0x103)
  refine ⟨t, ht, ?_⟩
  have h : seen (runCommand 0x103 (stS.withFetchWord 32 0x103)) (fun t => t.mem.length) = some 524 := by decide +kernel
  rw [ht] at h
  simp only [seen, Option.some.injEq] at h
  rw [h]
  decide

/-- A command that leaves RESULT not 0, one that leaves both not 0, one that fails, and an illegal word. -/
theorem witness_ResultAndDcountReadTheLastCompletion :
    ({ stS with host := [.read 0x014 4] } : State).phase = .idle ∧ (∀ b ∈ (Instr.rank 0).sources, stS.Ready b) ∧
      seen (exec (.rank 0) stS) (fun t => t.readValue 0x014) = some 3 ∧
      seen (exec (.decode 3 1 3) (stDecode 0x3D)) (fun t => (t.readValue 0x014, t.readValue 0x018)) = some (1, 8) ∧
      seen (exec (.inv 1 0) stSingular) (fun t => t.errcode) = some .singular ∧ decode 0x0A = .error .unassignedOpcode := by
  refine ⟨by decide, ?_, by decide +kernel, by decide +kernel, by decide +kernel, by decide⟩
  intro b hb
  rw [List.mem_singleton.mp hb]
  exact stS_ready

end Sys2Proof.Tests
end

section
/-! The invariant of the whole machine, operation by operation: the storage writes, the two completions (R62, R83), the host's
writes (R33, R58, R98) and the two resets (R94, R95). Each keeps `State.Inv`, and a step is one of them. -/

namespace Sys2Proof.Machine

variable {s t : State}

/-! ### Storage writes -/

/-- A block written inside one buffer's storage lists only storage. -/
theorem Memory.writeBlock_inStorage {p : Params} {m : Memory} {i : Buf} {a : Nat} {bs : List Byte}
    (hm : ∀ x ∈ m, ∃ j, InStorage p j x.1) (hstart : wbase i ≤ a) (hend : a + bs.length ≤ wbase i + bufferBytes p) :
    ∀ x ∈ m.writeBlock a bs, ∃ j, InStorage p j x.1 := by
  intro x hx
  rcases Memory.mem_writeBlock hx with ⟨hlow, hhigh⟩ | hold
  · exact ⟨i, hstart.trans hlow, hhigh.trans_le hend⟩
  · exact hm x hold

/-- The four bytes of a window word stand in its buffer's storage (R31). -/
theorem waddr_bounds {p : Params} (i : Buf) {r w : Nat} (hr : r < p.rmax) (hw : w < p.wpr) :
    wbase i ≤ waddr p i r w ∧ waddr p i r w + 4 ≤ wbase i + bufferBytes p := by
  have hrow : (r + 1) * p.wpr ≤ p.rmax * p.wpr := Nat.mul_le_mul_right _ hr
  rw [Nat.succ_mul] at hrow
  unfold waddr bufferBytes
  omega

theorem State.Inv.setStoreWord (h : s.Inv) (i : Buf) {r w : Nat} (hr : r < s.params.rmax) (hw : w < s.params.wpr)
    (v : Word) : (State.setStoreWord i r w v s).Inv :=
  have ⟨hstart, hend⟩ := waddr_bounds i hr hw
  { h with
    memCanonical := Memory.wf_writeBlock h.memCanonical _ _
    memInStorage := Memory.writeBlock_inStorage h.memInStorage hstart hend }

theorem State.Inv.commit (h : s.Inv) (i : Buf) (V : Mat) : (s.commit i V).Inv :=
  { h with
    memCanonical := Memory.wf_writeBlock h.memCanonical _ _
    memInStorage := Memory.writeBlock_inStorage (i := i) h.memInStorage le_rfl (by simp) }

theorem State.Inv.commitDest (h : s.Inv) : ∀ d : Option (Buf × Mat), (s.commitDest d).Inv
  | none => h
  | some (i, V) => h.commit i V

/-! ### Completion -/

/-- An idle engine has no busy flags to show, so a completion has only ERR and its code to account for. -/
theorem State.Inv.finish_with (h : s.Inv) {res dc : Word} {err : Bool} {code : ErrCode} {n : Nat}
    (hcode : err = true → code ≠ .none) :
    ({ s.finish with result := res, dcount := dc, err := err, errcode := code, fresh := n } : State).Inv :=
  { h with
    busyFlags := fun _ _ hbusy => Phase.noConfusion hbusy
    errHasCode := hcode }

/-- A success clears the code without writing ERR (R62), so ERR has to be clear already. -/
theorem State.Inv.complete (h : s.Inv) (herr : s.err = false) {d : Option (Buf × Mat)} {res dc : Word}
    (ht : Machine.complete d res dc s = .next t) : t.Inv := by
  cases ht
  exact (h.commitDest d).finish_with (by simp [herr])

theorem State.Inv.raiseError (h : s.Inv) {code : ErrCode} (hcode : code ≠ .none)
    (ht : Machine.raiseError code s = .next t) : t.Inv := by
  cases ht
  exact h.finish_with fun _ => hcode

/-- Every legal command keeps the invariant where acceptance has cleared ERR (R58, R62). -/
theorem State.Inv.exec (h : s.Inv) (herr : s.err = false) (i : Instr) (ht : Machine.exec i s = .next t) : t.Inv := by
  obtain ⟨d, res, dc, -, he⟩ | ⟨code, hcode, he⟩ | ⟨d, -, he⟩ | ⟨rd, rs1, -, he⟩ := exec_cases i s <;> rw [he] at ht
  · exact h.complete herr ht
  · exact h.raiseError hcode ht
  · exact State.Inv.complete (s := { s with fresh := s.fresh + 1 }) { h with } herr ht
  · cases ht
    exact h.finish_with (by simp)

theorem State.Inv.runCommand (h : s.Inv) (herr : s.err = false) (w : Word) (ht : Machine.runCommand w s = .next t) :
    t.Inv := by
  unfold Machine.runCommand at ht
  split at ht
  · exact h.exec herr _ ht
  · exact h.raiseError (by simp) ht

/-! ### The host's turn -/

/-- Acceptance sets the very flags the invariant asks of a busy engine (R58). -/
theorem State.Inv.accept (h : s.Inv) (w : Word) : (State.accept w s).Inv :=
  { h with
    busyFlags := fun _ _ hbusy => by
      cases hbusy
      exact ⟨rfl, rfl, rfl, rfl⟩
    errHasCode := fun herr => Bool.noConfusion herr }

/-- A write to STATUS only clears flags and leaves the code (R21). -/
theorem State.Inv.writeStatus (h : s.Inv) (v : Word) : (State.writeStatus v s).Inv :=
  { h with
    busyFlags := fun w n hbusy => by
      obtain ⟨hdone, herr, hcode, hcmd⟩ := h.busyFlags w n hbusy
      exact ⟨by simp [hdone], by simp [herr], hcode, hcmd⟩
    errHasCode := fun herr => h.errHasCode (Bool.and_elim_left herr) }

theorem State.Inv.softReset (h : s.Inv) : s.softReset.Inv :=
  { h with
    busyFlags := fun _ _ hbusy => Phase.noConfusion hbusy
    errHasCode := fun herr => Bool.noConfusion herr }

/-- A hard reset lists no storage byte (R94). -/
theorem State.Inv.hardReset (h : s.Inv) : s.hardReset.Inv where
  paramsLegal := h.paramsLegal
  memCanonical := Memory.wf_nil
  memInStorage := by simp
  busyFlags _ _ hbusy := Phase.noConfusion hbusy
  errHasCode herr := Bool.noConfusion herr

theorem State.Inv.hostWrite (h : s.Inv) (off : Offset) (v : Word) : (State.hostWrite off v s).Inv := by
  obtain he | ⟨-, he⟩ | ⟨-, -, he⟩ | ⟨i, -, he⟩ | ⟨i, r, w, -, hwin, he⟩ | he | ⟨-, -, he⟩ | he :=
    hostWrite_cases off v s <;> rw [he]
  · exact h
  · exact { h with }
  · exact h.accept v
  · exact { h with }
  · obtain ⟨hr, hw, -⟩ := targetOf_window hwin
    exact h.setStoreWord i hr hw v
  · exact h.writeStatus v
  · exact h.softReset
  · exact { h with }

/-- The invariant does not read the pending events. -/
theorem State.Inv.withHost (h : s.Inv) (events : List HostEvent) : ({ s with host := events } : State).Inv :=
  { h with }

theorem State.Inv.hostTurn (h : s.Inv) (ht : Machine.hostTurn s = .next t) : t.Inv := by
  unfold Machine.hostTurn at ht
  cases hhost : s.host with
  | nil =>
    rw [hhost] at ht
    cases ht
    exact h
  | cons event rest =>
    rw [hhost] at ht
    cases event with
    | read off size =>
      dsimp only at ht
      split at ht <;> cases ht
      exact { h with }
    | write off size v =>
      dsimp only at ht
      split at ht <;> cases ht
      exact (h.withHost rest).hostWrite off v
    | wait =>
      dsimp only at ht
      split at ht <;> cases ht
      · exact { h with }
      · exact h
    | hardReset =>
      cases ht
      exact (h.withHost rest).hardReset

/-! ### The step -/

/-- A turn of the latency used up leaves the accepted word in the phase, and with it what the flags must show. -/
theorem State.Inv.turn (h : s.Inv) {w : Word} {m : Nat} (hphase : s.phase = .busy w m) (n : Nat) :
    ({ s with phase := .busy w n } : State).Inv :=
  { h with
    busyFlags := fun _ _ hbusy => by
      cases hbusy
      exact h.busyFlags w m hphase }

theorem State.Inv.step (h : s.Inv) (ht : Machine.step s = .next t) : t.Inv := by
  unfold Machine.step nextTurn at ht
  split at ht
  next => exact h.hostTurn ht
  next w hphase =>
    obtain ⟨-, herr, -, -⟩ := h.busyFlags w 0 hphase
    exact h.runCommand herr w ht
  next w left hphase => exact (h.turn hphase left).hostTurn ht

/-- Settles O53: the step is the host's turn or a completion, and each of their operations keeps the invariant. -/
theorem everyStepKeepsTheInvariant : Obligations.EveryStepKeepsTheInvariant :=
  fun _ _ h ht => h.step ht

end Sys2Proof.Machine
end

section
/-! What every completion leaves (R62), and what a step can be, told by the three things that change the engine: a completion, a host
write and a hard reset. -/

namespace Sys2Proof.Machine

variable {s t : State}

/-! ### Completion -/

/-- What t keeps of s where a command word has completed, with success or with an error (R62, R83). -/
structure Completed (s t : State) : Prop where
  params : t.params = s.params
  cmdLast : t.cmdLast = s.cmdLast
  wob : t.wob = s.wob
  phase : t.phase = .idle
  /-- A failure writes no buffer (R83). -/
  mem : t.errcode ≠ .none → t.mem = s.mem

theorem complete_completed {d : Option (Buf × Mat)} {res dc : Word} (h : complete d res dc s = .next t) :
    Completed s t := by
  cases h
  exact ⟨by simp, by simp, by simp, rfl, fun hcode => absurd rfl hcode⟩

theorem raiseError_completed {code : ErrCode} (h : raiseError code s = .next t) : Completed s t := by
  cases h
  exact ⟨rfl, rfl, rfl, rfl, fun _ => rfl⟩

theorem exec_completed {i : Instr} (h : exec i s = .next t) : Completed s t := by
  obtain ⟨d, res, dc, -, he⟩ | ⟨code, -, he⟩ | ⟨d, -, he⟩ | ⟨rd, rs1, -, he⟩ := exec_cases i s <;> rw [he] at h
  · exact complete_completed h
  · exact raiseError_completed h
  · exact { complete_completed h with }
  · cases h
    exact ⟨rfl, rfl, rfl, rfl, fun _ => rfl⟩

/-- An illegal word completes with ILLEGAL (R50). -/
theorem runCommand_illegal {w : Word} (h : ∃ e, decode w = .error e) (s : State) :
    runCommand w s = raiseError .illegal s := by
  obtain ⟨e, he⟩ := h
  rw [runCommand, he]
  rfl

theorem runCommand_completed {w : Word} (h : runCommand w s = .next t) : Completed s t := by
  cases hw : decode w with
  | ok i =>
    rw [runCommand, hw] at h
    exact exec_completed h
  | error e =>
    rw [runCommand_illegal ⟨e, hw⟩] at h
    exact raiseError_completed h

/-! ### The step -/

/-- The phases before a step and in the host's turn it gives: a busy engine uses up one turn of the latency (R62). -/
inductive HostTurnPhase : Phase → Phase → Prop where
  | idle : HostTurnPhase .idle .idle
  | busy (w : Word) (n : Nat) : HostTurnPhase (.busy w (n + 1)) (.busy w n)

theorem HostTurnPhase.eq_idle {ph : Phase} (h : HostTurnPhase ph .idle) : ph = .idle := by
  cases h
  rfl

theorem HostTurnPhase.eq_busy {ph : Phase} {w : Word} {n : Nat} (h : HostTurnPhase ph (.busy w n)) :
    ph = .busy w (n + 1) := by
  cases h
  rfl

/-- A turn of the outside world without a write or a reset changes only the model's own record of it (R36). -/
theorem hostTurn_effect (h : hostTurn s = .next t) :
    (∃ events rs n, t = { s with host := events, replies := rs, fresh := n }) ∨
    (∃ off v rest, s.host = .write off 4 v :: rest ∧ t = State.hostWrite off v { s with host := rest }) ∨
    ∃ rest, s.host = .hardReset :: rest ∧ t = State.hardReset { s with host := rest } := by
  obtain ⟨-, rfl⟩ | ⟨off, rest, -, -, rfl⟩ | ⟨off, v, rest, hhost, -, ht⟩ | ⟨rest, -, ⟨-, rfl⟩ | ⟨-, rfl⟩⟩ | hreset :=
    hostTurn_cases h
  · exact .inl ⟨_, _, _, rfl⟩
  · exact .inl ⟨_, _, _, rfl⟩
  · exact .inr (.inl ⟨off, v, rest, hhost, ht⟩)
  · exact .inl ⟨_, _, _, rfl⟩
  · exact .inl ⟨_, _, _, rfl⟩
  · exact .inr (.inr hreset)

/-- A step completes a command, or it is a turn that changes nothing of the engine, a host write or a hard reset. -/
theorem step_effect (h : step s = .next t) :
    (∃ w, s.phase = .busy w 0 ∧ Completed s t) ∨
    ∃ ph, HostTurnPhase s.phase ph ∧
      ((∃ events rs n, t = { s with phase := ph, host := events, replies := rs, fresh := n }) ∨
      (∃ off v rest, s.host = .write off 4 v :: rest ∧
        t = State.hostWrite off v { s with phase := ph, host := rest }) ∨
      ∃ rest, s.host = .hardReset :: rest ∧ t = State.hardReset { s with phase := ph, host := rest }) := by
  obtain ⟨w, hphase, hstep⟩ | ⟨hphase, hstep⟩ | ⟨w, n, hphase, hstep⟩ := step_cases s <;> rw [hstep] at h
  · exact .inl ⟨w, hphase, runCommand_completed h⟩
  · refine .inr ⟨.idle, hphase ▸ .idle, ?_⟩
    simpa [← hphase] using hostTurn_effect h
  · exact .inr ⟨.busy w n, hphase ▸ .busy w n, hostTurn_effect h⟩

end Sys2Proof.Machine
end

section
/-! The words the registers read as, field by field (R12, R19 to R21), and the masks of their reserved bits (R26). -/

namespace Sys2Proof.Machine

open BitVec (extractLsb'_append_eq_left extractLsb'_append_eq_right extractLsb'_append_eq_of_le getLsbD_append)

/-! ### PARAM (R19) -/

theorem paramWord_rmax (p : Params) : (paramWord p).extractLsb' 0 8 = BitVec.ofNat 8 p.rmax := by
  rw [paramWord, extractLsb'_append_eq_right]

theorem paramWord_cmax (p : Params) : (paramWord p).extractLsb' 8 8 = BitVec.ofNat 8 p.cmax := by
  rw [paramWord, extractLsb'_append_eq_of_le (by decide), extractLsb'_append_eq_right]

theorem paramWord_kmax (p : Params) : (paramWord p).extractLsb' 16 5 = BitVec.ofNat 5 p.kmax := by
  rw [paramWord, extractLsb'_append_eq_of_le (by decide), extractLsb'_append_eq_of_le (by decide),
    extractLsb'_append_eq_right]

theorem paramWord_gap (p : Params) : (paramWord p).extractLsb' 21 3 = 0 := by
  rw [paramWord, extractLsb'_append_eq_of_le (by decide), extractLsb'_append_eq_of_le (by decide),
    extractLsb'_append_eq_of_le (by decide), extractLsb'_append_eq_right]
  rfl

theorem paramWord_nbuf (p : Params) : (paramWord p).extractLsb' 24 3 = 4 := by
  rw [paramWord, extractLsb'_append_eq_of_le (by decide), extractLsb'_append_eq_of_le (by decide),
    extractLsb'_append_eq_of_le (by decide), extractLsb'_append_eq_of_le (by decide), extractLsb'_append_eq_right]
  rfl

theorem paramWord_order (p : Params) : (paramWord p).getLsbD 27 = true ↔ p.order = .lexLsbFirst := by
  rw [paramWord, getLsbD_append]
  simp only [getLsbD_append]
  simp

theorem paramWord_top (p : Params) : (paramWord p).extractLsb' 28 4 = 0 := by
  rw [paramWord, extractLsb'_append_eq_of_le (by decide), extractLsb'_append_eq_of_le (by decide),
    extractLsb'_append_eq_of_le (by decide), extractLsb'_append_eq_of_le (by decide),
    extractLsb'_append_eq_of_le (by decide), extractLsb'_append_eq_left]
  rfl

theorem paramWord_and_reserved (p : Params) : paramWord p &&& 0xF0E00000 = 0 := by
  have hmask : (0xF0E00000 : Word) = 0xF#4 ++ 0#1 ++ 0#3 ++ 7#3 ++ 0#5 ++ 0#8 ++ 0#8 := rfl
  rw [hmask, paramWord, BitVec.and_append]
  simp only [BitVec.and_append, BitVec.zero_and, BitVec.and_zero]
  rfl

/-! ### CTRL (R20) -/

theorem ctrlWord_eq (s : State) : s.ctrlWord = if s.irqEn then 1 else 0 := by
  unfold State.ctrlWord
  cases s.irqEn <;> rfl

theorem ctrlWord_and_reserved (s : State) : s.ctrlWord &&& 0xFFFFFFFC = 0 := by
  rw [ctrlWord_eq]
  cases s.irqEn <;> rfl

/-- A write to CTRL looks at bits 0 and 1 only. -/
theorem writeCtrl_and (v : Word) (s : State) : State.writeCtrl (v &&& 0x00000003) s = State.writeCtrl v s := by
  simp [State.writeCtrl]

/-- A write to CTRL does not set WOB. -/
theorem writeCtrl_wob {v : Word} {s : State} (h : (State.writeCtrl v s).wob = true) : s.wob = true := by
  cases hv : v.getLsbD 1 with
  | true => simp [writeCtrl_soft hv] at h
  | false => simpa [writeCtrl_enable hv] using h

/-! ### STATUS (R21) -/

theorem statusWord_busy (s : State) : s.statusWord.getLsbD 0 = s.busy := by
  rw [State.statusWord, getLsbD_append]
  simp

theorem statusWord_err (s : State) : s.statusWord.getLsbD 2 = s.err := by
  rw [State.statusWord, getLsbD_append]
  simp only [getLsbD_append]
  simp

theorem statusWord_wob (s : State) : s.statusWord.getLsbD 3 = s.wob := by
  rw [State.statusWord, getLsbD_append]
  simp only [getLsbD_append]
  simp

theorem statusWord_gap (s : State) : s.statusWord.extractLsb' 4 4 = 0 := by
  rw [State.statusWord, extractLsb'_append_eq_of_le (by decide), extractLsb'_append_eq_of_le (by decide),
    extractLsb'_append_eq_of_le (by decide), extractLsb'_append_eq_of_le (by decide), extractLsb'_append_eq_right]
  rfl

theorem statusWord_errcode (s : State) : s.statusWord.extractLsb' 8 4 = s.errcode.toBits := by
  rw [State.statusWord, extractLsb'_append_eq_of_le (by decide), extractLsb'_append_eq_of_le (by decide),
    extractLsb'_append_eq_of_le (by decide), extractLsb'_append_eq_of_le (by decide),
    extractLsb'_append_eq_of_le (by decide), extractLsb'_append_eq_right]

theorem statusWord_top (s : State) : s.statusWord.extractLsb' 12 20 = 0 := by
  rw [State.statusWord, extractLsb'_append_eq_of_le (by decide), extractLsb'_append_eq_of_le (by decide),
    extractLsb'_append_eq_of_le (by decide), extractLsb'_append_eq_of_le (by decide),
    extractLsb'_append_eq_of_le (by decide), extractLsb'_append_eq_left]
  rfl

theorem statusWord_and_reserved (s : State) : s.statusWord &&& 0xFFFFF0F0 = 0 := by
  have hmask : (0xFFFFF0F0 : Word) = 0xFFFFF#20 ++ 0#4 ++ 0xF#4 ++ 0#1 ++ 0#1 ++ 0#1 ++ 0#1 := rfl
  rw [hmask, State.statusWord, BitVec.and_append]
  simp only [BitVec.and_append, BitVec.zero_and, BitVec.and_zero]
  rfl

/-- A write to STATUS looks at bits 0 to 3 only. -/
theorem writeStatus_and (v : Word) (s : State) : State.writeStatus (v &&& 0x0000000F) s = State.writeStatus v s := by
  simp [State.writeStatus]

/-! ### The SHAPEs (R12, R13) -/

theorem Shape.ofWord_rows (v : Word) : (Shape.ofWord v).rows.toNat = v.toNat % 256 := by
  simp [Shape.ofWord]

theorem Shape.ofWord_cols (v : Word) : (Shape.ofWord v).cols.toNat = v.toNat / 65536 % 256 := by
  simp [Shape.ofWord, Nat.shiftRight_eq_div_pow]

/-- A word is its four bytes, the highest first. -/
theorem word_eq_bytes (v : Word) :
    v = v.extractLsb' 24 8 ++ v.extractLsb' 16 8 ++ v.extractLsb' 8 8 ++ v.extractLsb' 0 8 := by
  rw [BitVec.extractLsb'_append_extractLsb'_eq_extractLsb' (start₂ := 24) (start₁ := 16) (len₁ := 8) rfl,
    BitVec.extractLsb'_append_extractLsb'_eq_extractLsb' (start₂ := 16) (start₁ := 8) (len₁ := 8) rfl,
    BitVec.extractLsb'_append_extractLsb'_eq_extractLsb' (start₂ := 8) (start₁ := 0) (len₁ := 8) rfl]
  exact BitVec.extractLsb'_eq_self.symm

/-- A SHAPE reads back the two bytes of the word it was written with, and 0 in the other two. -/
theorem Shape.toWord_ofWord (v : Word) : (Shape.ofWord v).toWord = v &&& 0x00FF00FF := by
  have hmask : (0x00FF00FF : Word) = 0#8 ++ BitVec.allOnes 8 ++ 0#8 ++ BitVec.allOnes 8 := rfl
  conv_rhs => rw [word_eq_bytes v, hmask, BitVec.and_append]
  simp only [BitVec.and_append, BitVec.and_zero, BitVec.and_allOnes]
  rfl

theorem Shape.toWord_and_reserved (sh : Shape) : sh.toWord &&& 0xFF00FF00 = 0 := by
  have hmask : (0xFF00FF00 : Word) = 0xFF#8 ++ 0#8 ++ 0xFF#8 ++ 0#8 := rfl
  rw [hmask, Shape.toWord, BitVec.and_append]
  simp only [BitVec.and_append, BitVec.zero_and, BitVec.and_zero]
  rfl

theorem Shape.ofWord_and (v : Word) : Shape.ofWord (v &&& 0x00FF00FF) = Shape.ofWord v := by
  have hrows : BitVec.extractLsb' 0 8 (0x00FF00FF : Word) = BitVec.allOnes 8 := rfl
  have hcols : BitVec.extractLsb' 16 8 (0x00FF00FF : Word) = BitVec.allOnes 8 := rfl
  simp only [Shape.ofWord, BitVec.extractLsb'_and, hrows, hcols, BitVec.and_allOnes]

end Sys2Proof.Machine
end

section
/-! Where the offsets lead (R17, R31), and what one host write can change, field by field. -/

namespace Sys2Proof.Machine

variable {s t : State} {p : Params} {off : Offset} {v : Word}

/-! ### The map -/

/-- The SHAPEs stand at four offsets alone (R17). -/
theorem targetOf_eq_shape {i : Buf} (h : targetOf p off = .shape i) :
    off = 0x020 ∨ off = 0x024 ∨ off = 0x028 ∨ off = 0x02C := by
  unfold targetOf windowWord registerAt at h
  split at h
  · split at h <;> cases h
  · have hoff : off.toNat = 0x020 ∨ off.toNat = 0x024 ∨ off.toNat = 0x028 ∨ off.toNat = 0x02C := by
      split at h <;> cases h <;> omega
    simpa [← BitVec.toNat_inj] using hoff

/-- An offset that leads to a word of a window lies in that buffer's storage (R31). -/
theorem targetOf_window_inStorage {i : Buf} {r w : Nat} (h : targetOf p off = .window i r w) :
    InStorage p i off.toNat := by
  obtain ⟨hr, hw, haddr⟩ := targetOf_window h
  have hbounds := waddr_bounds i hr hw
  unfold wbase bufferBytes at hbounds
  unfold InStorage
  omega

theorem registerAt_reserved {a : Nat} (h : a = 0x01C ∨ 0x030 ≤ a) : registerAt a = .reserved := by
  unfold registerAt
  split
  case h_12 => rfl
  all_goals omega

/-- The part of a window beyond its storage is reserved (R31, V2). -/
theorem targetOf_window_tail (hwin : 0x2000 ≤ off.toNat ∧ off.toNat ≤ 0x9FFF)
    (htail : ∀ i, ¬ InStorage p i off.toNat) : targetOf p off = .reserved := by
  rw [targetOf, if_pos hwin, windowWord, if_neg]
  have hi : (windowOf off.toNat).val = (off.toNat - 0x2000) / 0x2000 % 4 := rfl
  have htail := htail (windowOf off.toNat)
  unfold InStorage at htail
  unfold wbase
  omega

/-- The reserved offsets (R17, R26), the part of each window beyond its storage among them (R31, V2). -/
theorem targetOf_reserved
    (h : off.toNat = 0x01C ∨ (0x030 ≤ off.toNat ∧ off.toNat ≤ 0x1FFF) ∨ 0xA000 ≤ off.toNat ∨
      ((0x2000 ≤ off.toNat ∧ off.toNat ≤ 0x9FFF) ∧ ∀ i, ¬ InStorage p i off.toNat)) :
    targetOf p off = .reserved := by
  by_cases hwin : 0x2000 ≤ off.toNat ∧ off.toNat ≤ 0x9FFF
  · have htail : ∀ i, ¬ InStorage p i off.toNat := by
      obtain h | h | h | ⟨-, htail⟩ := h
      case inr.inr.inr => exact htail
      all_goals omega
    exact targetOf_window_tail hwin htail
  · rw [targetOf, if_neg hwin, registerAt_reserved (by omega)]

theorem readValue_reserved (h : targetOf s.params off = .reserved) : s.readValue off = 0 := by
  rw [State.readValue, h]

theorem readValue_result_of_idle (h : s.phase = .idle) : s.readValue 0x014 = s.result :=
  if_neg (by simp [State.busy_of_idle h])

theorem readValue_dcount_of_idle (h : s.phase = .idle) : s.readValue 0x018 = s.dcount :=
  if_neg (by simp [State.busy_of_idle h])

/-! ### What one host write can change -/

@[simp] theorem hostWrite_params (off : Offset) (v : Word) (s : State) : (s.hostWrite off v).params = s.params := by
  obtain he | ⟨-, he⟩ | ⟨-, -, he⟩ | ⟨_, -, he⟩ | ⟨_, _, _, -, -, he⟩ | he | ⟨-, -, he⟩ | he :=
    hostWrite_cases off v s <;> simp [he]

/-- No host write sets DONE. -/
theorem hostWrite_done (hset : (s.hostWrite off v).done = true) : s.done = true := by
  revert hset
  obtain he | ⟨-, he⟩ | ⟨-, -, he⟩ | ⟨_, -, he⟩ | ⟨_, _, _, -, -, he⟩ | he | ⟨-, -, he⟩ | he :=
    hostWrite_cases off v s <;> simp +contextual [he]

/-- CMD changes only by acceptance (R23, R58) and by a soft reset (R95). -/
theorem hostWrite_cmdLast (h : (s.hostWrite off v).cmdLast ≠ s.cmdLast) :
    (s.busy = false ∧ off = 0x010 ∧ (s.hostWrite off v).cmdLast = v) ∨ (off = 0x008 ∧ v.getLsbD 1 = true) := by
  obtain he | ⟨-, he⟩ | ⟨hidle, hoff, he⟩ | ⟨_, -, he⟩ | ⟨_, _, _, -, -, he⟩ | he | ⟨hoff, hv, he⟩ | he :=
    hostWrite_cases off v s
  case inr.inr.inl => exact .inl ⟨hidle, hoff, congrArg State.cmdLast he⟩
  case inr.inr.inr.inr.inr.inr.inl => exact .inr ⟨hoff, hv⟩
  all_goals exact absurd (congrArg State.cmdLast he) h

/-- Memory changes only by a write to a window of an idle engine (R33, R98). -/
theorem hostWrite_mem (h : (s.hostWrite off v).mem ≠ s.mem) :
    s.busy = false ∧ ∃ i, InStorage s.params i off.toNat := by
  obtain he | ⟨-, he⟩ | ⟨-, -, he⟩ | ⟨_, -, he⟩ | ⟨i, r, w, hidle, hwin, he⟩ | he | ⟨-, -, he⟩ | he :=
    hostWrite_cases off v s
  case inr.inr.inr.inr.inl => exact ⟨hidle, i, targetOf_window_inStorage hwin⟩
  all_goals exact absurd (congrArg State.mem he) h

/-- Only a busy engine sets WOB on a write (R98). -/
theorem busy_of_hostWrite_wob (hset : (s.hostWrite off v).wob = true) (hclear : s.wob = false) : s.busy = true := by
  obtain he | ⟨hbusy, he⟩ | ⟨-, -, he⟩ | ⟨_, -, he⟩ | ⟨_, _, _, -, -, he⟩ | he | ⟨-, -, he⟩ | he :=
    hostWrite_cases off v s
  case inr.inl => exact hbusy
  all_goals simp [he, hclear] at hset

/-- A write that sets WOB went to CMD, a SHAPE or the storage of a window (R98). -/
theorem offset_of_hostWrite_wob (hset : (s.hostWrite off v).wob = true) (hclear : s.wob = false) :
    off = 0x010 ∨ off = 0x020 ∨ off = 0x024 ∨ off = 0x028 ∨ off = 0x02C ∨ ∃ i, InStorage s.params i off.toNat := by
  unfold State.hostWrite at hset
  cases htarget : targetOf s.params off with
  | cmd => exact .inl (targetOf_eq_cmd htarget)
  | shape i =>
    obtain hoff | hoff | hoff | hoff := targetOf_eq_shape htarget <;> simp [hoff]
  | window i r w =>
    have hin : ∃ j, InStorage s.params j off.toNat := ⟨i, targetOf_window_inStorage htarget⟩
    simp only [hin, or_true]
  | ctrl =>
    rw [htarget] at hset
    simp [writeCtrl_wob hset] at hclear
  | id | param | status | result | dcount | reserved => simp [htarget, hclear] at hset

/-- No step changes the parameters (R19). -/
theorem step_params (h : step s = .next t) : t.params = s.params := by
  obtain ⟨-, -, hdone⟩ | ⟨ph, -, ⟨_, _, _, rfl⟩ | ⟨off, v, rest, -, rfl⟩ | ⟨rest, -, rfl⟩⟩ := step_effect h
  · exact hdone.params
  · rfl
  · exact hostWrite_params off v _
  · rfl

end Sys2Proof.Machine
end

section
/-! The checks of R84, each with the code it raises, and what a command that passes them on ready sources writes to RESULT and
DCOUNT (R24, R25). -/

namespace Sys2Proof.Machine

variable {s : State} {i : Instr}

theorem inRange_of_sources (h : ∀ b ∈ i.sources, ¬ s.outOfRange b) : ∀ b ∈ i.sources, s.inRange b = true := by
  simpa only [← inRange_eq_false_iff, Bool.not_eq_false] using h

/-- Check 2 of R84: a source out of range (R13). -/
theorem exec_outOfRange (h : ∃ b ∈ i.sources, s.outOfRange b) : exec i s = raiseError .shapeRange s := by
  simp only [← inRange_eq_false_iff] at h
  cases i with
  | nop => simp [Instr.sources] at h
  | rank rs1 | isinv rs1 | weight rs1 =>
    have h1 : s.inRange rs1 = false := by simpa [Instr.sources] using h
    simp [exec, execRank, execIsinv, execWeight, h1]
  | inv rd rs1 | pinv rd rs1 | reduce rd rs1 =>
    have h1 : s.inRange rs1 = false := by simpa [Instr.sources] using h
    simp [exec, execInv, execPinv, execReduce, h1]
  | mmul rd rs1 rs2 | decode rd rs1 rs2 | madd rd rs1 rs2 =>
    have h12 : s.inRange rs1 = false ∨ s.inRange rs2 = false := by simpa [Instr.sources] using h
    obtain h1 | h2 := h12
    · simp [exec, execMmul, execDecode, execMadd, h1]
    · simp [exec, execMmul, execDecode, execMadd, h2]

/-- Check 3 of R84: the shapes of the sources do not fit the command's rule. -/
theorem exec_shapeFault {code : ErrCode} (hin : ∀ b ∈ i.sources, ¬ s.outOfRange b) (h : s.shapeFault i = some code) :
    exec i s = raiseError code s := by
  have hin := inRange_of_sources hin
  cases i with
  | nop | rank _ | pinv _ _ | reduce _ _ | weight _ => simp [State.shapeFault] at h
  | isinv rs1 | inv rd rs1 =>
    have h1 := hin rs1 (List.Mem.head _)
    simp only [State.shapeFault, Option.ite_none_right_eq_some, Option.some.injEq] at h
    simp [exec, execIsinv, execInv, h1, h]
  | mmul rd rs1 rs2 | decode rd rs1 rs2 | madd rd rs1 rs2 =>
    have h1 := hin rs1 (List.Mem.head _)
    have h2 := hin rs2 (List.Mem.tail _ (List.Mem.head _))
    simp only [State.shapeFault, Option.ite_none_right_eq_some, Option.some.injEq, ne_eq, Prod.mk.injEq, not_and_or] at h
    simp [exec, execMmul, execDecode, execMadd, h1, h2, h]

/-- Checks 4 and 5 of R84: PINV's result does not fit a buffer, or DECODE's k is above KMAX. -/
theorem exec_limitFault {code : ErrCode} (hin : ∀ b ∈ i.sources, ¬ s.outOfRange b) (hshape : s.shapeFault i = none)
    (h : s.limitFault i = some code) : exec i s = raiseError code s := by
  have hin := inRange_of_sources hin
  cases i with
  | nop | rank _ | isinv _ | inv _ _ | mmul _ _ _ | reduce _ _ | madd _ _ _ | weight _ => simp [State.limitFault] at h
  | pinv rd rs1 =>
    have h1 := hin rs1 (List.Mem.head _)
    simp only [State.limitFault, Option.ite_none_right_eq_some, Option.some.injEq] at h
    obtain ⟨hlimit, rfl⟩ := h
    have hfit : fitsBuffer s.params (s.colsOf rs1) (s.rowsOf rs1) = false := by
      rw [← Bool.not_eq_true, fitsBuffer, Bool.and_eq_true, decide_eq_true_eq, decide_eq_true_eq]
      omega
    simp [exec, execPinv, h1, hfit]
  | decode rd rs1 rs2 =>
    have h1 := hin rs1 (List.Mem.head _)
    have h2 := hin rs2 (List.Mem.tail _ (List.Mem.head _))
    simp only [State.shapeFault, ite_eq_right_iff, reduceCtorEq, imp_false] at hshape
    simp only [State.limitFault, Option.ite_none_right_eq_some, Option.some.injEq] at h
    simp [exec, execDecode, h1, h2, hshape, h]

/-- A command that fails one of the checks 2 to 5 of R84 raises an error. -/
theorem exec_of_not_passesChecks (h : ¬ s.PassesChecks i) : ∃ code, exec i s = raiseError code s := by
  by_cases hin : ∀ b ∈ i.sources, ¬ s.outOfRange b
  · cases hshape : s.shapeFault i with
    | some code => exact ⟨code, exec_shapeFault hin hshape⟩
    | none =>
      cases hlimit : s.limitFault i with
      | some code => exact ⟨code, exec_limitFault hin hshape hlimit⟩
      | none => exact absurd ⟨hin, hshape, hlimit⟩ h
  · push Not at hin
    exact ⟨_, exec_outOfRange hin⟩

/-- DECODE, the one command that counts candidates (R25). -/
def WritesDcount (i : Instr) : Prop := ∃ rd rs1 rs2, i = .decode rd rs1 rs2

/-- The commands whose rule gives RESULT a value (R24). -/
def WritesResult (i : Instr) : Prop :=
  (∃ rs1, i = .rank rs1 ∨ i = .isinv rs1 ∨ i = .weight rs1) ∨ ∃ rd rs1 rs2, i = .decode rd rs1 rs2

/-- Past the checks and on ready sources only INV can still fail, and the scalar results are 0 but where the command's rule gives
them. -/
theorem exec_of_ready (hchecks : s.PassesChecks i) (hready : ∀ b ∈ i.sources, s.Ready b) :
    (∃ code, exec i s = raiseError code s) ∨
      ∃ d res dc, exec i s = complete d res dc s ∧ (res ≠ 0 → WritesResult i) ∧ (dc ≠ 0 → WritesDcount i) := by
  obtain ⟨-, hshape, hlimit⟩ := hchecks
  cases i with
  | nop => exact .inr ⟨none, 0, 0, rfl, by simp, by simp⟩
  | rank rs1 =>
    have h1 := hready rs1 (List.Mem.head _)
    exact .inr ⟨_, _, _, exec_rank_ready h1, by simp [WritesResult], by simp⟩
  | isinv rs1 =>
    have h1 := hready rs1 (List.Mem.head _)
    have hs : s.rowsOf rs1 = s.colsOf rs1 := by simpa [State.shapeFault] using hshape
    exact .inr ⟨_, _, _, exec_isinv_ready h1 hs, by simp [WritesResult], by simp⟩
  | inv rd rs1 =>
    have h1 := hready rs1 (List.Mem.head _)
    have hs : s.rowsOf rs1 = s.colsOf rs1 := by simpa [State.shapeFault] using hshape
    rw [exec_inv_ready h1 hs]
    split
    · exact .inr ⟨_, _, _, rfl, by simp, by simp⟩
    · exact .inl ⟨_, rfl⟩
  | pinv rd rs1 =>
    have h1 := hready rs1 (List.Mem.head _)
    have ⟨hr, hc⟩ : s.colsOf rs1 ≤ s.params.rmax ∧ s.rowsOf rs1 ≤ s.params.cmax := by
      simpa [State.limitFault] using hlimit
    exact .inr ⟨_, _, _, exec_pinv_ready h1 hr hc rd, by simp, by simp⟩
  | mmul rd rs1 rs2 =>
    have h1 := hready rs1 (List.Mem.head _)
    have h2 := hready rs2 (List.Mem.tail _ (List.Mem.head _))
    have hs : s.colsOf rs1 = s.rowsOf rs2 := by simpa [State.shapeFault] using hshape
    exact .inr ⟨_, _, _, exec_mmul_ready h1 h2 hs rd, by simp, by simp⟩
  | decode rd rs1 rs2 =>
    have h1 := hready rs1 (List.Mem.head _)
    have h2 := hready rs2 (List.Mem.tail _ (List.Mem.head _))
    have ⟨hr, hc⟩ : s.rowsOf rs2 = 1 ∧ s.colsOf rs2 = s.colsOf rs1 := by simpa [State.shapeFault] using hshape
    have hk : s.rowsOf rs1 ≤ s.params.kmax := by simpa [State.limitFault] using hlimit
    exact .inr ⟨_, _, _, exec_decode_ready h1 h2 hr hc hk rd, by simp [WritesResult], by simp [WritesDcount]⟩
  | reduce rd rs1 =>
    have h1 := hready rs1 (List.Mem.head _)
    exact .inr ⟨_, _, _, exec_reduce_ready h1 rd, by simp, by simp⟩
  | madd rd rs1 rs2 =>
    have h1 := hready rs1 (List.Mem.head _)
    have h2 := hready rs2 (List.Mem.tail _ (List.Mem.head _))
    have ⟨hr, hc⟩ : s.rowsOf rs1 = s.rowsOf rs2 ∧ s.colsOf rs1 = s.colsOf rs2 := by
      simpa [State.shapeFault] using hshape
    exact .inr ⟨_, _, _, exec_madd_ready h1 h2 hr hc rd, by simp, by simp⟩
  | weight rs1 =>
    have h1 := hready rs1 (List.Mem.head _)
    exact .inr ⟨_, _, _, exec_weight_ready h1, by simp [WritesResult], by simp⟩

/-- Unspecified storage aside, a command raises an error or succeeds with the scalar results its rule gives. -/
theorem exec_scalars (h : (∀ b ∈ i.sources, s.Ready b) ∨ ¬ s.PassesChecks i) :
    (∃ code, exec i s = raiseError code s) ∨
      ∃ d res dc, exec i s = complete d res dc s ∧ (res ≠ 0 → WritesResult i) ∧ (dc ≠ 0 → WritesDcount i) := by
  by_cases hchecks : s.PassesChecks i
  · exact exec_of_ready hchecks (h.resolve_right (not_not_intro hchecks))
  · exact .inl (exec_of_not_passesChecks hchecks)

end Sys2Proof.Machine
end

section
/-! The registers of 10_state.md: what each reads, what a write to it does, and which events change it. -/

namespace Sys2Proof.Machine

/-- Settles O10: only acceptance and the two resets write the recorded word, and a completion keeps it. -/
theorem cmdReadsLastAcceptedWord : Obligations.CmdReadsLastAcceptedWord := by
  refine ⟨fun _ => rfl, fun s w hidle => ?_, fun s w v n hbusy => ?_, fun w s t h => (runCommand_completed h).cmdLast,
    fun _ => ⟨rfl, rfl⟩, rfl, fun s t h hchange => ?_⟩
  · simp [State.busy_of_idle hidle]
  · simp [State.busy_of_busy hbusy]
  · simp only [BitVec.ofNat_eq_ofNat, readValue_cmd] at hchange ⊢
    obtain ⟨w, -, hdone⟩ | ⟨ph, hph, ⟨_, _, _, rfl⟩ | ⟨off, v, rest, hhost, rfl⟩ | ⟨rest, hhost, -⟩⟩ := step_effect h
    · exact absurd hdone.cmdLast hchange
    · exact absurd rfl hchange
    · obtain ⟨hidle, rfl, hv⟩ | ⟨rfl, hv⟩ := hostWrite_cmdLast hchange
      · obtain rfl : ph = .idle := State.busy_eq_false.mp hidle
        exact .inl ⟨hph.eq_idle, rest, by rw [hv]; exact hhost⟩
      · exact .inr (.inl ⟨v, rest, hv, hhost⟩)
    · exact .inr (.inr ⟨rest, hhost⟩)

/-- Settles O14: ID is a constant and no write reaches it. -/
theorem idReadsItsConstant : Obligations.IdReadsItsConstant :=
  ⟨fun _ => rfl, fun _ _ => rfl, rfl⟩

/-- Settles O15: the legal ranges of R5 fit the fields, and no step changes the parameters. -/
theorem paramReportsTheParameters : Obligations.ParamReportsTheParameters := by
  refine ⟨fun s hlegal => ?_, fun _ _ => rfl, fun s t h => ?_, by decide⟩
  · obtain ⟨-, hrmax, -, -, hcmax, hkmax⟩ := hlegal
    change ((paramWord s.params).extractLsb' 0 8).toNat = _ ∧ ((paramWord s.params).extractLsb' 8 8).toNat = _ ∧
      ((paramWord s.params).extractLsb' 16 5).toNat = _ ∧ _
    rw [paramWord_rmax, paramWord_cmax, paramWord_kmax, BitVec.toNat_ofNat, BitVec.toNat_ofNat, BitVec.toNat_ofNat]
    exact ⟨Nat.mod_eq_of_lt (by omega), Nat.mod_eq_of_lt (by omega), Nat.mod_eq_of_lt (by omega), paramWord_gap _,
      paramWord_nbuf _, paramWord_order _, paramWord_top _⟩
  · have hparams := step_params h
    exact ⟨hparams, congrArg paramWord hparams⟩

/-- Settles O16: by the two cases of a write to CTRL, without SRST and with it. -/
theorem ctrlHoldsIrqEnable : Obligations.CtrlHoldsIrqEnable := by
  refine fun s v => ⟨ctrlWord_eq s, fun hv => writeCtrl_enable hv s, fun hv => ?_, rfl⟩
  exact congrArg State.irqEn (writeCtrl_soft hv s)

/-- Settles O17: field by field of `State.statusWord`; the write is `State.writeStatus` as it stands. -/
theorem statusBitsAndWriteOneToClear : Obligations.StatusBitsAndWriteOneToClear := fun s _ =>
  ⟨⟨(Bool.eq_iff_iff.mp (statusWord_busy s)).trans State.busy_eq_true, statusWord_done s, statusWord_err s,
    statusWord_wob s, statusWord_gap s, statusWord_errcode s, statusWord_top s⟩, rfl, rfl⟩

/-- Settles O18: the write is `State.setShape`, with the two fields of the word. -/
theorem shapeWriteStoresItsFields : Obligations.ShapeWriteStoresItsFields := by
  intro s i v hidle
  refine ⟨State.setShape i (Shape.ofWord v) s, ?_, rfl, ?_, ?_, ?_, fun j hj => ?_⟩
  · simp [hostWrite_shape, State.busy_of_idle hidle]
  · rw [State.rowsOf, shapeOf_setShape_self, Shape.ofWord_rows]
  · rw [State.colsOf, shapeOf_setShape_self, Shape.ofWord_cols]
  · rw [readValue_shape, shapeOf_setShape_self, Shape.toWord_ofWord]
  · rw [readValue_shape, readValue_shape, shapeOf_setShape_other hj]

/-- Settles O19: a reserved offset leads to no register and no window word, and no register's read or write uses a reserved
bit. -/
theorem reservedReadsZeroAndIgnoresWrites : Obligations.ReservedReadsZeroAndIgnoresWrites := by
  refine ⟨fun s off v _ _ hoff => ?_, fun s v => ?_, fun s i v => ⟨?_, ?_⟩⟩
  · have htarget := targetOf_reserved hoff
    exact ⟨readValue_reserved htarget, hostWrite_reserved htarget v⟩
  · exact ⟨ctrlWord_and_reserved s, (writeCtrl_and v s).symm, statusWord_and_reserved s, (writeStatus_and v s).symm,
      paramWord_and_reserved s.params⟩
  · rw [readValue_shape, Shape.toWord_and_reserved]
  · rw [hostWrite_shape, hostWrite_shape, Shape.ofWord_and]

/-- Settles O54: no turn of the host sets DONE, so the step is a completion. -/
theorem doneRisesOnlyAtCompletion : Obligations.DoneRisesOnlyAtCompletion := by
  intro s t h hclear hset
  obtain ⟨w, hphase, hdone⟩ | ⟨ph, -, ⟨_, _, _, rfl⟩ | ⟨off, v, rest, -, rfl⟩ | ⟨rest, -, rfl⟩⟩ := step_effect h
  · exact ⟨⟨w, hphase⟩, hdone.phase⟩
  · exact absurd hset (by simp [hclear])
  · exact absurd (hostWrite_done hset) (by simp [hclear])
  · exact absurd hset (by simp)

/-- Settles O55: of the events of a step only a write that a busy engine drops sets WOB. -/
theorem wobRisesOnlyOnDroppedWrite : Obligations.WobRisesOnlyOnDroppedWrite := by
  intro s t _ h hclear hset
  obtain ⟨w, -, hdone⟩ | ⟨ph, hph, ⟨_, _, _, rfl⟩ | ⟨off, v, rest, hhost, rfl⟩ | ⟨rest, -, rfl⟩⟩ := step_effect h
  · exact absurd hset (by simp [hdone.wob, hclear])
  · exact absurd hset (by simp [hclear])
  · have hoff := offset_of_hostWrite_wob hset hclear
    obtain ⟨w, n, rfl⟩ : ∃ w n, ph = .busy w n := State.busy_eq_true.mp (busy_of_hostWrite_wob hset hclear)
    exact ⟨w, n, off, v, rest, hph.eq_busy, hhost, hoff⟩
  · exact absurd hset (by simp)

/-- Settles O56: a completion that changes memory succeeded, and of the host's writes only one to a window of an idle engine
does. -/
theorem buffersChangeOnlyByTheseEvents : Obligations.BuffersChangeOnlyByTheseEvents := by
  intro s t _ h hchange
  obtain ⟨w, hphase, hdone⟩ | ⟨ph, hph, ⟨_, _, _, rfl⟩ | ⟨off, v, rest, hhost, rfl⟩ | ⟨rest, hhost, -⟩⟩ := step_effect h
  · exact .inl ⟨w, hphase, of_not_not fun hcode => hchange (hdone.mem hcode)⟩
  · exact absurd rfl hchange
  · obtain ⟨hidle, i, hin⟩ := hostWrite_mem hchange
    obtain rfl : ph = .idle := State.busy_eq_false.mp hidle
    exact .inr (.inl ⟨hph.eq_idle, off, v, rest, i, hhost, hin⟩)
  · exact .inr (.inr ⟨rest, hhost⟩)

/-- A 32-bit aligned read that the host of an idle engine has pending is performed in the step (R34, R40). -/
theorem step_read_of_idle {s : State} {off : Offset} {rest : List HostEvent} (hidle : s.phase = .idle)
    (halign : off.toNat % 4 = 0) (hhost : s.host = .read off 4 :: rest) :
    step s = .next (State.hostRead off { s with host := rest }) := by
  simp [step_idle hidle, hostTurn, hhost, accessDefined, halign]

/-- Settles O57: an idle engine reads its two scalar registers, every completion leaves the engine idle, and what it wrote to
them is `exec_scalars`. -/
theorem resultAndDcountReadTheLastCompletion : Obligations.ResultAndDcountReadTheLastCompletion := by
  refine ⟨fun s hidle => ⟨readValue_result_of_idle hidle, readValue_dcount_of_idle hidle, fun rest hhost => ?_,
    fun rest hhost => ?_⟩, fun w s t h => ?_, fun i s t hscalars h => ?_, fun _ _ => ⟨rfl, rfl⟩⟩
  · exact ⟨_, step_read_of_idle hidle (by decide) hhost, rfl, congrArg (· :: _) (readValue_result_of_idle hidle)⟩
  · exact ⟨_, step_read_of_idle hidle (by decide) hhost, rfl, congrArg (· :: _) (readValue_dcount_of_idle hidle)⟩
  · have hphase := (runCommand_completed h).phase
    rw [readValue_result_of_idle hphase, readValue_dcount_of_idle hphase]
    refine ⟨rfl, rfl, fun hillegal => ?_⟩
    rw [runCommand_illegal hillegal] at h
    cases h
    exact ⟨rfl, rfl⟩
  · have hphase := (exec_completed h).phase
    rw [readValue_result_of_idle hphase, readValue_dcount_of_idle hphase]
    obtain ⟨code, he⟩ | ⟨d, res, dc, he, hres, hdc⟩ := exec_scalars hscalars <;> rw [he] at h <;> cases h
    · exact ⟨fun _ => ⟨rfl, rfl⟩, fun hne => absurd rfl hne, fun hne => absurd rfl hne⟩
    · exact ⟨fun hcode => absurd rfl hcode, hdc, hres⟩

end Sys2Proof.Machine
end

section
/-! The turn in which the host's next access happens: it is performed or refused by the one test of R34, and nothing else refuses a
step (R64, R87). -/

namespace Sys2Proof.Machine

variable {s : State} {off : Offset} {size : Nat} {v : Word} {rest : List HostEvent}

/-! ### One access (R34) -/

theorem accessDefined_iff : accessDefined off size = true ↔ size = 4 ∧ off.toNat % 4 = 0 := by
  simp [accessDefined]

theorem hostTurn_read (h : s.host = .read off size :: rest) :
    hostTurn s = if size = 4 ∧ off.toNat % 4 = 0 then .next (State.hostRead off { s with host := rest })
      else .refused .accessOutsideInterface := by
  simp only [hostTurn, h, accessDefined_iff]

theorem hostTurn_write (h : s.host = .write off size v :: rest) :
    hostTurn s = if size = 4 ∧ off.toNat % 4 = 0 then .next (State.hostWrite off v { s with host := rest })
      else .refused .accessOutsideInterface := by
  simp only [hostTurn, h, accessDefined_iff]

/-- The host's turn has a next state unless its first pending event is an access the interface does not define (R34). -/
theorem hostTurn_next_or_refused (s : State) :
    (∃ t, hostTurn s = .next t) ∨
      (hostTurn s = .refused .accessOutsideInterface ∧
        ∃ off size rest, (s.host = .read off size :: rest ∨ ∃ v, s.host = .write off size v :: rest) ∧
          ¬ (size = 4 ∧ off.toNat % 4 = 0)) := by
  cases hhost : s.host with
  | nil => exact .inl ⟨s, by simp only [hostTurn, hhost]⟩
  | cons event rest =>
    cases event with
    | read off size =>
      by_cases hdef : size = 4 ∧ off.toNat % 4 = 0
      · exact .inl ⟨_, (hostTurn_read hhost).trans (if_pos hdef)⟩
      · exact .inr ⟨(hostTurn_read hhost).trans (if_neg hdef), off, size, rest, .inl rfl, hdef⟩
    | write off size v =>
      by_cases hdef : size = 4 ∧ off.toNat % 4 = 0
      · exact .inl ⟨_, (hostTurn_write hhost).trans (if_pos hdef)⟩
      · exact .inr ⟨(hostTurn_write hhost).trans (if_neg hdef), off, size, rest, .inr ⟨v, rfl⟩, hdef⟩
    | wait =>
      left
      simp only [hostTurn, hhost]
      split
      · exact ⟨_, rfl⟩
      · exact ⟨_, rfl⟩
    | hardReset => exact .inl ⟨State.hardReset { s with host := rest }, by simp only [hostTurn, hhost]⟩

/-! ### Reads (R36) -/

/-- The free value of a read is drawn only while the engine is busy (R99), so the counter a read advances shows in no later read of
an idle engine. -/
theorem readValue_hostRead_of_idle (hidle : s.phase = .idle) (off off' : Offset) :
    (s.hostRead off).readValue off' = s.readValue off' := by
  have hbefore : s.busy = false := State.busy_of_idle hidle
  have hafter : (s.hostRead off).busy = false := hbefore
  unfold State.readValue
  rw [State.hostRead_params]
  cases targetOf s.params off' with
  | result | dcount => simp [hbefore, hafter]
  | window i r w =>
    simp only [hbefore, hafter, Bool.false_eq_true, if_false]
    rfl
  | id | param | ctrl | status | cmd | shape i | reserved => rfl

end Sys2Proof.Machine
end

section
/-! One word of a window, bit by bit (R31, R33): which storage bits it is, and what a write to it sets and leaves. -/

namespace Sys2Proof.Machine

variable {s : State} {p : Params} {i i' : Buf} {r w r' c' j : Nat}

/-! ### The bits of a word (R31, R35) -/

/-- Bit 32w + j of a row stands in byte j / 8 of its word w. -/
theorem byteAddr_word (p : Params) (i : Buf) (r w : Nat) (hj : j < 32) :
    byteAddr p i r (32 * w + j) = waddr p i r w + j / 8 := by
  rw [byteAddr, show (32 * w + j) / 32 = w by omega, show (32 * w + j) % 32 = j by omega]

/-- Of the four bytes of a word, the lowest address first, bit j is in byte j / 8. -/
theorem getLsbD_appendBytes (f : Nat → Byte) (hj : j < 32) :
    (f 3 ++ f 2 ++ f 1 ++ f 0).getLsbD j = (f (j / 8)).getLsbD (j % 8) := by
  obtain hq | hq | hq | hq : j / 8 = 0 ∨ j / 8 = 1 ∨ j / 8 = 2 ∨ j / 8 = 3 := by omega
  all_goals rw [hq, BitVec.getLsbD_append, BitVec.getLsbD_append, BitVec.getLsbD_append]
  · rw [if_pos (by omega), show j % 8 = j by omega]
  · rw [if_neg (by omega), if_pos (by omega), show j % 8 = j - 8 by omega]
  · rw [if_neg (by omega), if_neg (by omega), if_pos (by omega), show j % 8 = j - 8 - 8 by omega]
  · rw [if_neg (by omega), if_neg (by omega), if_neg (by omega), show j % 8 = j - 8 - 8 - 8 by omega]

/-- Bit j of a window word is storage bit 32w + j of its row (R31, R32). -/
theorem getLsbD_storeWord (s : State) (i : Buf) (r w : Nat) (hj : j < 32) :
    (s.storeWord i r w).getLsbD j = s.storeBit i r (32 * w + j) := by
  rw [State.storeBit, byteAddr_word s.params i r w hj, show (32 * w + j) % 8 = j % 8 by omega]
  exact getLsbD_appendBytes (fun k => s.storeByte (waddr s.params i r w + k)) hj

/-- A storage bit whose byte is one of a word's four is a bit of that word. -/
theorem eq_of_byteAddr_in_word (hl : p.legal) (hr : r < p.rmax) (hw : w < p.wpr) (hr' : r' < p.rmax) (hc' : c' < p.cmax)
    (h : waddr p i r w ≤ byteAddr p i' r' c' ∧ byteAddr p i' r' c' < waddr p i r w + 4) :
    i' = i ∧ r' = r ∧ c' / 32 = w := by
  obtain ⟨hstart, hend⟩ := waddr_bounds i hr hw
  have hbuf : i' = i := storage_disjoint hl (byteAddr_bounds hl i' hr' hc') ⟨by omega, by omega⟩
  subst hbuf
  obtain ⟨hcmax, -, -⟩ := Params.legal_wpr hl
  obtain ⟨k, hk⟩ := Nat.exists_eq_add_of_le h.1
  have hbyte : byteAddr p i' r' c' = byteAddr p i' r (32 * w + 8 * k) := by
    rw [byteAddr_word p i' r w (by omega)]
    omega
  obtain ⟨hrow, heighth⟩ := byteAddr_inj hl i' hc' (by omega) hbyte
  exact ⟨rfl, hrow, by omega⟩

/-! ### A stored word (R33) -/

theorem storeBit_setStoreWord (s : State) (i : Buf) (r w : Nat) (v : Word) (hj : j < 32) :
    (State.setStoreWord i r w v s).storeBit i r (32 * w + j) = v.getLsbD j := by
  rw [← getLsbD_storeWord _ i r w hj, storeWord_setStoreWord]

theorem bitSpecified_setStoreWord (s : State) (i : Buf) (r w : Nat) (v : Word) (hj : j < 32) :
    (State.setStoreWord i r w v s).bitSpecified i r (32 * w + j) = true := by
  have hbyte : j / 8 < (wordBytes v).length := Nat.div_lt_of_lt_mul hj
  rw [State.bitSpecified, State.setStoreWord_params, byteAddr_word s.params i r w hj, State.setStoreWord_mem,
    Memory.read_writeBlock_inside (by omega) (by omega), Nat.add_sub_cancel_left, List.getElem?_eq_getElem hbyte]
  rfl

/-- A stored word leaves the byte of every storage bit outside it as it was. -/
theorem read_setStoreWord_other (hl : s.params.legal) (hr : r < s.params.rmax) (hw : w < s.params.wpr) (v : Word)
    (hr' : r' < s.params.rmax) (hc' : c' < s.params.cmax) (hother : ¬ (i' = i ∧ r' = r ∧ c' / 32 = w)) :
    (State.setStoreWord i r w v s).mem.read (byteAddr s.params i' r' c') = s.mem.read (byteAddr s.params i' r' c') := by
  rw [State.setStoreWord_mem]
  exact Memory.read_writeBlock_outside fun h => hother (eq_of_byteAddr_in_word hl hr hw hr' hc' h)

theorem storeBit_setStoreWord_other (hl : s.params.legal) (hr : r < s.params.rmax) (hw : w < s.params.wpr) (v : Word)
    (hr' : r' < s.params.rmax) (hc' : c' < s.params.cmax) (hother : ¬ (i' = i ∧ r' = r ∧ c' / 32 = w)) :
    (State.setStoreWord i r w v s).storeBit i' r' c' = s.storeBit i' r' c' := by
  simp only [State.storeBit, State.storeByte, State.setStoreWord_params, State.setStoreWord_epoch,
    read_setStoreWord_other hl hr hw v hr' hc' hother]

theorem bitSpecified_setStoreWord_other (hl : s.params.legal) (hr : r < s.params.rmax) (hw : w < s.params.wpr) (v : Word)
    (hr' : r' < s.params.rmax) (hc' : c' < s.params.cmax) (hother : ¬ (i' = i ∧ r' = r ∧ c' / 32 = w)) :
    (State.setStoreWord i r w v s).bitSpecified i' r' c' = s.bitSpecified i' r' c' := by
  simp only [State.bitSpecified, State.setStoreWord_params, read_setStoreWord_other hl hr hw v hr' hc' hother]

/-! ### The window -/

/-- While idle a window reads its storage word (R32). -/
theorem readValue_window_of_idle {off : Offset} (h : targetOf s.params off = .window i r w) (hidle : s.phase = .idle) :
    s.readValue off = s.storeWord i r w := by
  simp [State.readValue, h, State.busy_of_idle hidle]

theorem hostWrite_window_of_idle {off : Offset} (h : targetOf s.params off = .window i r w) (hidle : s.phase = .idle)
    (v : Word) : s.hostWrite off v = State.setStoreWord i r w v s := by
  simp [hostWrite_window h, State.busy_of_idle hidle]

theorem hostWrite_window_of_busy {off : Offset} (h : targetOf s.params off = .window i r w) {u : Word} {n : Nat}
    (hbusy : s.phase = .busy u n) (v : Word) : s.hostWrite off v = s.dropWrite := by
  simp [hostWrite_window h, State.busy_of_busy hbusy]

end Sys2Proof.Machine
end

section
/-! The rules of 20_memory.md: which accesses are performed, what a read leaves alone and what a window write sets. -/

namespace Sys2Proof.Machine

/-- Settles O11: a completion always has a next state, and the host's turn is refused only for an access outside R34. -/
theorem onlyUndefinedAccessesStopTheMachine : Obligations.OnlyUndefinedAccessesStopTheMachine := by
  intro s
  obtain ⟨w, -, hstep⟩ | ⟨hphase, hstep⟩ | ⟨w, n, hphase, hstep⟩ := step_cases s <;> rw [hstep]
  · exact .inl (runCommand_next w s)
  · exact (hostTurn_next_or_refused s).imp_right fun ⟨hrefused, hevent⟩ => ⟨hrefused, by simp [hphase], hevent⟩
  · exact (hostTurn_next_or_refused { s with phase := .busy w n }).imp_right fun ⟨hrefused, hevent⟩ =>
      ⟨hrefused, by simp [hphase], hevent⟩

/-- Settles O12: in both phases the step is the host's turn, which performs or refuses the access. -/
theorem onlyAlignedWordAccessesArePerformed : Obligations.OnlyAlignedWordAccessesArePerformed := by
  rintro s u off size v rest (⟨hphase, rfl⟩ | ⟨w, n, hphase, rfl⟩)
  · rw [step_idle hphase]
    exact ⟨hostTurn_read, hostTurn_write⟩
  · rw [step_busy hphase]
    exact ⟨hostTurn_read (s := { s with phase := .busy w n }), hostTurn_write (s := { s with phase := .busy w n })⟩

/-- Settles O21: what a read writes is the record and the counter, and no read of an idle engine shows either. -/
theorem readsHaveNoSideEffects : Obligations.ReadsHaveNoSideEffects :=
  fun _ off => ⟨rfl, fun hidle off' => readValue_hostRead_of_idle hidle off off'⟩

/-- Settles O22: the offset leads to row r, word w of buffer i, so the write is `State.setStoreWord` while idle and
`State.dropWrite` while busy. -/
theorem windowWriteSetsItsWord : Obligations.WindowWriteSetsItsWord := by
  intro s i r w v hl hr hw
  have htarget := targetOf_waddr hl i hr hw
  refine ⟨fun hidle => ⟨State.setStoreWord i r w v s, hostWrite_window_of_idle htarget hidle v, rfl, ?_, fun j hj => ?_,
    fun j hj => ?_, fun i' r' c' hr' hc' hother => ?_⟩, fun u n hbusy => hostWrite_window_of_busy htarget hbusy v⟩
  · exact (readValue_window_of_idle (s := State.setStoreWord i r w v s) htarget hidle).trans
      (storeWord_setStoreWord i r w v s)
  · exact ⟨storeBit_setStoreWord s i r w v hj, bitSpecified_setStoreWord s i r w v hj⟩
  · have hread := readValue_window_of_idle htarget hidle
    exact (congrArg (·.getLsbD j) hread).trans (getLsbD_storeWord s i r w hj)
  · exact ⟨storeBit_setStoreWord_other hl hr hw v hr' hc' hother, bitSpecified_setStoreWord_other hl hr hw v hr' hc' hother⟩

end Sys2Proof.Machine
end

section
/-! Format C (R45): a word is its six fields. What the fixed bits of the opcode map (R49) ask of the fields is what R50 asks. -/

namespace Sys2Proof

open BitVec (and_append and_allOnes extractLsb'_append_eq_left extractLsb'_append_eq_right extractLsb'_append_eq_of_le)

/-! ### A word and its fields -/

/-- The value of a word by the places of its fields (R45). -/
theorem toNat_eq_formatOf (w : Word) :
    w.toNat = (formatOf w).op.toNat + (formatOf w).rsv.toNat * 2 ^ 5 + (formatOf w).rd.toNat * 2 ^ 8 +
      (formatOf w).rs1.toNat * 2 ^ 10 + (formatOf w).rs2.toNat * 2 ^ 12 + (formatOf w).hi.toNat * 2 ^ 14 := by
  have hw := w.isLt
  simp only [formatOf, BitVec.extractLsb'_toNat, Nat.shiftRight_eq_div_pow]
  omega

@[simp] theorem formatOf_toWord (f : FormatC) : formatOf f.toWord = f := by
  cases f with | mk op rsv rd rs1 rs2 hi =>
  rw [formatOf, FormatC.toWord, FormatC.mk.injEq]
  refine ⟨?_, ?_, ?_, ?_, ?_, ?_⟩
  · rw [extractLsb'_append_eq_right]
  · rw [extractLsb'_append_eq_of_le (by decide), extractLsb'_append_eq_right]
  · rw [extractLsb'_append_eq_of_le (by decide), extractLsb'_append_eq_of_le (by decide), extractLsb'_append_eq_right]
  · rw [extractLsb'_append_eq_of_le (by decide), extractLsb'_append_eq_of_le (by decide),
      extractLsb'_append_eq_of_le (by decide), extractLsb'_append_eq_right]
  · rw [extractLsb'_append_eq_of_le (by decide), extractLsb'_append_eq_of_le (by decide),
      extractLsb'_append_eq_of_le (by decide), extractLsb'_append_eq_of_le (by decide), extractLsb'_append_eq_right]
  · rw [extractLsb'_append_eq_of_le (by decide), extractLsb'_append_eq_of_le (by decide),
      extractLsb'_append_eq_of_le (by decide), extractLsb'_append_eq_of_le (by decide), extractLsb'_append_eq_left]

/-- Two words with the same fields are the same word. -/
theorem formatOf_injective : Function.Injective formatOf := fun v w h =>
  BitVec.eq_of_toNat_eq (by rw [toNat_eq_formatOf v, toNat_eq_formatOf w, h])

@[simp] theorem toWord_formatOf (w : Word) : (formatOf w).toWord = w :=
  formatOf_injective (formatOf_toWord _)

theorem FormatC.toWord_inj {f g : FormatC} : f.toWord = g.toWord ↔ f = g :=
  ⟨fun h => by rw [← formatOf_toWord f, h, formatOf_toWord], congrArg _⟩

/-! ### The encoder (R53) -/

@[simp] theorem bufOf_bufField (b : Buf) : bufOf (bufField b) = b := by
  revert b
  decide

@[simp] theorem bufField_bufOf (f : BitVec 2) : bufField (bufOf f) = f := by
  revert f
  decide

/-- A value shifted above the bits already set adds to them (R53, R55). -/
theorem toNat_or_shiftLeft {x y : Word} {k : Nat} (hx : x.toNat < 2 ^ k) (hy : y.toNat * 2 ^ k < 2 ^ 32) :
    (x ||| y <<< k).toNat = x.toNat + y.toNat * 2 ^ k := by
  rw [← Nat.shiftLeft_eq] at hy ⊢
  rw [BitVec.toNat_or, BitVec.toNat_shiftLeft, Nat.mod_eq_of_lt hy, Nat.or_comm, ← Nat.shiftLeft_add_eq_or_of_lt hx,
    Nat.add_comm]

/-- The shifts of R53 put the opcode and the operands at their places of format C. -/
theorem encodeFields_eq_toWord {op : Nat} (hop : op < 2 ^ 5) (rd rs1 rs2 : Buf) :
    encodeFields op rd rs1 rs2 = FormatC.toWord ⟨BitVec.ofNat 5 op, 0, bufField rd, bufField rs1, bufField rs2, 0⟩ := by
  have hop32 : (BitVec.ofNat 32 op).toNat = op := by
    rw [BitVec.toNat_ofNat, Nat.mod_eq_of_lt (by omega)]
  have hbuf (b : Buf) : (BitVec.ofNat 32 b.val).toNat = b.val := by
    rw [BitVec.toNat_ofNat, Nat.mod_eq_of_lt (by omega)]
  have hrd := toNat_or_shiftLeft (x := BitVec.ofNat 32 op) (y := BitVec.ofNat 32 rd.val) (k := 8) (by omega)
    (by rw [hbuf]; omega)
  have hrs1 := toNat_or_shiftLeft (y := BitVec.ofNat 32 rs1.val) (k := 10) (by rw [hrd, hbuf]; omega) (by rw [hbuf]; omega)
  have hrs2 := toNat_or_shiftLeft (y := BitVec.ofNat 32 rs2.val) (k := 12) (by rw [hrs1, hrd, hbuf, hbuf]; omega)
    (by rw [hbuf]; omega)
  apply BitVec.eq_of_toNat_eq
  rw [encodeFields, hrs2, hrs1, hrd, hop32, hbuf, hbuf, hbuf, toNat_eq_formatOf (FormatC.toWord _), formatOf_toWord]
  simp [bufField, Nat.mod_eq_of_lt (show op < 32 from hop)]

theorem encode_eq_toWord (i : Instr) : encode i = i.format.toWord := by
  cases i <;> exact encodeFields_eq_toWord (by decide) _ _ _

/-- Settles O5: the words of format C are its fields side by side, and the encoder's word is that of its fields. -/
theorem fieldsStandWhereFormatCPutsThem : Obligations.FieldsStandWhereFormatCPutsThem :=
  ⟨toNat_eq_formatOf, formatOf_toWord, fun i => by rw [encode_eq_toWord, formatOf_toWord]⟩

/-! ### The fixed bits of a row (R49) -/

/-- The fields of a bare opcode. -/
def FormatC.ofOp (op : Nat) : FormatC := ⟨BitVec.ofNat 5 op, 0, 0, 0, 0, 0⟩

/-- The bits an opcode fixes (R49): its own, both reserved fields and each operand field it does not use. -/
def FormatC.fixedBits (f : FormatC) : FormatC where
  op := BitVec.allOnes 5
  rsv := BitVec.allOnes 3
  rd := bif f.usesRd then 0 else BitVec.allOnes 2
  rs1 := bif f.usesRs1 then 0 else BitVec.allOnes 2
  rs2 := bif f.usesRs2 then 0 else BitVec.allOnes 2
  hi := BitVec.allOnes 18

/-- Each row's match and mask are its opcode's and the bits its opcode fixes. -/
theorem opTable_fixedBits : ∀ row ∈ opTable, row.op < 32 ∧ row.pattern = (FormatC.ofOp row.op).toWord ∧
    row.mask = (FormatC.ofOp row.op).fixedBits.toWord := by
  decide

/-- The assigned opcodes are those with a row (R50). -/
theorem exists_opTable_iff {op : BitVec 5} : (∃ row ∈ opTable, row.op = op.toNat) ↔ op.toNat ≤ 0x09 := by
  revert op
  decide

/-- AND works field by field. -/
theorem FormatC.toWord_and (f g : FormatC) :
    f.toWord &&& g.toWord =
      FormatC.toWord ⟨f.op &&& g.op, f.rsv &&& g.rsv, f.rd &&& g.rd, f.rs1 &&& g.rs1, f.rs2 &&& g.rs2, f.hi &&& g.hi⟩ := by
  unfold FormatC.toWord
  rw [and_append, and_append, and_append, and_append, and_append]

/-- A field masked where it is unused is 0 exactly when it is used or 0. -/
theorem and_fixed_eq_zero_iff {n : Nat} (x : BitVec n) (used : Bool) :
    x &&& (bif used then 0 else BitVec.allOnes n) = 0 ↔ (used || decide (x = 0)) = true := by
  cases used <;> simp

/-- A word has a row's fixed bits exactly when it has the row's opcode and passes the checks of R50. -/
theorem and_mask_eq_pattern_iff {row : OpRow} (hrow : row ∈ opTable) (w : Word) :
    w &&& row.mask = row.pattern ↔
      row.op = (formatOf w).op.toNat ∧ (formatOf w).reservedZero = true ∧ (formatOf w).unusedZero = true := by
  obtain ⟨hop, hpattern, hmask⟩ := opTable_fixedBits row hrow
  obtain ⟨⟨op, rsv, rd, rs1, rs2, hi⟩, rfl⟩ : ∃ f : FormatC, f.toWord = w := ⟨formatOf w, toWord_formatOf w⟩
  have hopcode : op = BitVec.ofNat 5 row.op ↔ row.op = op.toNat := by
    rw [← BitVec.toNat_inj, BitVec.toNat_ofNat, Nat.mod_eq_of_lt hop, eq_comm]
  rw [hpattern, hmask, FormatC.toWord_and, FormatC.toWord_inj, formatOf_toWord]
  simp only [FormatC.fixedBits, FormatC.ofOp, FormatC.mk.injEq, and_allOnes]
  rw [and_fixed_eq_zero_iff, and_fixed_eq_zero_iff, and_fixed_eq_zero_iff, ← hopcode]
  refine and_congr_right fun h => ?_
  subst h
  simp only [FormatC.reservedZero, FormatC.unusedZero, FormatC.usesRd, FormatC.usesRs1, FormatC.usesRs2, Bool.and_eq_true,
    decide_eq_true_eq]
  tauto

end Sys2Proof
end

section
/-! The decoder (R52) by the rows of the opcode map (R49): a word decodes exactly when it selects a row, and then to the one
instruction whose fields it has. -/

namespace Sys2Proof

/-- An opcode has one row (R49). -/
theorem find?_opTable {row : OpRow} (h : row ∈ opTable) : opTable.find? (fun r => r.op == row.op) = some row := by
  simp only [opTable, List.mem_cons, List.not_mem_nil, or_false] at h
  rcases h with rfl | rfl | rfl | rfl | rfl | rfl | rfl | rfl | rfl | rfl <;> rfl

theorem decode_of_row {row : OpRow} {w : Word} (hrow : row ∈ opTable) (hfixed : w &&& row.mask = row.pattern) :
    decode w = .ok (row.build (bufOf (formatOf w).rd) (bufOf (formatOf w).rs1) (bufOf (formatOf w).rs2)) := by
  obtain ⟨hop, -, -⟩ := (and_mask_eq_pattern_iff hrow w).mp hfixed
  simp only [decode, ← hop, find?_opTable hrow, hfixed, if_true]

/-- The decoder looks for the row by the opcode, which is among the fixed bits of every row. -/
theorem decode_eq_ok_iff (w : Word) (i : Instr) :
    decode w = .ok i ↔ ∃ row ∈ opTable, w &&& row.mask = row.pattern ∧
      i = row.build (bufOf (formatOf w).rd) (bufOf (formatOf w).rs1) (bufOf (formatOf w).rs2) := by
  constructor
  · intro h
    unfold decode at h
    split at h
    next => cases h
    next row hfind =>
      split at h
      next hfixed =>
        cases h
        exact ⟨row, List.mem_of_find?_eq_some hfind, hfixed, rfl⟩
      next => split at h <;> cases h
  · rintro ⟨row, hrow, hfixed, rfl⟩
    exact decode_of_row hrow hfixed

/-- Settles O2: R49's fields are those of format C. -/
theorem wordSelectsItsOpcodeRow : Obligations.WordSelectsItsOpcodeRow :=
  decode_eq_ok_iff

/-! ### A row and its instruction -/

/-- The command a row builds from a word's fields has these fields again, where the unused ones are 0 (R49, R53). -/
theorem format_build {row : OpRow} (hrow : row ∈ opTable) {f : FormatC} (hop : row.op = f.op.toNat)
    (hreserved : f.reservedZero = true) (hunused : f.unusedZero = true) :
    (row.build (bufOf f.rd) (bufOf f.rs1) (bufOf f.rs2)).format = f := by
  obtain ⟨op, rsv, rd, rs1, rs2, hi⟩ := f
  obtain rfl : op = BitVec.ofNat 5 row.op := by rw [hop, BitVec.ofNat_toNat, BitVec.setWidth_eq]
  simp only [opTable, List.mem_cons, List.not_mem_nil, or_false] at hrow
  rcases hrow with rfl | rfl | rfl | rfl | rfl | rfl | rfl | rfl | rfl | rfl <;>
    simp_all [FormatC.reservedZero, FormatC.unusedZero, FormatC.usesRd, FormatC.usesRs1, FormatC.usesRs2, Instr.format]

/-- Every instruction is what the row of its opcode builds from its fields. -/
theorem exists_row (i : Instr) : ∃ row ∈ opTable, row.op = i.format.op.toNat ∧
    row.build (bufOf i.format.rd) (bufOf i.format.rs1) (bufOf i.format.rs2) = i := by
  have hrow : ∃ row, opTable[i.format.op.toNat]? = some row ∧ row.op = i.format.op.toNat ∧
      row.build (bufOf i.format.rd) (bufOf i.format.rs1) (bufOf i.format.rs2) = i := by
    cases i <;> exact ⟨_, rfl, rfl, by simp [Instr.format]⟩
  obtain ⟨row, hget, hrow⟩ := hrow
  exact ⟨row, List.mem_of_getElem? hget, hrow⟩

theorem encode_of_decode {w : Word} {i : Instr} (h : decode w = .ok i) : encode i = w := by
  obtain ⟨row, hrow, hfixed, rfl⟩ := (decode_eq_ok_iff w i).mp h
  obtain ⟨hop, hreserved, hunused⟩ := (and_mask_eq_pattern_iff hrow w).mp hfixed
  calc encode _ = (formatOf w).toWord := by
        rw [encode_eq_toWord]
        exact congrArg _ (format_build hrow hop hreserved hunused)
    _ = w := toWord_formatOf w

theorem decode_encode {i : Instr} (h : i.wellFormed = true) : decode (encode i) = .ok i := by
  have hfields : formatOf (encode i) = i.format := by rw [encode_eq_toWord, formatOf_toWord]
  obtain ⟨row, hrow, hop, hbuild⟩ := exists_row i
  simp only [Instr.wellFormed, FormatC.wellFormed, Bool.and_eq_true] at h
  obtain ⟨⟨-, hreserved⟩, hunused⟩ := h
  rw [decode_of_row hrow ((and_mask_eq_pattern_iff hrow _).mpr (by rw [hfields]; exact ⟨hop, hreserved, hunused⟩)),
    hfields, hbuild]

/-- Settles O4: an instruction and a word it is encoded as have the same fields. -/
theorem decodeEncodeAgree : Obligations.DecodeEncodeAgree :=
  ⟨fun _ => decode_encode, fun _ _ => encode_of_decode⟩

/-! ### Illegal words (R50) -/

theorem decode_error_iff (w : Word) :
    (∃ e, decode w = .error e) ↔ ∀ row ∈ opTable, w &&& row.mask ≠ row.pattern := by
  constructor
  · rintro ⟨e, he⟩ row hrow hfixed
    rw [decode_of_row hrow hfixed] at he
    cases he
  · intro hnone
    cases hdecode : decode w with
    | error e => exact ⟨e, rfl⟩
    | ok i =>
      obtain ⟨row, hrow, hfixed, -⟩ := (decode_eq_ok_iff w i).mp hdecode
      exact absurd hfixed (hnone row hrow)

/-- The decoder rejects exactly the words that fail a check of R50. -/
theorem decode_error_iff_not_wellFormed (w : Word) :
    (∃ e, decode w = .error e) ↔ ¬ (formatOf w).wellFormed = true := by
  have hassigned : (formatOf w).opAssigned = true ↔ ∃ row ∈ opTable, row.op = (formatOf w).op.toNat := by
    rw [exists_opTable_iff, FormatC.opAssigned, decide_eq_true_iff]
  rw [decode_error_iff, FormatC.wellFormed, Bool.and_eq_true, Bool.and_eq_true, hassigned]
  constructor
  · rintro hnone ⟨⟨⟨row, hrow, hop⟩, hreserved⟩, hunused⟩
    exact hnone row hrow ((and_mask_eq_pattern_iff hrow w).mpr ⟨hop, hreserved, hunused⟩)
  · intro hbad row hrow hfixed
    obtain ⟨hop, hreserved, hunused⟩ := (and_mask_eq_pattern_iff hrow w).mp hfixed
    exact hbad ⟨⟨⟨row, hrow, hop⟩, hreserved⟩, hunused⟩

/-- R50's clauses, one by one. -/
theorem not_wellFormed_iff (f : FormatC) :
    ¬ f.wellFormed = true ↔
      0x0A ≤ f.op.toNat ∨ f.rsv ≠ 0 ∨ f.hi ≠ 0 ∨
        (f.op.toNat ∈ [0x00, 0x01, 0x02, 0x09] ∧ f.rd ≠ 0) ∨
        (f.op.toNat = 0x00 ∧ f.rs1 ≠ 0) ∨
        (f.op.toNat ∈ [0x00, 0x01, 0x02, 0x03, 0x04, 0x07, 0x09] ∧ f.rs2 ≠ 0) := by
  by_cases hop : f.op.toNat ≤ 0x09
  · have hrd : f.op.toNat ∈ [0x00, 0x01, 0x02, 0x09] ↔ f.usesRd = false := by
      simp only [FormatC.usesRd, decide_eq_false_iff_not, List.mem_cons, List.not_mem_nil, or_false]
      omega
    have hrs1 : f.op.toNat = 0x00 ↔ f.usesRs1 = false := by
      simp only [FormatC.usesRs1, decide_eq_false_iff_not, List.mem_cons, List.not_mem_nil, or_false]
      omega
    have hrs2 : f.op.toNat ∈ [0x00, 0x01, 0x02, 0x03, 0x04, 0x07, 0x09] ↔ f.usesRs2 = false := by
      simp only [FormatC.usesRs2, decide_eq_false_iff_not, List.mem_cons, List.not_mem_nil, or_false]
      omega
    have hlow : ¬ 0x0A ≤ f.op.toNat := by omega
    rw [hrd, hrs1, hrs2]
    simp only [FormatC.wellFormed, FormatC.opAssigned, FormatC.reservedZero, FormatC.unusedZero, hop, hlow, Bool.and_eq_true,
      Bool.or_eq_true, decide_eq_true_eq, ← Bool.not_eq_true, decide_true, true_and, false_or,
      not_and_or, not_or, or_assoc, ne_eq]
  · have hhigh : 0x0A ≤ f.op.toNat := by omega
    simp [FormatC.wellFormed, FormatC.opAssigned, hop, hhigh]

end Sys2Proof

namespace Sys2Proof.Machine

/-- Settles O3: the rejected words are those no row matches (R49), and a word accepted runs as what the decoder makes of it. -/
theorem illegalWordsAreRejectedAndReported : Obligations.IllegalWordsAreRejectedAndReported := by
  intro w
  refine ⟨(decode_error_iff_not_wellFormed w).trans (not_wellFormed_iff (formatOf w)), decode_error_iff w, fun hbad =>
    ⟨fun s hidle => ?_, fun s hbusy => ?_⟩⟩
  · have haccept : s.hostWrite 0x010 w = s.accept w :=
      (hostWrite_cmd w s).trans (if_neg (by simp [State.busy_of_idle hidle]))
    rw [haccept]
    exact ⟨rfl, rfl⟩
  · rw [step_complete hbusy, runCommand_illegal hbad, raiseError_eq]

/-- Settles O1: the words are closed. -/
theorem specWordsDecode : Obligations.SpecWordsDecode := by
  unfold Obligations.SpecWordsDecode
  decide

end Sys2Proof.Machine
end

section
/-! The assembler (R53): a line is a mnemonic and, after a blank, its operand names, each read without regard to the other. -/

namespace Sys2Proof.Machine

/-- Letters that end neither the mnemonic nor the line. -/
def isMnemonic (m : List Char) : Bool := !m.isEmpty && m.all fun ch => !isBlank ch && ch != ';'

/-- What may stand after a mnemonic: a blank first and none last, and no comment. -/
def isOperandText (ops : List Char) : Bool :=
  ops.head?.all isBlank && ops.getLast?.all (!isBlank ·) && ops.all (· != ';')

theorem dropWhile_eq_self_of_head? {p : Char → Bool} {cs : List Char} (h : ∀ ch ∈ cs.head?, p ch = false) :
    cs.dropWhile p = cs := by
  cases cs with
  | nil => rfl
  | cons ch cs => exact List.dropWhile_cons_of_neg (by simp [h ch rfl])

theorem takeWhile_eq_nil_of_head? {p : Char → Bool} {cs : List Char} (h : ∀ ch ∈ cs.head?, p ch = false) :
    cs.takeWhile p = [] := by
  cases cs with
  | nil => rfl
  | cons ch cs => exact List.takeWhile_cons_of_neg (by simp [h ch rfl])

theorem trimBlanks_eq_self {cs : List Char} (hhead : ∀ ch ∈ cs.head?, isBlank ch = false)
    (hlast : ∀ ch ∈ cs.getLast?, isBlank ch = false) : trimBlanks cs = cs := by
  rw [trimBlanks, dropWhile_eq_self_of_head? hhead, dropWhile_eq_self_of_head? (by rwa [List.head?_reverse]),
    List.reverse_reverse]

/-- A line without a comment and without blanks around it is read as its mnemonic and its operands. -/
theorem assembleLine_append {m ops : List Char} (hm : isMnemonic m = true) (hops : isOperandText ops = true) :
    assembleLine (m ++ ops) = (operandsNamed ops).bind (commandNamed (m.map Char.toLower)) := by
  obtain ⟨hne, hletters⟩ : m ≠ [] ∧ ∀ ch ∈ m, isBlank ch = false ∧ ch ≠ ';' := by simpa [isMnemonic] using hm
  obtain ⟨⟨hfirst, hlast⟩, hcomment⟩ : ((∀ ch ∈ ops.head?, isBlank ch = true) ∧ ∀ ch ∈ ops.getLast?, isBlank ch = false) ∧
      ∀ ch ∈ ops, ch ≠ ';' := by simpa [isOperandText, Option.all_eq_true] using hops
  have hbody : (m ++ ops).takeWhile (· ≠ ';') = m ++ ops := by
    rw [List.takeWhile_eq_self_iff]
    intro ch hch
    rcases List.mem_append.mp hch with hch | hch
    · simpa using (hletters ch hch).2
    · simpa using hcomment ch hch
  have htrim : trimBlanks (m ++ ops) = m ++ ops := by
    refine trimBlanks_eq_self (fun ch hch => ?_) (fun ch hch => ?_)
    · rw [List.head?_append_of_ne_nil _ hne] at hch
      exact (hletters ch (List.mem_of_mem_head? hch)).1
    · rw [List.getLast?_append] at hch
      cases hops : ops.getLast? with
      | none =>
        rw [hops, Option.none_or] at hch
        exact (hletters ch (List.mem_of_getLast? hch)).1
      | some last =>
        rw [hops, Option.some_or] at hch
        exact hlast ch (hops.trans hch)
  have hmnemonic : (m ++ ops).takeWhile (fun ch => !isBlank ch) = m := by
    rw [List.takeWhile_append_of_pos fun ch hch => by simp [(hletters ch hch).1],
      takeWhile_eq_nil_of_head? fun ch hch => by simp [hfirst ch hch], List.append_nil]
  rw [assembleLine, hbody, htrim, hmnemonic, List.drop_left]

theorem isOperandText_oneOperand (b : Buf) : isOperandText (' ' :: bufName b) = true := by
  revert b
  decide

theorem isOperandText_twoOperands (rd rs1 : Buf) : isOperandText (twoOperands rd rs1) = true := by
  revert rd rs1
  decide

theorem isOperandText_threeOperands (rd rs1 rs2 : Buf) : isOperandText (threeOperands rd rs1 rs2) = true := by
  revert rd rs1 rs2
  decide

theorem operandsNamed_oneOperand (b : Buf) : operandsNamed (' ' :: bufName b) = some [b] := by
  revert b
  decide

theorem operandsNamed_twoOperands (rd rs1 : Buf) : operandsNamed (twoOperands rd rs1) = some [rd, rs1] := by
  revert rd rs1
  decide

theorem operandsNamed_threeOperands (rd rs1 rs2 : Buf) : operandsNamed (threeOperands rd rs1 rs2) = some [rd, rs1, rs2] := by
  revert rd rs1 rs2
  decide

section
variable {m : List Char} (hm : isMnemonic m = true)
include hm

theorem assembleLine_noOperand : assembleLine m = commandNamed (m.map Char.toLower) [] := by
  have hline := assembleLine_append (ops := []) hm rfl
  rwa [List.append_nil] at hline

theorem assembleLine_oneOperand (b : Buf) :
    assembleLine (m ++ ' ' :: bufName b) = commandNamed (m.map Char.toLower) [b] := by
  rw [assembleLine_append hm (isOperandText_oneOperand b), operandsNamed_oneOperand, Option.bind_some]

theorem assembleLine_twoOperands (rd rs1 : Buf) :
    assembleLine (m ++ twoOperands rd rs1) = commandNamed (m.map Char.toLower) [rd, rs1] := by
  rw [assembleLine_append hm (isOperandText_twoOperands rd rs1), operandsNamed_twoOperands, Option.bind_some]

theorem assembleLine_threeOperands (rd rs1 rs2 : Buf) :
    assembleLine (m ++ threeOperands rd rs1 rs2) = commandNamed (m.map Char.toLower) [rd, rs1, rs2] := by
  rw [assembleLine_append hm (isOperandText_threeOperands rd rs1 rs2), operandsNamed_threeOperands, Option.bind_some]

end

theorem assembleLine_assembly (i : Instr) : assembleLine (assembly i) = some i := by
  cases i with
  | nop => exact assembleLine_noOperand (m := ['N', 'O', 'P']) rfl
  | rank rs1 => exact assembleLine_oneOperand (m := ['R', 'A', 'N', 'K']) rfl rs1
  | isinv rs1 => exact assembleLine_oneOperand (m := ['I', 'S', 'I', 'N', 'V']) rfl rs1
  | inv rd rs1 => exact assembleLine_twoOperands (m := ['I', 'N', 'V']) rfl rd rs1
  | pinv rd rs1 => exact assembleLine_twoOperands (m := ['P', 'I', 'N', 'V']) rfl rd rs1
  | mmul rd rs1 rs2 => exact assembleLine_threeOperands (m := ['M', 'M', 'U', 'L']) rfl rd rs1 rs2
  | decode rd rs1 rs2 => exact assembleLine_threeOperands (m := ['D', 'E', 'C', 'O', 'D', 'E']) rfl rd rs1 rs2
  | reduce rd rs1 => exact assembleLine_twoOperands (m := ['R', 'E', 'D', 'U', 'C', 'E']) rfl rd rs1
  | madd rd rs1 rs2 => exact assembleLine_threeOperands (m := ['M', 'A', 'D', 'D']) rfl rd rs1 rs2
  | weight rs1 => exact assembleLine_oneOperand (m := ['W', 'E', 'I', 'G', 'H', 'T']) rfl rs1

/-- Settles O6: R53's line of a command has its mnemonic and its operands; the other lines are closed text. -/
theorem assemblerReadsTheSyntax : Obligations.AssemblerReadsTheSyntax :=
  ⟨assembleLine_assembly, by decide, by decide, fun _ _ => ⟨rfl, rfl⟩, by decide, by decide⟩

end Sys2Proof.Machine
end

section
/-! WAIT (R55). -/

namespace Sys2Proof.Machine

theorem hostTurn_wait {s : State} {rest : List HostEvent} (h : s.host = .wait :: rest) :
    hostTurn s = .next (if s.done then { s with host := rest, replies := s.statusWord :: s.replies } else s) := by
  simp only [hostTurn, h]
  split <;> rfl

/-- Settles O13: the step is the turn of a WAIT, and a turn of the latency does not show in STATUS. -/
theorem waitEndsOnDone : Obligations.WaitEndsOnDone := by
  intro s u rest hhost hturn
  have hu : step s = hostTurn u ∧ u.host = .wait :: rest ∧ u.done = s.done ∧ u.replies = s.replies ∧
      u.statusWord = s.statusWord := by
    rcases hturn with ⟨hidle, rfl⟩ | ⟨w, n, hbusy, rfl⟩
    · exact ⟨step_idle hidle, hhost, rfl, rfl, rfl⟩
    · exact ⟨step_busy hbusy, hhost, rfl, rfl, statusWord_turn hbusy n⟩
  obtain ⟨hstep, hwait, hdone, hreplies, hstatus⟩ := hu
  rw [hstep, hostTurn_wait hwait, hdone, hreplies, hstatus, statusWord_done]
  exact ⟨fun h => ⟨by rw [if_pos h], h⟩, fun h => ⟨by simp [h], hwait, h⟩⟩

end Sys2Proof.Machine
end

section
/-! LOADM (R55): its accesses, one step each, are a SHAPE write and then `State.loadWords`, whose bits are known word by word. -/

namespace Sys2Proof.Machine

variable {s t : State} {i : Buf} {q n : Nat} {f : Nat → Word}

/-- The first n words of a matrix of q words a row stored in buffer i, word k of them `f k` (R33, R55). -/
def State.loadWords (i : Buf) (q : Nat) (f : Nat → Word) : Nat → State → State
  | 0, s => s
  | n + 1, s => State.setStoreWord i (n / q) (n % q) (f n) (State.loadWords i q f n s)

/-! ### What the stored words leave alone, and the bits they set -/

theorem setStoreWord_of_onlyMem (h : t = { s with mem := t.mem }) (r w : Nat) (v : Word) :
    State.setStoreWord i r w v t = { s with mem := (State.setStoreWord i r w v t).mem } := by
  rw [h]
  rfl

/-- Only memory changes (R14, R33). -/
theorem loadWords_eq (i : Buf) (q : Nat) (f : Nat → Word) (n : Nat) (s : State) :
    State.loadWords i q f n s = { s with mem := (State.loadWords i q f n s).mem } := by
  induction n with
  | zero => rfl
  | succ n ih => exact setStoreWord_of_onlyMem ih _ _ _

@[simp] theorem loadWords_params (n : Nat) : (State.loadWords i q f n s).params = s.params := by
  rw [loadWords_eq]

@[simp] theorem loadWords_epoch (n : Nat) : (State.loadWords i q f n s).epoch = s.epoch := by
  rw [loadWords_eq]

@[simp] theorem shapeOf_loadWords (n : Nat) (j : Buf) : (State.loadWords i q f n s).shapeOf j = s.shapeOf j := by
  rw [loadWords_eq]
  rfl

/-- The first n words all stand in the storage of a buffer (R31). -/
def WordsFit (p : Params) (q n : Nat) : Prop := ∀ k < n, 0 < q ∧ k / q < p.rmax ∧ k % q < p.wpr

theorem WordsFit.of_succ {p : Params} (h : WordsFit p q (n + 1)) : WordsFit p q n := fun k hk => h k (by omega)

/-- The words of a matrix in range fit (R13, R55). -/
theorem wordsFit_of_inRange {p : Params} (hl : p.legal) {r c : Nat} (hr : r ≤ p.rmax) (hc : c ≤ p.cmax) :
    WordsFit p ((c + 31) / 32) (r * ((c + 31) / 32)) := by
  intro k hk
  obtain ⟨hcmax, -, -⟩ := Params.legal_wpr hl
  have hq : 0 < (c + 31) / 32 := Nat.pos_of_mul_pos_left (Nat.zero_lt_of_lt hk)
  have hrow : k / ((c + 31) / 32) < r := Nat.div_lt_of_lt_mul (by rwa [Nat.mul_comm])
  have hword : k % ((c + 31) / 32) < (c + 31) / 32 := Nat.mod_lt _ hq
  exact ⟨hq, by omega, by omega⟩

theorem read_loadWords_outside (hfit : WordsFit s.params q n) {a : Nat} (ha : ¬ InStorage s.params i a) :
    (State.loadWords i q f n s).mem.read a = s.mem.read a := by
  induction n with
  | zero => rfl
  | succ n ih =>
    obtain ⟨-, hr, hw⟩ := hfit n (by omega)
    have hbounds := waddr_bounds i hr hw
    rw [State.loadWords, State.setStoreWord_mem, loadWords_params, Memory.read_writeBlock_outside, ih hfit.of_succ]
    rw [length_wordBytes]
    intro h
    exact ha ⟨hbounds.1.trans h.1, h.2.trans_le hbounds.2⟩

theorem storeByte_loadWords_outside (hfit : WordsFit s.params q n) {a : Nat} (ha : ¬ InStorage s.params i a) :
    (State.loadWords i q f n s).storeByte a = s.storeByte a := by
  rw [State.storeByte, read_loadWords_outside hfit ha, loadWords_epoch, State.storeByte]

/-- A word's index gives its row and its place in the row (R55). -/
theorem row_word_iff (hq : 0 < q) {r w : Nat} : r = n / q ∧ w = n % q ↔ w < q ∧ r * q + w = n := by
  constructor
  · rintro ⟨rfl, rfl⟩
    exact ⟨Nat.mod_lt _ hq, Nat.div_add_mod' n q⟩
  · rintro ⟨hw, rfl⟩
    rw [Nat.mul_comm, Nat.mul_add_div hq, Nat.mul_add_mod, Nat.div_eq_of_lt hw, Nat.mod_eq_of_lt hw]
    exact ⟨rfl, rfl⟩

theorem row_lt_iff {r w rows : Nat} (hw : w < q) : r < rows ↔ r * q + w < rows * q := by
  have hq : 0 < q := Nat.zero_lt_of_lt hw
  obtain ⟨hrow, -⟩ := (row_word_iff hq).mpr ⟨hw, rfl⟩
  rw [← Nat.div_lt_iff_lt_mul hq, ← hrow]

/-- After n words a storage bit is a bit of its word where that word is one of them, and as before where it is not. -/
theorem bits_loadWords (hl : s.params.legal) (hfit : WordsFit s.params q n) {r c : Nat} (hr : r < s.params.rmax)
    (hc : c < s.params.cmax) :
    if c / 32 < q ∧ r * q + c / 32 < n then
      (State.loadWords i q f n s).storeBit i r c = (f (r * q + c / 32)).getLsbD (c % 32) ∧
        (State.loadWords i q f n s).bitSpecified i r c = true
    else
      (State.loadWords i q f n s).storeBit i r c = s.storeBit i r c ∧
        (State.loadWords i q f n s).bitSpecified i r c = s.bitSpecified i r c := by
  induction n with
  | zero => simp [State.loadWords]
  | succ n ih =>
    obtain ⟨hq, hnr, hnw⟩ := hfit n (by omega)
    have ih := ih hfit.of_succ
    rw [State.loadWords]
    by_cases hlast : r = n / q ∧ c / 32 = n % q
    · obtain ⟨hword, hindex⟩ := (row_word_iff hq).mp hlast
      have hbit : c % 32 < 32 := Nat.mod_lt c (by decide)
      have hcol : 32 * (n % q) + c % 32 = c := by omega
      rw [if_pos ⟨hword, by omega⟩, hindex, hlast.1]
      have hstored := storeBit_setStoreWord (State.loadWords i q f n s) i (n / q) (n % q) (f n) hbit
      have hwritten := bitSpecified_setStoreWord (State.loadWords i q f n s) i (n / q) (n % q) (f n) hbit
      rw [hcol] at hstored hwritten
      exact ⟨hstored, hwritten⟩
    · have hother : ¬ (i = i ∧ r = n / q ∧ c / 32 = n % q) := fun h => hlast h.2
      have hsame : c / 32 < q ∧ r * q + c / 32 < n + 1 ↔ c / 32 < q ∧ r * q + c / 32 < n := by
        have := mt (row_word_iff hq).mpr hlast
        omega
      rw [← loadWords_params (i := i) (f := f) n] at hl hr hc hnr hnw
      rw [storeBit_setStoreWord_other hl hnr hnw (f n) hr hc hother,
        bitSpecified_setStoreWord_other hl hnr hnw (f n) hr hc hother]
      simpa only [hsame] using ih

/-! ### The accesses -/

/-- A run with one step more. -/
theorem runFor_snoc {u v : State} (hrun : runFor n s = .next u) (hstep : step u = .next v) :
    runFor (n + 1) s = .next v := by
  induction n generalizing s with
  | zero =>
    cases hrun
    rw [runFor, hstep]
    rfl
  | succ n ih =>
    rw [runFor] at hrun ⊢
    cases hfirst : step s with
    | next t =>
      rw [hfirst] at hrun
      exact ih hrun
    | fault r | refused r =>
      rw [hfirst] at hrun
      cases hrun

section
variable {v : Word} {rest : List HostEvent} (hidle : s.phase = .idle)
include hidle

/-- A word access at a multiple of 4 is performed in its step (R34). -/
theorem step_hostW {off : Nat} (halign : off % 4 = 0) (hhost : s.host = hostW off v :: rest) :
    step s = .next (State.hostWrite (BitVec.ofNat 16 off) v { s with host := rest }) := by
  rw [step_idle hidle, hostTurn_write hhost, if_pos]
  simp only [BitVec.toNat_ofNat, true_and]
  omega

theorem step_windowWrite (hl : s.params.legal) {r w : Nat} (hr : r < s.params.rmax) (hw : w < s.params.wpr)
    (hhost : s.host = hostW (waddr s.params i r w) v :: rest) :
    step s = .next { State.setStoreWord i r w v s with host := rest } := by
  have halign : waddr s.params i r w % 4 = 0 := by
    unfold waddr wbase
    omega
  rw [step_hostW hidle halign hhost,
    hostWrite_window_of_idle (s := { s with host := rest }) (targetOf_waddr hl i hr hw) hidle]
  rfl

theorem step_shapeWrite (hhost : s.host = hostW (0x020 + 4 * i.val) v :: rest) :
    step s = .next { State.setShape i (Shape.ofWord v) s with host := rest } := by
  rw [step_hostW hidle (by omega) hhost, hostWrite_shape,
    if_neg (by simp [State.busy_of_idle (s := { s with host := rest }) hidle])]
  rfl

/-- The window writes of LOADM run as `State.loadWords` (R33, R55). -/
theorem runFor_windowWrites (hl : s.params.legal) (hfit : WordsFit s.params q n) :
    runFor n { s with
        host := (List.range n).map (fun k => hostW (waddr s.params i (k / q) (k % q)) (f k)) ++ rest } =
      .next { State.loadWords i q f n s with host := rest } := by
  induction n generalizing rest with
  | zero => rfl
  | succ n ih =>
    obtain ⟨-, hr, hw⟩ := hfit n (by omega)
    rw [List.range_succ, List.map_append, List.append_assoc]
    refine runFor_snoc (ih hfit.of_succ) ?_
    have hphase : (State.loadWords i q f n s).phase = .idle := by
      rw [loadWords_eq]
      exact hidle
    rw [← loadWords_params (i := i) (f := f) n] at hl hr hw
    exact step_windowWrite (i := i) (v := f n)
      (s := { State.loadWords i q f n s with host := hostW (waddr s.params i (n / q) (n % q)) (f n) :: rest })
      hphase hl hr hw (by rw [loadWords_params])

end

/-! ### The whole of LOADM -/

/-- The word LOADM writes to a SHAPE (R55). -/
theorem toNat_loadShapeWord {r c : Nat} (hr : r < 256) (hc : c < 256) : (loadShapeWord r c).toNat = c * 2 ^ 16 + r := by
  have hrows : (BitVec.ofNat 32 r).toNat = r := by
    rw [BitVec.toNat_ofNat, Nat.mod_eq_of_lt (by omega)]
  have hcols : (BitVec.ofNat 32 c).toNat = c := by
    rw [BitVec.toNat_ofNat, Nat.mod_eq_of_lt (by omega)]
  rw [loadShapeWord, BitVec.or_comm, toNat_or_shiftLeft (by omega) (by omega), hrows, hcols, Nat.add_comm]

/-- Buffer i loaded with an r×c matrix by its row words (R55). -/
def State.loadMatrix (i : Buf) (r c : Nat) (ws : List Word) (s : State) : State :=
  State.loadWords i ((c + 31) / 32) (ws.getD · 0) (r * ((c + 31) / 32))
    (State.setShape i (Shape.ofWord (loadShapeWord r c)) s)

theorem loadMatrix_params (i : Buf) (r c : Nat) (ws : List Word) (s : State) :
    (State.loadMatrix i r c ws s).params = s.params := by
  rw [State.loadMatrix, loadWords_params, State.setShape_params]

section
variable {r c : Nat} (hl : s.params.legal) (hr : r ≤ s.params.rmax) (hc : c ≤ s.params.cmax) (ws : List Word)
include hl hr hc

/-- The accesses of LOADM, one step each, load the matrix. -/
theorem runFor_loadm (hidle : s.phase = .idle) {rest : List HostEvent} (hhost : s.host = loadm s.params i r c ws ++ rest) :
    runFor (1 + r * ((c + 31) / 32)) s = .next { State.loadMatrix i r c ws s with host := rest } := by
  rw [Nat.add_comm, runFor, step_shapeWrite hidle hhost]
  exact runFor_windowWrites (s := State.setShape i _ s) hidle hl (wordsFit_of_inRange hl hr hc)

theorem shape_loadMatrix :
    (State.loadMatrix i r c ws s).rowsOf i = r ∧ (State.loadMatrix i r c ws s).colsOf i = c := by
  obtain ⟨-, hrmax, -, -, hcmax, -⟩ := hl
  have hword := toNat_loadShapeWord (r := r) (c := c) (by omega) (by omega)
  rw [State.rowsOf, State.colsOf, State.loadMatrix, shapeOf_loadWords, shapeOf_setShape_self, Shape.ofWord_rows,
    Shape.ofWord_cols, hword]
  omega

theorem keptOutside_loadMatrix : KeptOutside s (State.loadMatrix i r c ws s) i where
  shapes _ hj := (shapeOf_loadWords ..).trans (shapeOf_setShape_other hj)
  bytes _ ha :=
    have hfit := wordsFit_of_inRange hl hr hc
    ⟨read_loadWords_outside (s := State.setShape i _ s) hfit ha, storeByte_loadWords_outside (s := State.setShape i _ s) hfit ha⟩

theorem bits_loadMatrix {rr cc : Nat} (hrr : rr < s.params.rmax) (hcc : cc < s.params.cmax) :
    if rr < r ∧ cc / 32 < (c + 31) / 32 then
      (State.loadMatrix i r c ws s).storeBit i rr cc =
          (ws.getD (rr * ((c + 31) / 32) + cc / 32) 0).getLsbD (cc % 32) ∧
        (State.loadMatrix i r c ws s).bitSpecified i rr cc = true
    else
      (State.loadMatrix i r c ws s).storeBit i rr cc = s.storeBit i rr cc ∧
        (State.loadMatrix i r c ws s).bitSpecified i rr cc = s.bitSpecified i rr cc := by
  have hbits := bits_loadWords (s := State.setShape i (Shape.ofWord (loadShapeWord r c)) s) (i := i) (f := (ws.getD · 0)) hl
    (wordsFit_of_inRange hl hr hc) hrr hcc
  have hrow : rr < r ∧ cc / 32 < (c + 31) / 32 ↔
      cc / 32 < (c + 31) / 32 ∧ rr * ((c + 31) / 32) + cc / 32 < r * ((c + 31) / 32) :=
    and_comm.trans (and_congr_right row_lt_iff)
  simp only [hrow]
  exact hbits

/-- What LOADM has loaded is a readable source (R13, R101). -/
theorem ready_loadMatrix : (State.loadMatrix i r c ws s).Ready i := by
  obtain ⟨hrows, hcols⟩ := shape_loadMatrix (i := i) hl hr hc ws
  rw [State.Ready, hrows, hcols, loadMatrix_params]
  refine ⟨⟨hr, hc⟩, fun rr hrr cc hcc => ?_⟩
  have hbit := bits_loadMatrix (i := i) hl hr hc ws (hrr.trans_le hr) (hcc.trans_le hc)
  rw [if_pos ⟨hrr, by omega⟩] at hbit
  exact hbit.2

end

/-- Settles O28: the first step writes the SHAPE, each later one a word of the matrix. -/
theorem loadmLoadsTheMatrix : Obligations.LoadmLoadsTheMatrix := by
  intro s i r c ws rest hl hidle hr hc hhost
  obtain ⟨hrows, hcols⟩ := shape_loadMatrix (i := i) hl hr hc ws
  have hkept := keptOutside_loadMatrix (i := i) hl hr hc ws
  refine ⟨_, runFor_loadm hl hr hc ws hidle hhost, ?_, hrows, hcols, ready_loadMatrix hl hr hc ws,
    ⟨hkept.shapes, hkept.bytes⟩, fun rr hrr cc hcc => bits_loadMatrix (i := i) hl hr hc ws hrr hcc⟩
  rw [State.loadMatrix, loadWords_eq]
  rfl

end Sys2Proof.Machine
end

section
/-! What a completion writes at most (R62, R83), whichever command word it completes. -/

namespace Sys2Proof.Machine

variable {s t : State}

/-- Memory, the SHAPEs, ERR with its code, RESULT, DCOUNT and the model's counter aside, t is s with DONE set and the phase
Idle. -/
def CompletionWrites (s t : State) : Prop :=
  t = { s with
    mem := t.mem
    shape := t.shape
    done := true
    err := t.err
    errcode := t.errcode
    result := t.result
    dcount := t.dcount
    phase := .idle
    fresh := t.fresh }

theorem complete_writes {d : Option (Buf × Mat)} {res dc : Word} (h : complete d res dc s = .next t) :
    CompletionWrites s t := by
  cases h
  cases d <;> rfl

theorem raiseError_writes {code : ErrCode} (h : raiseError code s = .next t) : CompletionWrites s t := by
  cases h
  rfl

theorem exec_writes {i : Instr} (h : exec i s = .next t) : CompletionWrites s t := by
  obtain ⟨d, res, dc, -, he⟩ | ⟨code, -, he⟩ | ⟨d, -, he⟩ | ⟨rd, rs1, -, he⟩ := exec_cases i s <;> rw [he] at h
  · exact complete_writes h
  · exact raiseError_writes h
  · exact complete_writes (s := { s with fresh := s.fresh + 1 }) h
  · cases h
    rfl

theorem runCommand_writes {w : Word} (h : runCommand w s = .next t) : CompletionWrites s t := by
  cases hw : decode w with
  | ok i =>
    rw [runCommand, hw] at h
    exact exec_writes h
  | error e =>
    rw [runCommand_illegal ⟨e, hw⟩] at h
    exact raiseError_writes h

end Sys2Proof.Machine
end

section
/-! The life of an accepted command (R62, R64): the host's turns leave what it runs on, and then it completes. -/

namespace Sys2Proof.Machine

variable {s : State} {w : Word} {n : Nat}

/-- t is as s in all that a busy engine's command runs on: the accepted word, the storage, the SHAPEs and the parameters. -/
structure CommandKept (s t : State) : Prop where
  phase : t.phase = s.phase
  mem : t.mem = s.mem
  shape : t.shape = s.shape
  params : t.params = s.params

/-- While the engine is busy no write but a soft reset reaches its command (R98). -/
theorem hostWrite_commandKept {off : Offset} {v : Word} (hbusy : s.busy = true)
    (hreset : ¬ (off = 0x008 ∧ v.getLsbD 1 = true)) : CommandKept s (s.hostWrite off v) := by
  obtain he | ⟨-, he⟩ | ⟨hidle, -⟩ | ⟨_, hidle, -⟩ | ⟨_, _, _, hidle, -⟩ | he | ⟨hoff, hv, -⟩ | he :=
    hostWrite_cases off v s
  case inr.inr.inr.inr.inr.inr.inl => exact absurd ⟨hoff, hv⟩ hreset
  case inr.inr.inl | inr.inr.inr.inl | inr.inr.inr.inr.inl => simp [hbusy] at hidle
  all_goals
    rw [he]
    exact ⟨rfl, rfl, rfl, rfl⟩

/-- What the host has pending is no part of the engine. -/
@[simp] theorem hostWrite_host (off : Offset) (v : Word) (s : State) : (s.hostWrite off v).host = s.host := by
  obtain he | ⟨-, he⟩ | ⟨-, -, he⟩ | ⟨_, -, he⟩ | ⟨_, _, _, -, -, he⟩ | he | ⟨-, -, he⟩ | he :=
    hostWrite_cases off v s <;> simp [he]

/-- A turn of a busy engine whose first pending event lets the command run is performed, keeps the command and uses up that event
or nothing. -/
theorem hostTurn_of_letsCommandRun (hbusy : s.busy = true) (hlets : ∀ e ∈ s.host.head?, LetsCommandRun e) :
    ∃ t, hostTurn s = .next t ∧ CommandKept s t ∧ (t.host = s.host ∨ t.host = s.host.tail) := by
  cases hhost : s.host with
  | nil => exact ⟨s, by simp only [hostTurn, hhost], ⟨rfl, rfl, rfl, rfl⟩, .inl hhost⟩
  | cons event rest =>
    have hevent : LetsCommandRun event := hlets event (by simp [hhost])
    cases event with
    | read off size => exact ⟨_, (hostTurn_read hhost).trans (if_pos hevent), ⟨rfl, rfl, rfl, rfl⟩, .inr rfl⟩
    | write off size v =>
      obtain ⟨hsize, halign, hreset⟩ := hevent
      have hkept := hostWrite_commandKept (s := { s with host := rest }) hbusy hreset
      exact ⟨_, (hostTurn_write hhost).trans (if_pos ⟨hsize, halign⟩), { hkept with }, .inr (hostWrite_host off v _)⟩
    | wait =>
      rw [hostTurn_wait hhost]
      cases s.done with
      | true => exact ⟨_, rfl, ⟨rfl, rfl, rfl, rfl⟩, .inr rfl⟩
      | false => exact ⟨s, rfl, ⟨rfl, rfl, rfl, rfl⟩, .inl hhost⟩
    | hardReset => exact hevent.elim

/-- The n turns left of the latency lead to the state in which the command is due, its operands kept (R28, R64). -/
theorem runFor_latency (hphase : s.phase = .busy w n) (hlets : ∀ e ∈ s.host.take n, LetsCommandRun e) :
    ∃ u, runFor n s = .next u ∧ u.phase = .busy w 0 ∧ u.mem = s.mem ∧ u.shape = s.shape ∧ u.params = s.params := by
  induction n generalizing s with
  | zero => exact ⟨s, rfl, hphase, rfl, rfl, rfl⟩
  | succ n ih =>
    have hfirst : ∀ e ∈ s.host.head?, LetsCommandRun e := fun e he => hlets e (by
      obtain ⟨rest, hrest⟩ := List.head?_eq_some_iff.mp he
      simp [hrest])
    obtain ⟨t, hturn, hkept, hhost⟩ := hostTurn_of_letsCommandRun (s := { s with phase := .busy w n }) rfl hfirst
    have hlater : ∀ e ∈ t.host.take n, LetsCommandRun e := fun e he => hlets e (by
      obtain hhost | hhost := hhost <;> rw [hhost] at he
      · exact List.take_subset_take_left _ n.le_succ he
      · have htail : (s.host.take (n + 1)).tail = s.host.tail.take n := List.tail_take_eq_take_tail _ _
        exact List.mem_of_mem_tail (htail ▸ he))
    obtain ⟨u, hrun, hdue, hmem, hshape, hparams⟩ := ih hkept.phase hlater
    refine ⟨u, ?_, hdue, hmem.trans hkept.mem, hshape.trans hkept.shape, hparams.trans hkept.params⟩
    rw [runFor, step_busy hphase, hturn]
    exact hrun

/-- Settles O9: the turns of the latency keep the command and its operands, and the step after them completes it. -/
theorem acceptedCommandCompletes : Obligations.AcceptedCommandCompletes := by
  intro s w n hphase hlets
  obtain ⟨u, hrun, hdue, hmem, hshape, hparams⟩ := runFor_latency hphase hlets
  obtain ⟨t, ht⟩ := runCommand_next w u
  exact ⟨u, t, hrun, hdue, hmem, hshape, hparams, ht, runFor_snoc hrun ((step_complete hdue).trans ht),
    (runCommand_completed ht).phase, congrArg State.done (runCommand_writes ht)⟩

end Sys2Proof.Machine
end

section
/-! What a command does depends only on the parameters and on what it reads from its sources (R59 to R61). Two runs of one command
are compared, each on its own sources: both fail with one code, or both succeed with one result, or both have read unspecified
storage (R101). -/

namespace Sys2Proof.Machine

variable {s s' t : State} {b b' : Buf}

/-! ### What a command reads from a source -/

/-- A command reads the same from buffer b' of s' as from buffer b of s. -/
structure SameSource (s s' : State) (b b' : Buf) : Prop where
  inRange : s'.inRange b' = s.inRange b
  specified : s'.specified b' = s.specified b
  matrix : s'.matrix b' = s.matrix b

theorem SameSource.rowsOf (h : SameSource s s' b b') : s'.rowsOf b' = s.rowsOf b := congrArg Mat.rows h.matrix

theorem SameSource.colsOf (h : SameSource s s' b b') : s'.colsOf b' = s.colsOf b := congrArg Mat.cols h.matrix

/-- One buffer of two states that agree inside its shape. -/
theorem SameOperand.sameSource (h : SameOperand s s' b) (hparams : s'.params = s.params) : SameSource s s' b b := by
  obtain ⟨hshape, hbits⟩ := h
  have hrows : s'.rowsOf b = s.rowsOf b := congrArg (·.rows.toNat) hshape
  have hcols : s'.colsOf b = s.colsOf b := congrArg (·.cols.toNat) hshape
  refine ⟨?_, Bool.eq_iff_iff.mpr ?_, ?_⟩
  · rw [State.inRange, hrows, hcols, hparams, State.inRange]
  · rw [specified_iff, specified_iff, hrows, hcols]
    exact forall₄_congr fun r hr c hc => by rw [(hbits r hr c hc).2]
  · rw [State.matrix, hrows, hcols]
    exact Mat.ofFn_congr fun r hr c hc => (hbits r hr c hc).1

/-- Two ready buffers of one state that hold one matrix. -/
theorem sameSource_of_copy (hready : s.Ready b) (hready' : s.Ready b') (hcopy : s.matrix b' = s.matrix b) :
    SameSource s s b b' := by
  rw [ready_iff] at hready hready'
  exact ⟨hready'.1.trans hready.1.symm, hready'.2.trans hready.2.symm, hcopy⟩

/-! ### Two runs with one outcome -/

/-- The results r from s and r' from s' are one outcome of a command with destination `dest`. -/
inductive SameOutcome (s s' : State) (dest : Option Buf) : Result → Result → Prop where
  | failure (code : ErrCode) (hcode : code ≠ .none) : SameOutcome s s' dest (raiseError code s) (raiseError code s')
  | success (d : Option (Buf × Mat)) (res dc : Word) (hd : d.map Prod.fst = dest) :
    SameOutcome s s' dest (complete d res dc s) (complete d res dc s')
  /-- The free values are told apart by the counter, which the completion advances. -/
  | unspecified (f : State → Result) (hfresh : ∀ u v, f u = .next v → v.fresh = u.fresh + 1) :
    SameOutcome s s' dest (f s) (f s')

variable {dest : Option Buf} {r r' : Result} {c : Prop} [Decidable c]

/-- A check that both runs make alike. -/
theorem SameOutcome.check {code : ErrCode} (h : SameOutcome s s' dest r r') (hcode : code ≠ .none := by decide) :
    SameOutcome s s' dest (if c then raiseError code s else r) (if c then raiseError code s' else r') := by
  split
  · exact .failure code hcode
  · exact h

/-- The question of R101, which both runs answer alike. -/
theorem SameOutcome.operands {d : Option (Buf × Nat × Nat)} (h : SameOutcome s s' dest r r') :
    SameOutcome s s' dest (if c then completeUnspecified d s else r) (if c then completeUnspecified d s' else r') := by
  split
  · refine .unspecified (completeUnspecified d) fun u v hv => ?_
    cases hv
    simp
  · exact h

/-- INV over unspecified storage: SINGULAR or not by a free value (R101). -/
def execInvUnspecified (d : Option (Buf × Nat × Nat)) (s : State) : Result :=
  if Config.freeSingular s.fresh then raiseUnspecifiedSingular s else completeUnspecified d s

theorem fresh_execInvUnspecified {d : Option (Buf × Nat × Nat)} (h : execInvUnspecified d s = .next t) :
    t.fresh = s.fresh + 1 := by
  unfold execInvUnspecified at h
  split at h <;> cases h
  · rfl
  · simp

theorem SameOutcome.invOperands {d : Option (Buf × Nat × Nat)} (h : SameOutcome s s' dest r r') :
    SameOutcome s s' dest (if c then execInvUnspecified d s else r) (if c then execInvUnspecified d s' else r') := by
  split
  · exact .unspecified (execInvUnspecified d) fun _ _ => fresh_execInvUnspecified
  · exact h

/-! ### Each command on sources it reads alike -/

section
variable {rs1 a : Buf} (h1 : SameSource s s' rs1 a) (rd : Buf)
include h1

theorem execRank_sameOutcome : SameOutcome s s' none (execRank rs1 s) (execRank a s') := by
  simp only [execRank, h1.inRange, h1.specified, h1.matrix, h1.colsOf]
  exact .check <| .operands <| .success _ _ _ rfl

theorem execIsinv_sameOutcome : SameOutcome s s' none (execIsinv rs1 s) (execIsinv a s') := by
  simp only [execIsinv, h1.inRange, h1.specified, h1.matrix, h1.rowsOf, h1.colsOf]
  exact .check <| .check <| .operands <| .success _ _ _ rfl

theorem execWeight_sameOutcome : SameOutcome s s' none (execWeight rs1 s) (execWeight a s') := by
  simp only [execWeight, h1.inRange, h1.specified, h1.matrix]
  exact .check <| .operands <| .success _ _ _ rfl

theorem execReduce_sameOutcome : SameOutcome s s' (some rd) (execReduce rd rs1 s) (execReduce rd a s') := by
  simp only [execReduce, h1.inRange, h1.specified, h1.matrix, h1.rowsOf, h1.colsOf]
  exact .check <| .operands <| .success _ _ _ rfl

theorem execInv_sameOutcome : SameOutcome s s' (some rd) (execInv rd rs1 s) (execInv rd a s') := by
  simp only [execInv, h1.inRange, h1.specified, h1.matrix, h1.rowsOf, h1.colsOf]
  exact .check <| .check <| .invOperands <| .check <| .success _ _ _ rfl

variable (hparams : s'.params = s.params)
include hparams

theorem execPinv_sameOutcome : SameOutcome s s' (some rd) (execPinv rd rs1 s) (execPinv rd a s') := by
  simp only [execPinv, h1.inRange, h1.specified, h1.matrix, h1.rowsOf, h1.colsOf, hparams]
  exact .check <| .check <| .operands <| .success _ _ _ rfl

omit hparams
variable {rs2 b : Buf} (h2 : SameSource s s' rs2 b)
include h2

theorem execMmul_sameOutcome : SameOutcome s s' (some rd) (execMmul rd rs1 rs2 s) (execMmul rd a b s') := by
  simp only [execMmul, h1.inRange, h1.specified, h1.matrix, h1.rowsOf, h1.colsOf, h2.inRange, h2.specified, h2.matrix,
    h2.rowsOf, h2.colsOf]
  exact .check <| .check <| .check <| .operands <| .success _ _ _ rfl

theorem execMadd_sameOutcome : SameOutcome s s' (some rd) (execMadd rd rs1 rs2 s) (execMadd rd a b s') := by
  simp only [execMadd, h1.inRange, h1.specified, h1.matrix, h1.rowsOf, h1.colsOf, h2.inRange, h2.specified, h2.matrix,
    h2.rowsOf, h2.colsOf]
  exact .check <| .check <| .check <| .operands <| .success _ _ _ rfl

include hparams

theorem execDecode_sameOutcome : SameOutcome s s' (some rd) (execDecode rd rs1 rs2 s) (execDecode rd a b s') := by
  simp only [execDecode, h1.inRange, h1.specified, h1.matrix, h1.rowsOf, h1.colsOf, h2.inRange, h2.specified, h2.matrix,
    h2.rowsOf, h2.colsOf, hparams]
  exact .check <| .check <| .check <| .check <| .operands <| .success _ _ _ rfl

end

theorem exec_sameOutcome {i : Instr} (hparams : s'.params = s.params) (hsame : ∀ b ∈ i.sources, SameSource s s' b b) :
    SameOutcome s s' i.destination (exec i s) (exec i s') := by
  cases i with
  | nop => exact .success none 0 0 rfl
  | rank rs1 => exact execRank_sameOutcome (hsame rs1 (List.Mem.head _))
  | isinv rs1 => exact execIsinv_sameOutcome (hsame rs1 (List.Mem.head _))
  | weight rs1 => exact execWeight_sameOutcome (hsame rs1 (List.Mem.head _))
  | reduce rd rs1 => exact execReduce_sameOutcome (hsame rs1 (List.Mem.head _)) rd
  | inv rd rs1 => exact execInv_sameOutcome (hsame rs1 (List.Mem.head _)) rd
  | pinv rd rs1 => exact execPinv_sameOutcome (hsame rs1 (List.Mem.head _)) rd hparams
  | mmul rd rs1 rs2 =>
    exact execMmul_sameOutcome (hsame rs1 (List.Mem.head _)) rd (hsame rs2 (List.Mem.tail _ (List.Mem.head _)))
  | madd rd rs1 rs2 =>
    exact execMadd_sameOutcome (hsame rs1 (List.Mem.head _)) rd (hsame rs2 (List.Mem.tail _ (List.Mem.head _)))
  | decode rd rs1 rs2 =>
    exact execDecode_sameOutcome (hsame rs1 (List.Mem.head _)) rd hparams (hsame rs2 (List.Mem.tail _ (List.Mem.head _)))

/-! ### What one outcome means -/

/-- Unspecified storage aside, a command draws no free value. -/
theorem exec_fresh {i : Instr} (h : (∀ b ∈ i.sources, s.Ready b) ∨ ¬ s.PassesChecks i) (ht : exec i s = .next t) :
    t.fresh = s.fresh := by
  obtain ⟨code, he⟩ | ⟨d, res, dc, he, -, -⟩ := exec_scalars h <;> rw [he] at ht <;> cases ht
  · rfl
  · simp

/-- Where no free value is drawn, one outcome means equal scalar results, code and destination. -/
theorem SameOutcome.destination (h : SameOutcome s s' dest r r') (hl : s.params.legal) (hparams : s'.params = s.params)
    (ht : r = .next t) (hfresh : t.fresh = s.fresh) :
    ∃ t', r' = .next t' ∧ t'.result = t.result ∧ t'.dcount = t.dcount ∧ t'.errcode = t.errcode ∧
      ∀ rd, dest = some rd → t.errcode = .none →
        t'.shapeOf rd = t.shapeOf rd ∧
          ∀ r < s.params.rmax, ∀ c < s.params.cmax, t'.storeBit rd r c = t.storeBit rd r c := by
  cases h with
  | failure code hcode =>
    cases ht
    exact ⟨_, rfl, rfl, rfl, rfl, fun _ _ hnone => absurd hnone hcode⟩
  | success d res dc hd =>
    cases ht
    refine ⟨_, rfl, rfl, rfl, rfl, fun rd hrd _ => ?_⟩
    obtain ⟨⟨i, V⟩, rfl, rfl⟩ := Option.map_eq_some_iff.mp (hd.trans hrd)
    exact ⟨(shapeOf_commit_self i V s').trans (shapeOf_commit_self i V s).symm, fun r hr c hc =>
      (storeBit_commit (hparams ▸ hl) (hparams ▸ hr) (hparams ▸ hc)).trans (storeBit_commit hl hr hc).symm⟩
  | unspecified f hadvance =>
    have := hadvance s t ht
    omega

/-- Settles O50: the two states agree on all that the command reads. -/
theorem onlyNamedBuffersMatter : Obligations.OnlyNamedBuffersMatter := by
  intro i s s' t hl hparams hsame hspecified ht
  have hsources : ∀ b ∈ i.sources, SameSource s s' b b := fun b hb => (hsame b hb).sameSource hparams
  exact (exec_sameOutcome hparams hsources).destination hl hparams ht (exec_fresh hspecified ht)

/-- From one state one outcome is one result. -/
theorem SameOutcome.eq (h : SameOutcome s s dest r r') : r = r' := by
  cases h <;> rfl

/-- Settles O51: a copy gives the command all that it reads from the source. -/
theorem aliasedOperandsActAsCopies : Obligations.AliasedOperandsActAsCopies := by
  intro s rd rs1 rs2 a b hready1 hready2 hreadya hreadyb hcopya hcopyb
  have h1 := sameSource_of_copy hready1 hreadya hcopya
  have h2 := sameSource_of_copy hready2 hreadyb hcopyb
  exact ⟨(execReduce_sameOutcome h1 rd).eq, (execInv_sameOutcome h1 rd).eq, (execPinv_sameOutcome h1 rd rfl).eq,
    (execMmul_sameOutcome h1 rd h2).eq, (execMadd_sameOutcome h1 rd h2).eq, (execDecode_sameOutcome h1 rd rfl h2).eq⟩

end Sys2Proof.Machine
end

section
/-! The frame of a command (R62, R63, R83): which bytes and SHAPEs it can write, and what else of the state it leaves alone. -/

namespace Sys2Proof.Machine

variable {s t : State} {i : Instr} {rd : Buf}

/-! ### Buffers -/

theorem complete_buffers {d : Option (Buf × Mat)} {res dc : Word} (h : complete d res dc s = .next t) :
    BuffersKept s t ∨ t.errcode = .none ∧ ∃ rd, d.map Prod.fst = some rd ∧ KeptOutside s t rd := by
  cases d with
  | none => exact .inl (complete_buffersKept h)
  | some dest => exact .inr ⟨congrArg State.errcode (complete_succeeded h), dest.1, rfl, complete_keptOutside h⟩

/-- A command writes no buffer but the one its RD names, and that one only where it succeeds. -/
theorem exec_buffers (h : exec i s = .next t) :
    BuffersKept s t ∨ t.errcode = .none ∧ ∃ rd, i.destination = some rd ∧ KeptOutside s t rd := by
  obtain ⟨d, res, dc, hd, he⟩ | ⟨code, -, he⟩ | ⟨d, hd, he⟩ | ⟨_, _, -, he⟩ := exec_cases i s <;> rw [he] at h
  · exact hd ▸ complete_buffers h
  · cases h
    exact .inl ⟨rfl, rfl⟩
  · rw [← hd]
    obtain hkept | ⟨hcode, rd, hrd, hkept⟩ := complete_buffers h
    · exact .inl hkept
    · exact .inr ⟨hcode, rd, by simpa using hrd, { hkept with }⟩
  · cases h
    exact .inl ⟨rfl, rfl⟩

theorem BuffersKept.bytes (h : BuffersKept s t) (hepoch : t.epoch = s.epoch) (a : Nat) :
    t.mem.read a = s.mem.read a ∧ t.storeByte a = s.storeByte a := by
  simp only [State.storeByte, h.1, hepoch, and_self]

theorem BuffersKept.shapes (h : BuffersKept s t) (b : Buf) : t.shapeOf b = s.shapeOf b := by
  simp only [State.shapeOf, h.2]

/-! ### The rest of the state -/

/-- CTRL, WOB, CMD, the parameters and the model's records of the host and of the resets are as before. -/
def ControlKept (s t : State) : Prop :=
  t.irqEn = s.irqEn ∧ t.wob = s.wob ∧ t.cmdLast = s.cmdLast ∧ t.params = s.params ∧ t.host = s.host ∧
    t.replies = s.replies ∧ t.epoch = s.epoch

theorem CompletionWrites.controlKept (h : CompletionWrites s t) : ControlKept s t := by
  unfold CompletionWrites at h
  rw [h]
  exact ⟨rfl, rfl, rfl, rfl, rfl, rfl, rfl⟩

theorem CompletionWrites.epoch (h : CompletionWrites s t) : t.epoch = s.epoch := by
  unfold CompletionWrites at h
  rw [h]

/-! ### The two kinds of command -/

theorem destination_of_scalarCommand (h : ScalarCommand i) : i.destination = none := by
  obtain rfl | ⟨rs1, rfl | rfl | rfl⟩ := h <;> rfl

theorem destination_of_storingCommand (h : StoringCommand i rd) : i.destination = some rd := by
  obtain ⟨rs1, rfl | rfl | rfl⟩ | ⟨rs1, rs2, rfl | rfl | rfl⟩ := h <;> rfl

/-- Settles O48: without a destination a command writes no buffer. -/
theorem scalarCommandsFrame : Obligations.ScalarCommandsFrame := by
  intro i s t hscalar h
  have hwrites := exec_writes h
  obtain hkept | ⟨-, rd, hrd, -⟩ := exec_buffers h
  · exact ⟨hkept.bytes hwrites.epoch, hkept.shapes, hwrites.controlKept⟩
  · simp [destination_of_scalarCommand hscalar] at hrd

/-- Settles O49: a command writes its destination where it succeeds, and no buffer where it fails. -/
theorem storingCommandsFrame : Obligations.StoringCommandsFrame := by
  intro i rd s t hstoring h
  have hwrites := exec_writes h
  obtain hkept | ⟨hcode, rd', hrd, hkept⟩ := exec_buffers h
  · exact ⟨fun a _ => hkept.bytes hwrites.epoch a, fun b _ => hkept.shapes b, fun _ => hkept.bytes hwrites.epoch,
      fun _ => hkept.shapes, hwrites.controlKept⟩
  · obtain rfl : rd = rd' := Option.some.inj ((destination_of_storingCommand hstoring).symm.trans hrd)
    exact ⟨hkept.bytes, hkept.shapes, absurd hcode, absurd hcode, hwrites.controlKept⟩

end Sys2Proof.Machine
end

section
/-! The three short rules of a command's life: the step that runs it, its acceptance (R58), and NOP (R65). -/

namespace Sys2Proof.Machine

/-! ### The step -/

theorem runCommand_of_decode {w : Word} {i : Instr} (h : decode w = .ok i) (s : State) : runCommand w s = exec i s := by
  rw [runCommand, h]

/-- A word of 32 bits is read from its number unchanged (R48). -/
theorem wordOfTable_toNat (w : Word) : wordOfTable 32 w.toNat = w := by
  rw [wordOfTable, Nat.mod_eq_of_lt w.isLt, BitVec.ofNat_toNat, BitVec.setWidth_eq]

theorem decode_wordOfTable_encode (i : Instr) : decode (wordOfTable 32 (encode i).toNat) = .ok i := by
  rw [wordOfTable_toNat, decode_encode (Laws.instr_wellFormed i)]

/-- Settles O7: by the phase, with the word of an encoded instruction decoding to it. -/
theorem stepRunsDecodedCommand : Obligations.StepRunsDecodedCommand := by
  refine ⟨fun s w i hphase hdecode => ?_, fun s i => ?_, fun _ => step_idle, fun _ _ _ => step_busy⟩
  · exact (step_complete hphase).trans (runCommand_of_decode hdecode s)
  · exact (step_complete (State.capture_phase _ s)).trans (runCommand_of_decode (decode_wordOfTable_encode i) _)

/-! ### Acceptance -/

/-- A word written to CMD of an idle engine is accepted in that step (R58). -/
theorem step_commandWrite {s : State} {w : Word} {rest : List HostEvent} (hidle : s.phase = .idle)
    (hhost : s.host = .write 0x010 4 w :: rest) : step s = .next { State.accept w s with host := rest } := by
  rw [step_hostW (off := 0x010) hidle (by decide) hhost, hostWrite_cmd,
    if_neg (by simp [State.busy_of_idle (s := { s with host := rest }) hidle])]
  rfl

/-- Settles O8: the write is `State.accept` while idle and `State.dropWrite` while busy. -/
theorem commandWriteIsAccepted : Obligations.CommandWriteIsAccepted := by
  refine fun s w => ⟨fun hidle => ⟨State.accept w s, ?_, ⟨_, rfl⟩, rfl, rfl, fun rest => step_commandWrite hidle⟩,
    fun v n hbusy => ?_⟩
  · simp [State.busy_of_idle hidle]
  · have hb := State.busy_of_busy hbusy
    exact ⟨if_pos hb, if_pos hb, if_pos hb⟩

/-! ### NOP -/

/-- With DONE set and nothing else STATUS reads 2 (R21). -/
theorem statusWord_done_only {t : State} (hphase : t.phase = .idle) (hdone : t.done = true) (herr : t.err = false)
    (hwob : t.wob = false) (hcode : t.errcode = .none) : t.statusWord = 0x00000002 := by
  rw [State.statusWord, State.busy_of_idle hphase, hdone, herr, hwob, hcode]
  decide

/-- Settles O29: NOP is a success without a destination. -/
theorem nopCompletes : Obligations.NopCompletes := fun _ =>
  ⟨_, rfl, complete_succeeded rfl, complete_buffersKept rfl, fun herr hwob => statusWord_done_only rfl rfl herr hwob rfl⟩

end Sys2Proof.Machine
end

section
/-! The matrices of the model over the field of two elements (R7), as Mathlib has them. -/

namespace Sys2Proof.Machine

open Matrix

/-! ### Bits -/

/-- A bit as an element of the field of two elements. -/
def gf2 (b : Bool) : ZMod 2 := if b then 1 else 0

@[simp] theorem gf2_true : gf2 true = 1 := rfl

@[simp] theorem gf2_false : gf2 false = 0 := rfl

theorem gf2_injective : Function.Injective gf2 := by decide

@[simp] theorem gf2_beq (i j : Nat) : gf2 (i == j) = if i = j then 1 else 0 := by
  simp [gf2]

theorem gf2_xor : ∀ a b, gf2 (a ^^ b) = gf2 a + gf2 b := by decide

theorem gf2_and : ∀ a b, gf2 (a && b) = gf2 a * gf2 b := by decide

theorem gf2_xorSum (n : Nat) (f : Nat → Bool) : gf2 (xorSum n f) = ∑ l : Fin n, gf2 (f l) := by
  induction n with
  | zero => rfl
  | succ n ih => rw [xorSum, gf2_xor, ih, Fin.sum_univ_castSucc, Fin.val_last]; rfl

/-! ### Matrices -/

/-- The first r entries of a column. -/
def Mat.column (A : Mat) (r j : Nat) : Fin r → ZMod 2 := fun i => gf2 (A.get i j)

/-- The first r rows and c columns. -/
def Mat.overGF2 (A : Mat) (r c : Nat) : Matrix (Fin r) (Fin c) (ZMod 2) := of fun i j => A.column r j i

/-- The matrix of a buffer, read from its storage or from what a command reads (R12). -/
theorem overGF2_matrix (s : State) (b : Buf) : (s.matrix b).overGF2 (s.rowsOf b) (s.colsOf b) = s.overGF2 b := by
  ext i j
  exact congrArg gf2 (get_matrix i.isLt j.isLt)

theorem Mat.column_congr {A B : Mat} {r j j' : Nat} (h : ∀ i < r, A.get i j = B.get i j') :
    A.column r j = B.column r j' := funext fun i => congrArg gf2 (h i i.isLt)

theorem Mat.overGF2_congr {A B : Mat} {r c : Nat} (h : ∀ j < c, A.column r j = B.column r j) :
    A.overGF2 r c = B.overGF2 r c := by
  ext i j
  exact congrFun (h j j.isLt) i

theorem Mat.ofFn_eq_iff_overGF2 {r c : Nat} {f g : Nat → Nat → Bool} :
    Mat.ofFn r c f = Mat.ofFn r c g ↔ (Mat.ofFn r c f).overGF2 r c = (Mat.ofFn r c g).overGF2 r c := by
  refine ⟨fun h => by rw [h], fun h => Mat.ofFn_congr fun i hi j hj => ?_⟩
  have hbit := gf2_injective (congrFun₂ h ⟨i, hi⟩ ⟨j, hj⟩)
  simpa [hi, hj] using hbit

theorem Mat.overGF2_identity (n : Nat) : (Mat.identity n).overGF2 n n = 1 := by
  ext i j
  simp [Mat.overGF2, Mat.column, Mat.identity, one_apply, Fin.ext_iff]

/-- The product of R73 is the product over the field. -/
theorem Mat.overGF2_mul {A B : Mat} {r n c : Nat} (hr : A.rows = r) (hn : A.cols = n) (hc : B.cols = c) :
    (A.mul B).overGF2 r c = A.overGF2 r n * B.overGF2 n c := by
  subst hr hn hc
  ext i j
  simp only [Mat.overGF2, Mat.column, of_apply, Matrix.mul_apply, Mat.get_mul i.isLt j.isLt, gf2_xorSum, gf2_and]

/-- A product is the identity of R9 exactly when it is over the field. -/
theorem Mat.mul_eq_identity_iff {A B : Mat} {n : Nat} (hr : A.rows = n) (hn : A.cols = n) (hc : B.cols = n) :
    A.mul B = Mat.identity n ↔ A.overGF2 n n * B.overGF2 n n = 1 := by
  rw [← Mat.overGF2_mul hr hn hc, ← Mat.overGF2_identity]
  refine ⟨fun h => by rw [h], fun h => ?_⟩
  rw [Mat.mul, hr, hc] at h ⊢
  exact Mat.ofFn_eq_iff_overGF2.mpr h

end Sys2Proof.Machine
end

section
/-! Gaussian elimination (R66): every turn is an invertible row operation, and leaves the columns passed in reduced form. -/

namespace Sys2Proof.Machine

open Matrix

variable {A M : Mat} {p q pc col r c : Nat}

/-! ### Row operations -/

/-- The first c columns of M are those of A under one invertible row operation. -/
def Mat.RowEquiv (r c : Nat) (A M : Mat) : Prop :=
  ∃ L : Matrix (Fin r) (Fin r) (ZMod 2), IsUnit L ∧ ∀ j < c, M.column r j = L *ᵥ A.column r j

theorem Mat.RowEquiv.refl (r c : Nat) (A : Mat) : Mat.RowEquiv r c A A :=
  ⟨1, isUnit_one, fun _ _ => (one_mulVec _).symm⟩

theorem Mat.RowEquiv.trans {B : Mat} (h : Mat.RowEquiv r c A B) (h' : Mat.RowEquiv r c B M) : Mat.RowEquiv r c A M := by
  obtain ⟨L, hL, hcol⟩ := h
  obtain ⟨L', hL', hcol'⟩ := h'
  refine ⟨L' * L, hL'.mul hL, fun j hj => ?_⟩
  rw [hcol' j hj, hcol j hj, mulVec_mulVec]

theorem Mat.overGF2_of_columns {L : Matrix (Fin r) (Fin r) (ZMod 2)} (h : ∀ j < c, M.column r j = L *ᵥ A.column r j) :
    M.overGF2 r c = L * A.overGF2 r c := by
  ext i j
  exact congrFun (h j j.isLt) i

theorem Mat.RowEquiv.rank_eq (h : Mat.RowEquiv r c A M) {pc : Nat} (hpc : pc ≤ c) :
    (M.overGF2 r pc).rank = (A.overGF2 r pc).rank := by
  obtain ⟨L, hL, hcol⟩ := h
  rw [Mat.overGF2_of_columns fun j hj => hcol j (by omega),
    rank_mul_eq_right_of_isUnit_det L _ ((isUnit_iff_isUnit_det L).mp hL)]

theorem Mat.get_swapRows {i j : Nat} (hi : i < A.rows) (hj : j < A.cols) :
    (A.swapRows p q).get i j = A.get (if i = p then q else if i = q then p else i) j := by
  simp [Mat.swapRows, hi, hj]

theorem Mat.get_clearColumn {i j : Nat} (hi : i < A.rows) (hj : j < A.cols) :
    (A.clearColumn p col).get i j = if i ≠ p ∧ A.get i col then A.get i j ^^ A.get p j else A.get i j := by
  simp [Mat.clearColumn, hi, hj]

theorem Mat.rowEquiv_swapRows (hp : p < A.rows) (hq : q < A.rows) : Mat.RowEquiv A.rows A.cols A (A.swapRows p q) := by
  refine ⟨(Equiv.swap ⟨p, hp⟩ ⟨q, hq⟩).permMatrix (ZMod 2), ?_, fun j hj => ?_⟩
  · rw [isUnit_iff_isUnit_det, det_permutation]
    exact ((Equiv.Perm.sign _).isUnit).map (Int.castRingHom (ZMod 2))
  · rw [permMatrix_mulVec]
    funext i
    simp only [Mat.column, Mat.get_swapRows i.isLt hj, Function.comp_apply, Equiv.swap_apply_def, Fin.ext_iff]
    split_ifs <;> rfl

/-- The rows that `clearColumn` adds row p to. -/
def Mat.clearedRows (A : Mat) (p col : Nat) : Fin A.rows → ZMod 2 :=
  fun i => gf2 (decide (i.val ≠ p ∧ A.get i col))

theorem Mat.rowEquiv_clearColumn (hp : p < A.rows) : Mat.RowEquiv A.rows A.cols A (A.clearColumn p col) := by
  refine ⟨1 + vecMulVec (A.clearedRows p col) (Pi.single ⟨p, hp⟩ 1), ?_, fun j hj => ?_⟩
  · rw [isUnit_iff_isUnit_det, vecMulVec_eq Unit, det_one_add_replicateCol_mul_replicateRow]
    simp [Mat.clearedRows]
  · rw [add_mulVec, one_mulVec, vecMulVec_mulVec]
    funext i
    rw [Mat.column, Mat.get_clearColumn i.isLt hj]
    split_ifs with h
    · simp [Mat.column, Mat.clearedRows, h, gf2_xor]
    · have hrow : A.clearedRows p col i = 0 := congrArg gf2 (decide_eq_false h)
      simp [Mat.column, hrow]

/-! ### Reduced columns -/

/-- The columns before `pc` are 0 from row p on, and each row before p has its pivot column among them: the unit vector of that row,
no farther right of the diagonal than there are columns without a pivot. So with p = `pc` the pivots stand on the diagonal. -/
structure Mat.Reduced (M : Mat) (p pc : Nat) : Prop where
  below : ∀ i, p ≤ i → i < M.rows → ∀ j < pc, M.get i j = false
  pivots : ∀ k < p, ∃ j, k ≤ j ∧ j + p ≤ pc + k ∧ ∀ i < M.rows, M.get i j = (i == k)

/-- A turn leaves alone a column that is 0 from the pivot row on. -/
theorem Mat.get_pivot_of_below (hp : p ≤ q) (hq : q < M.rows) {j : Nat} (hj : j < M.cols)
    (h : ∀ i, p ≤ i → i < M.rows → M.get i j = false) {i : Nat} (hi : i < M.rows) :
    ((M.swapRows p q).clearColumn p col).get i j = M.get i j := by
  have hpq : M.get p j = M.get q j := by rw [h p (by omega) (by omega), h q hp hq]
  have hswap : ∀ i' < M.rows, (M.swapRows p q).get i' j = M.get i' j := fun i' hi' => by
    rw [Mat.get_swapRows hi' hj]
    split_ifs with h1 h2
    · rw [h1, hpq]
    · rw [h2, hpq]
    · rfl
  rw [Mat.get_clearColumn (A := M.swapRows p q) hi hj, hswap i hi, hswap p (by omega), h p (by omega) (by omega),
    Bool.xor_false, ite_self]

/-- A turn makes the pivot column the unit vector of the pivot row. -/
theorem Mat.get_pivot_column (hp : p ≤ q) (hq : q < M.rows) (hcol : col < M.cols) (h : M.get q col = true) {i : Nat}
    (hi : i < M.rows) : ((M.swapRows p q).clearColumn p col).get i col = (i == p) := by
  have hpivot : (M.swapRows p q).get p col = true := by rw [Mat.get_swapRows (by omega) hcol, if_pos rfl, h]
  rw [Mat.get_clearColumn (A := M.swapRows p q) hi hcol, hpivot]
  obtain rfl | hip := eq_or_ne i p
  · simp [hpivot]
  · cases (M.swapRows p q).get i col <;> simp [hip]

/-- One turn of the loop takes the next column in. -/
theorem Mat.Reduced.elimColumn (h : M.Reduced p pc) (hp : p ≤ pc) (hpc : pc < M.cols) :
    (elimColumn (M, p) pc).1.Reduced (elimColumn (M, p) pc).2 (pc + 1) := by
  obtain ⟨hnone, he⟩ | ⟨q, hsome, he⟩ := elimColumn_cases M p pc <;> rw [he]
  · refine ⟨fun i hip hi j hj => ?_, fun k hk => ?_⟩
    · obtain hj | rfl := Nat.lt_succ_iff_lt_or_eq.mp hj
      · exact h.below i hip hi j hj
      · exact Mat.pivotRow_none hnone hip hi
    · obtain ⟨j, hkj, hjp, hunit⟩ := h.pivots k hk
      exact ⟨j, hkj, by omega, hunit⟩
  · obtain ⟨hpq, hq, hbit⟩ := Mat.pivotRow_some hsome
    have hold : ∀ j < pc, ∀ i < M.rows, ((M.swapRows p q).clearColumn p pc).get i j = M.get i j := fun j hj i hi =>
      Mat.get_pivot_of_below hpq hq (by omega) (fun i' hp hi' => h.below i' hp hi' j hj) hi
    have hnew : ∀ i < M.rows, ((M.swapRows p q).clearColumn p pc).get i pc = (i == p) := fun i hi =>
      Mat.get_pivot_column hpq hq hpc hbit hi
    refine ⟨fun i hp hi j hj => ?_, fun k hk => ?_⟩
    · obtain hj | rfl := Nat.lt_succ_iff_lt_or_eq.mp hj
      · rw [hold j hj i hi, h.below i (by omega) hi j hj]
      · rw [hnew i hi, beq_false_of_ne (by omega)]
    · obtain hk | rfl := Nat.lt_succ_iff_lt_or_eq.mp hk
      · obtain ⟨j, hkj, hjp, hunit⟩ := h.pivots k hk
        exact ⟨j, hkj, by omega, fun i hi => (hold j (by omega) i hi).trans (hunit i hi)⟩
      · exact ⟨pc, hp, by omega, hnew⟩

/-- The number of pivots is the rank of the reduced columns. -/
theorem Mat.Reduced.rank_eq (h : M.Reduced p pc) (hp : p ≤ M.rows) : (M.overGF2 M.rows pc).rank = p := by
  refine le_antisymm ?_ ?_
  · refine (rank_le_card_of_support_subset _ (Finset.univ.map (Fin.castLEEmb hp)) ?_).trans (by simp)
    rw [Function.support_subset_iff']
    refine fun i hi => funext fun j => congrArg gf2 (h.below i ?_ i.isLt j j.isLt)
    by_contra! hip
    exact hi (Finset.mem_coe.mpr (Finset.mem_map.mpr ⟨⟨i, hip⟩, Finset.mem_univ _, rfl⟩))
  · have hunits : LinearIndependent (ZMod 2) fun k : Fin p => (Pi.single (k.castLE hp) 1 : Fin M.rows → ZMod 2) :=
      (Pi.linearIndependent_single_one _ _).comp _ (Fin.castLE_injective hp)
    have hcard := finrank_span_eq_card hunits
    rw [Fintype.card_fin] at hcard
    rw [← hcard, rank_eq_finrank_span_cols]
    refine Submodule.finrank_mono (Submodule.span_mono ?_)
    rintro _ ⟨k, rfl⟩
    obtain ⟨j, hkj, hjp, hunit⟩ := h.pivots k k.isLt
    refine ⟨⟨j, by omega⟩, funext fun i => (congrArg gf2 (hunit i i.isLt)).trans ?_⟩
    simp [Pi.single_apply, Fin.ext_iff]

/-! ### The whole elimination -/

theorem elim_reduced (A : Mat) (hpc : pc ≤ A.cols) : (elim A pc).1.Reduced (elim A pc).2 pc := by
  induction pc with
  | zero => exact ⟨fun _ _ _ _ hj => absurd hj (Nat.not_lt_zero _), fun _ hk => absurd hk (Nat.not_lt_zero _)⟩
  | succ pc ih =>
    obtain ⟨-, hc, hp, -⟩ := elim_shape A pc
    rw [elim_succ]
    exact (ih (by omega)).elimColumn hp (by omega)

theorem Mat.rowEquiv_elimColumn (A : Mat) (p col : Nat) : Mat.RowEquiv A.rows A.cols A (elimColumn (A, p) col).1 := by
  obtain ⟨-, he⟩ | ⟨q, hsome, he⟩ := elimColumn_cases A p col <;> rw [he]
  · exact .refl _ _ _
  · obtain ⟨hpq, hq, -⟩ := Mat.pivotRow_some hsome
    exact (Mat.rowEquiv_swapRows (by omega) hq).trans (Mat.rowEquiv_clearColumn (A := A.swapRows p q) (hpq.trans_lt hq))

theorem rowEquiv_elim (A : Mat) (pc : Nat) : Mat.RowEquiv A.rows A.cols A (elim A pc).1 := by
  induction pc with
  | zero => exact .refl _ _ _
  | succ pc ih =>
    obtain ⟨hr, hc, -⟩ := elim_shape A pc
    have hturn := Mat.rowEquiv_elimColumn (elim A pc).1 (elim A pc).2 pc
    rw [hr, hc] at hturn
    rw [elim_succ]
    exact ih.trans hturn

/-- The pivots found in the first columns count the rank of those columns. -/
theorem rank_overGF2 (A : Mat) (hpc : pc ≤ A.cols) : (A.overGF2 A.rows pc).rank = (elim A pc).2 := by
  obtain ⟨hr, -, -, hp⟩ := elim_shape A pc
  rw [← (rowEquiv_elim A pc).rank_eq hpc, ← hr, (elim_reduced A hpc).rank_eq (hr.symm ▸ hp)]

/-- With a pivot in every column the columns passed are those of the identity. -/
theorem Mat.Reduced.get_of_all_pivots (h : M.Reduced pc pc) {i k : Nat} (hi : i < M.rows) (hk : k < pc) :
    M.get i k = (i == k) := by
  obtain ⟨j, hkj, hjp, hunit⟩ := h.pivots k hk
  obtain rfl : j = k := by omega
  exact hunit i hi

end Sys2Proof.Machine
end

section
/-! Gauss–Jordan inversion (R70): the elimination of `[A | I]` reaches the identity on the left exactly where every column of A has
a pivot, and then it has the inverse on the right. -/

namespace Sys2Proof.Machine

open Matrix

variable {A : Mat} {r n : Nat}

/-! ### `[A | I]` -/

/-- What the elimination leaves of `[A | I]` in A's columns (R70). -/
def Mat.reducedLeft (A : Mat) : Mat := (elim A.augment A.rows).1.columns 0 A.rows

/-- What the elimination leaves of `[A | I]` in the identity's columns: what INV stores (R70). -/
def Mat.reducedRight (A : Mat) : Mat := (elim A.augment A.rows).1.columns A.rows A.rows

@[simp] theorem Mat.reducedRight_rows (A : Mat) : A.reducedRight.rows = A.rows := (elim_shape A.augment A.rows).1

@[simp] theorem Mat.reducedRight_cols (A : Mat) : A.reducedRight.cols = A.rows := rfl

theorem Mat.get_columns {i j start : Nat} (hi : i < A.rows) (hj : j < n) :
    (A.columns start n).get i j = A.get i (start + j) := by
  simp [Mat.columns, hi, hj]

theorem Mat.column_columns {start j : Nat} (hr : A.rows = r) (hj : j < n) :
    (A.columns start n).column r j = A.column r (start + j) :=
  Mat.column_congr fun _ hi => Mat.get_columns (hr ▸ hi) hj

theorem Mat.column_augment_left {j : Nat} (hj : j < A.cols) : A.augment.column A.rows j = A.column A.rows j :=
  Mat.column_congr fun i hi => by simp [Mat.augment, hi, hj, Nat.lt_add_right]

theorem Mat.column_augment_right {j : Nat} (hcols : A.cols = A.rows) (hj : j < A.rows) :
    A.augment.column A.rows (A.rows + j) = (Mat.identity A.rows).column A.rows j :=
  Mat.column_congr fun i hi => by simp [Mat.augment, Mat.identity, hcols, hi, hj]

/-- The elimination finds the same pivots in `[A | I]` as in A. -/
theorem elim_augment_pivots (hcols : A.cols = A.rows) : (elim A.augment A.rows).2 = (elim A A.rows).2 := by
  rw [← rank_overGF2 A hcols.ge, ← rank_overGF2 A.augment (by simp), Mat.augment_rows]
  exact congrArg rank (Mat.overGF2_congr fun j hj => Mat.column_augment_left (hcols ▸ hj))

/-- The left block is the identity exactly where every column has a pivot. -/
theorem Mat.reducedLeft_eq_identity_iff (hcols : A.cols = A.rows) :
    A.reducedLeft = Mat.identity A.rows ↔ (elim A A.rows).2 = A.rows := by
  obtain ⟨hr, -, hle, -⟩ := elim_shape A.augment A.rows
  have hreduced := elim_reduced A.augment (pc := A.rows) (by simp)
  rw [← elim_augment_pivots hcols]
  constructor
  · intro hid
    by_contra hne
    have hlt : (elim A.augment A.rows).2 < A.rows := by omega
    have hzero := hreduced.below _ le_rfl (hlt.trans_eq hr.symm) _ hlt
    have hone := congrArg (Mat.get · (elim A.augment A.rows).2 (elim A.augment A.rows).2) hid
    simp [Mat.reducedLeft, Mat.identity, Mat.get_columns (hlt.trans_eq hr.symm) hlt, hzero, hlt] at hone
  · intro hall
    rw [hall] at hreduced
    rw [Mat.reducedLeft, Mat.columns, hr]
    exact Mat.ofFn_congr fun i hi j hj => by
      rw [Nat.zero_add, hreduced.get_of_all_pivots (hi.trans_eq hr.symm) hj]

/-- Where every column has a pivot the right block is the inverse, from both sides. -/
theorem Mat.reducedRight_inverse (hcols : A.cols = A.rows) (hall : (elim A A.rows).2 = A.rows) :
    A.reducedRight.mul A = Mat.identity A.rows ∧ A.mul A.reducedRight = Mat.identity A.rows := by
  have hr : (elim A.augment A.rows).1.rows = A.rows := (elim_shape A.augment A.rows).1
  obtain ⟨L, -, hcol⟩ : Mat.RowEquiv A.rows (A.cols + A.rows) A.augment _ := rowEquiv_elim A.augment A.rows
  have hleft : L * A.overGF2 A.rows A.rows = 1 := by
    rw [← Mat.overGF2_identity, ← (Mat.reducedLeft_eq_identity_iff hcols).mpr hall]
    refine (Mat.overGF2_of_columns fun j hj => ?_).symm
    rw [Mat.reducedLeft, Mat.column_columns hr hj, Nat.zero_add, hcol j (by omega), Mat.column_augment_left (by omega)]
  have hright : A.reducedRight.overGF2 A.rows A.rows = L := by
    rw [← mul_one L, ← Mat.overGF2_identity]
    refine Mat.overGF2_of_columns fun j hj => ?_
    rw [Mat.reducedRight, Mat.column_columns hr hj, hcol _ (by omega), Mat.column_augment_right hcols hj]
  rw [Mat.mul_eq_identity_iff (Mat.reducedRight_rows A) rfl hcols, Mat.mul_eq_identity_iff rfl hcols rfl, hright]
  exact ⟨hleft, mul_eq_one_comm.mp hleft⟩

/-- A square matrix with a left inverse has a pivot in every column. -/
theorem Mat.all_pivots_of_mul_eq_identity {B : Mat} (hcols : A.cols = A.rows) (hBr : B.rows = A.rows) (hBc : B.cols = A.rows)
    (h : B.mul A = Mat.identity A.rows) : (elim A A.rows).2 = A.rows := by
  rw [Mat.mul_eq_identity_iff hBr hBc hcols] at h
  rw [← rank_overGF2 A hcols.ge, rank_of_isUnit _ (IsUnit.of_mul_eq_one_right _ h), Fintype.card_fin]

end Sys2Proof.Machine
end

section
/-! The algebra commands (41_gf2_algebra.md) on operands that are ready and fit their rules. -/

namespace Sys2Proof.Machine

variable {s : State} {rs1 : Buf}

/-- A buffer's matrix has an inverse exactly where the elimination finds a pivot in every column. -/
theorem hasInverse_iff (hs : s.rowsOf rs1 = s.colsOf rs1) :
    HasInverse s rs1 ↔ (elim (s.matrix rs1) (s.rowsOf rs1)).2 = s.rowsOf rs1 :=
  ⟨fun ⟨_, hr, hc, h⟩ => Mat.all_pivots_of_mul_eq_identity hs.symm hr hc h, fun hall =>
    ⟨(s.matrix rs1).reducedRight, Mat.reducedRight_rows _, rfl, (Mat.reducedRight_inverse hs.symm hall).1⟩⟩

/-- INV succeeds exactly where ISINV counts all pivots (R70). -/
theorem exec_inv_pivots (h : s.Ready rs1) (hs : s.rowsOf rs1 = s.colsOf rs1) (rd : Buf) :
    exec (.inv rd rs1) s =
      if (elim (s.matrix rs1) (s.rowsOf rs1)).2 = s.rowsOf rs1 then
        complete (some (rd, (s.matrix rs1).reducedRight)) 0 0 s
      else raiseError .singular s := by
  rw [exec_inv_ready h hs]
  exact if_congr (Mat.reducedLeft_eq_identity_iff hs.symm) rfl rfl

/-- A command that succeeds with a matrix which fits a buffer stores it in its destination (R62, R63). -/
theorem stores_of_complete {i : Instr} {rd : Buf} {V : Mat} {f : Nat → Nat → Bool}
    (hexec : exec i s = complete (some (rd, V)) 0 0 s) (hl : s.params.legal) (hr : V.rows ≤ s.params.rmax)
    (hc : V.cols ≤ s.params.cmax) (hf : ∀ r < V.rows, ∀ c < V.cols, V.get r c = f r c) :
    ∃ t, exec i s = .next t ∧ Succeeded s t 0 0 ∧ KeptOutside s t rd ∧ t.Holds rd V.rows V.cols f :=
  ⟨_, hexec, complete_succeeded rfl, complete_keptOutside rfl, (complete_holds hl hr hc rfl).of_entries hf⟩

/-! ### RANK -/

/-- Settles O31: the pivot count fits RESULT, being at most the rows. -/
theorem rankCompletesWithPivotCount : Obligations.RankCompletesWithPivotCount := by
  intro s rs1 hready
  obtain ⟨-, -, hcols, hrows⟩ := elim_shape (s.matrix rs1) (s.colsOf rs1)
  refine ⟨_, _, exec_rank_ready hready, rfl, complete_succeeded rfl, complete_buffersKept rfl, hrows, hcols, ?_⟩
  have hfits : s.rowsOf rs1 < 2 ^ 8 := (s.shapeOf rs1).rows.isLt
  exact (BitVec.toNat_ofNat _ _).trans (Nat.mod_eq_of_lt (hrows.trans_lt (by simp; omega)))

/-- Settles O32: the pivots over all columns count the rank. -/
theorem rankIsTheMatrixRank : Obligations.RankIsTheMatrixRank := by
  intro s rs1 hready
  obtain ⟨t, p, hexec, rfl, hsucc, hkept, -, -, hresult⟩ := rankCompletesWithPivotCount s rs1 hready
  refine ⟨t, hexec, ?_, hkept, ?_⟩
  · have hword : t.result = _ := congrArg State.result hsucc
    rwa [hword]
  · rw [hresult, ← overGF2_matrix]
    exact (rank_overGF2 (s.matrix rs1) le_rfl).symm

/-! ### ISINV and INV -/

/-- Settles O33: what ISINV completes with on a square source. -/
theorem isinvCompletesOnSquare : Obligations.IsinvCompletesOnSquare := fun _ _ hready hs =>
  ⟨_, exec_isinv_ready hready hs, complete_buffersKept rfl, complete_succeeded rfl⟩

/-- Settles O34: ISINV answers whether every column has a pivot, which means an inverse. -/
theorem isinvDecidesInvertibility : Obligations.IsinvDecidesInvertibility := by
  intro s rs1 hready hs
  obtain ⟨t, hexec, -, hsucc⟩ := isinvCompletesOnSquare s rs1 hready hs
  have hresult : t.result = _ := congrArg State.result hsucc
  rw [hasInverse_iff hs]
  exact ⟨t, hexec, fun h => hresult.trans (if_pos h), fun h => hresult.trans (if_neg h)⟩

/-- Settles O35: with an inverse INV stores the right block of the elimination of `[A | I]`. -/
theorem invReturnsTheInverseOrSingular : Obligations.InvReturnsTheInverseOrSingular := by
  intro s rd rs1 hl hready hs
  have hexec := exec_inv_pivots hready hs rd
  rw [hasInverse_iff hs]
  refine ⟨fun hall => ?_, fun hnot => hexec.trans (if_neg hnot)⟩
  obtain ⟨hleft, hright⟩ := Mat.reducedRight_inverse (A := s.matrix rs1) hs.symm hall
  have hrows : (s.matrix rs1).reducedRight.rows = s.rowsOf rs1 := Mat.reducedRight_rows _
  obtain ⟨⟨hr, hc⟩, -⟩ := hready
  obtain ⟨t, ht, hsucc, hkept, hholds⟩ := stores_of_complete (hexec.trans (if_pos hall)) hl (hrows.trans_le hr)
    (hs.trans_le hc) fun _ _ _ _ => rfl
  rw [hrows] at hholds
  exact ⟨t, _, ht, hsucc, hkept, hholds, hrows, rfl, hleft, hright⟩

/-- Settles O36: both ask whether every column has a pivot. -/
theorem invSucceedsWhereIsinvAnswersOne : Obligations.InvSucceedsWhereIsinvAnswersOne := by
  intro s rd rs1 hready hs
  rw [exec_isinv_ready hready hs, exec_inv_pivots hready hs]
  split_ifs
  · exact ⟨_, _, rfl, rfl, iff_of_true rfl rfl, iff_of_false (by simp) (by simp)⟩
  · exact ⟨_, _, rfl, rfl, iff_of_false (by simp) (by simp), iff_of_true rfl rfl⟩

/-! ### REDUCE and PINV -/

/-- Settles O30: an entry modulo 2 is the entry. -/
theorem reduceCopiesTheMatrix : Obligations.ReduceCopiesTheMatrix := fun s rd rs1 hl hready =>
  stores_of_complete (exec_reduce_ready hready rd) hl hready.1.1 hready.1.2 fun _ hi _ hj =>
    (Mat.get_reduceMod2 (A := s.matrix rs1) hi hj).trans (get_matrix hi hj)

/-- Settles O37: an entry of the transpose is the source's across the diagonal. -/
theorem pinvTransposes : Obligations.PinvTransposes := fun s rd rs1 hl hready hr hc =>
  stores_of_complete (exec_pinv_ready hready hr hc rd) hl hr hc fun _ hi _ hj =>
    (Mat.get_transpose (A := s.matrix rs1) hi hj).trans (get_matrix hj hi)

end Sys2Proof.Machine
end

section
/-! The inverse of a permutation matrix is its transpose (R71): PINV into another buffer, then MMUL with the source. -/

namespace Sys2Proof.Machine

variable {s t : State} {n i j : Nat} {f : Nat → Bool}

/-! ### Counts and sums -/

theorem countOnes_eq_count (n : Nat) (f : Nat → Bool) : countOnes n f = Nat.count (f · = true) n := by
  induction n with
  | zero => rfl
  | succ n ih => rw [countOnes, ih, Nat.count_succ]; cases f n <;> rfl

/-- A sum over the field is the parity of a count. -/
theorem xorSum_eq_bodd (n : Nat) (f : Nat → Bool) : xorSum n f = (countOnes n f).bodd := by
  induction n with
  | zero => rw [xorSum, countOnes, Nat.bodd_zero]
  | succ n ih => rw [xorSum, countOnes, ih, Nat.bodd_add]; cases f n <;> rfl

@[simp] theorem xorSum_false (n : Nat) : xorSum n (fun _ => false) = false := by
  induction n with
  | zero => rfl
  | succ n ih => rw [xorSum, ih, Bool.xor_false]

theorem eq_of_countOnes_eq_one (h : countOnes n f = 1) (hi : i < n) (hj : j < n) (hfi : f i = true) (hfj : f j = true) :
    i = j := by
  rw [countOnes_eq_count, Nat.count_eq_card_filter_range] at h
  exact Finset.card_le_one.mp h.le i (by simp [hi, hfi]) j (by simp [hj, hfj])

/-- Two columns of a permutation matrix share a 1 only where they are one column. -/
theorem xorSum_permutation {P : Nat → Nat → Bool} (hrow : ∀ l < n, countOnes n (P l) = 1)
    (hcol : ∀ j < n, countOnes n (P · j) = 1) (hi : i < n) (hj : j < n) :
    (xorSum n fun l => P l i && P l j) = (i == j) := by
  obtain rfl | hij := eq_or_ne i j
  · simp [xorSum_eq_bodd, hcol i hi]
  · have hdisjoint : ∀ l < n, (P l i && P l j) = false := fun l hl => by
      by_contra! hboth
      obtain ⟨hPi, hPj⟩ : P l i = true ∧ P l j = true := by simpa using hboth
      exact hij (eq_of_countOnes_eq_one (hrow l hl) hi hj hPi hPj)
    rw [xorSum_congr hdisjoint, xorSum_false, beq_false_of_ne hij]

/-! ### The two commands -/

theorem Succeeded.params {res dc : Word} (h : Succeeded s t res dc) : t.params = s.params := by
  unfold Succeeded at h
  rw [h]

/-- A command leaves the operands outside its destination as they were (R63). -/
theorem KeptOutside.sameOperand {rd b : Buf} (h : KeptOutside s t rd) (hl : s.params.legal) (hparams : t.params = s.params)
    (hb : b ≠ rd) (hready : s.Ready b) : SameOperand s t b := by
  obtain ⟨⟨hrows, hcols⟩, -⟩ := hready
  refine ⟨h.shapes b hb, fun r hr c hc => ?_⟩
  have hbounds := byteAddr_bounds hl b (hr.trans_le hrows) (hc.trans_le hcols)
  obtain ⟨hread, hbyte⟩ := h.bytes (byteAddr s.params b r c) fun hin => hb (storage_disjoint hl hbounds hin)
  rw [State.storeBit, State.bitSpecified, hparams, hread, hbyte]
  exact ⟨rfl, rfl⟩

/-- MMUL stores the product, entry by entry (R73, R75). -/
theorem mmul_stores {rs1 rs2 : Buf} (hl : s.params.legal) (h1 : s.Ready rs1) (h2 : s.Ready rs2)
    (hs : s.colsOf rs1 = s.rowsOf rs2) (rd : Buf) :
    ∃ t, exec (.mmul rd rs1 rs2) s = .next t ∧ Succeeded s t 0 0 ∧ KeptOutside s t rd ∧
      t.Holds rd (s.rowsOf rs1) (s.colsOf rs2)
        (fun i j => xorSum (s.colsOf rs1) fun l => s.storeBit rs1 i l && s.storeBit rs2 l j) :=
  stores_of_complete (exec_mmul_ready h1 h2 hs rd) hl h1.1.1 h2.1.2 fun i hi j hj =>
    (Mat.get_mul (A := s.matrix rs1) (B := s.matrix rs2) hi hj).trans <| xorSum_congr fun l hl => by
      rw [get_matrix hi hl, get_matrix (hl.trans_eq hs) hj]

/-- Settles O38: an entry of the product sums two columns of the permutation matrix. -/
theorem pinvInvertsPermutations : Obligations.PinvInvertsPermutations := by
  rintro s rd rd' rs1 n hl hready hne rfl hsquare hrow hcol
  have ⟨⟨hr, hc⟩, _⟩ := hready
  obtain ⟨t, hpinv, hsucc, hkept, hholds⟩ :=
    pinvTransposes s rd rs1 hl hready (hsquare.trans_le hr) (hsquare.ge.trans hc)
  have hparams : t.params = s.params := hsucc.params
  rw [← hparams] at hr hc
  have hsame := hkept.sameOperand hl hparams hne.symm hready
  have hsource := hsame.sameSource hparams
  have hready' : t.Ready rs1 := by
    rw [ready_iff] at hready ⊢
    rwa [hsource.inRange, hsource.specified]
  have hreadyRd : t.Ready rd := hholds.ready (hsquare.trans_le hr) (hsquare.ge.trans hc)
  obtain ⟨u, hmmul, hsucc', -, hholds'⟩ := mmul_stores (hparams ▸ hl) hreadyRd hready'
    (hholds.cols.trans hsource.rowsOf.symm) rd'
  rw [hholds.rows, hholds.cols, hsource.colsOf, hsquare] at hholds'
  refine ⟨t, u, hpinv, hmmul, congrArg State.errcode hsucc', hholds'.of_entries fun i hi j hj => ?_⟩
  rw [← xorSum_permutation hrow hcol hi hj]
  refine xorSum_congr fun l hlt => ?_
  rw [hholds.bits i (by omega) l (by omega), if_pos ⟨hi.trans_eq hsquare.symm, hlt⟩,
    (hsame.2 l hlt j (hj.trans_eq hsquare.symm)).1]

end Sys2Proof.Machine
end

section
/-! The arithmetic commands (42_gf2_arithmetic.md) on operands that are ready and fit their rules. -/

namespace Sys2Proof.Machine

/-! ### MMUL and MADD -/

/-- Settles O39: the product is stored entry by entry. -/
theorem mmulComputesTheProduct : Obligations.MmulComputesTheProduct := fun _ rd _ _ hl h1 h2 hs =>
  mmul_stores hl h1 h2 hs rd

/-- Settles O40: an entry of the sum is the XOR of the two sources' entries. -/
theorem maddAddsEntrywise : Obligations.MaddAddsEntrywise := fun s rd rs1 rs2 hl h1 h2 hr hc =>
  stores_of_complete (exec_madd_ready h1 h2 hr hc rd) hl h1.1.1 h1.1.2 fun i hi j hj =>
    (Mat.get_add (A := s.matrix rs1) (B := s.matrix rs2) hi hj).trans <| by
      rw [get_matrix hi hj, get_matrix (hi.trans_eq hr) (hj.trans_eq hc)]

/-! ### WEIGHT -/

/-- The weight of a buffer's matrix counts its storage bits inside the shape (R9, R12). -/
theorem popcount_matrix (s : State) (b : Buf) :
    (s.matrix b).popcount = natSum (s.rowsOf b) fun i => countOnes (s.colsOf b) (s.storeBit b i) :=
  natSum_congr fun _ hi => countOnes_congr fun _ hj => get_matrix hi hj

/-- A weight fits RESULT: both sides of a SHAPE are bytes (R12, R74). -/
theorem popcount_matrix_lt (s : State) (b : Buf) : (s.matrix b).popcount < 2 ^ 32 := by
  have hr : s.rowsOf b < 2 ^ 8 := (s.shapeOf b).rows.isLt
  have hc : s.colsOf b < 2 ^ 8 := (s.shapeOf b).cols.isLt
  calc (s.matrix b).popcount ≤ s.rowsOf b * s.colsOf b := (s.matrix b).popcount_le
    _ ≤ 2 ^ 8 * 2 ^ 8 := Nat.mul_le_mul hr.le hc.le
    _ < 2 ^ 32 := by decide

/-- Settles O41: the weight is the count, and RESULT holds it whole. -/
theorem weightCountsOnes : Obligations.WeightCountsOnes := by
  intro s rs1 hready
  have hresult : (BitVec.ofNat 32 (s.matrix rs1).popcount).toNat = (s.matrix rs1).popcount := by
    rw [BitVec.toNat_ofNat, Nat.mod_eq_of_lt (popcount_matrix_lt s rs1)]
  exact ⟨_, _, exec_weight_ready hready, complete_succeeded rfl, complete_buffersKept rfl, popcount_matrix s rs1,
    (s.matrix rs1).popcount_le, hresult⟩

/-! ### The Hamming distance -/

/-- Settles O42: the ones of the sum stand where the sources differ. -/
theorem weightOfSumIsHammingDistance : Obligations.WeightOfSumIsHammingDistance := by
  intro s rd rs1 rs2 hl h1 h2 hr hc
  obtain ⟨t, hmadd, hsucc, -, hholds⟩ := maddAddsEntrywise s rd rs1 rs2 hl h1 h2 hr hc
  obtain ⟨⟨hrows, hcols⟩, -⟩ := h1
  rw [← hsucc.params] at hrows hcols
  obtain ⟨u, n, hweight, hsucc', -, hcount, -, hresult⟩ := weightCountsOnes t rd (hholds.ready hrows hcols)
  refine ⟨t, u, hmadd, hweight, congrArg State.errcode hsucc', ?_⟩
  rw [hresult, hcount, hholds.rows, hholds.cols]
  refine natSum_congr fun i hi => countOnes_congr fun j hj => ?_
  exact (hholds.bits i (hi.trans_le hrows) j (hj.trans_le hcols)).trans (if_pos ⟨hi, hj⟩)

end Sys2Proof.Machine
end

section
/-! DECODE's loop finds the first nearest candidate (R79): what it carries after a number of turns, kept by every turn. -/

namespace Sys2Proof.Machine

variable {dist : Nat → Nat} {n i i' turns : Nat} {b : Search}

/-- One turn of DECODE's loop on candidate i: it is counted, and it replaces the best one only where it is strictly nearer. -/
def searchTurn (dist : Nat → Nat) (i : Nat) (b : Search) : Search :=
  if dist i < b.bestD then ⟨i, dist i, b.count + 1⟩ else ⟨b.bestI, b.bestD, b.count + 1⟩

/-- What DECODE's loop carries once candidates 0 to i-1 are settled: the first nearest of them, or none yet and a distance above
the bound n of all distances. An exact match settles every later candidate too, and ends the count. -/
structure Search.Settles (dist : Nat → Nat) (n i : Nat) (b : Search) : Prop where
  least : ∀ j < i, b.bestD ≤ dist j
  first : ∀ j < b.bestI, b.bestD < dist j
  attained : b.bestD ≤ n → b.bestI < i ∧ b.bestD = dist b.bestI
  count : b.count = if b.bestD = 0 then b.bestI + 1 else i

theorem searchFrom_succ (dist : Nat → Nat) (turns i : Nat) (b : Search) :
    searchFrom dist (turns + 1) i b =
      if dist i = 0 then searchTurn dist i b else searchFrom dist turns (i + 1) (searchTurn dist i b) := rfl

theorem searchTurn_of_nearer (h : dist i < b.bestD) : searchTurn dist i b = ⟨i, dist i, b.count + 1⟩ := if_pos h

theorem searchTurn_of_not_nearer (h : b.bestD ≤ dist i) : searchTurn dist i b = ⟨b.bestI, b.bestD, b.count + 1⟩ :=
  if_neg h.not_gt

theorem searchTurn_bestD (dist : Nat → Nat) (i : Nat) (b : Search) :
    (searchTurn dist i b).bestD = min (dist i) b.bestD := by
  obtain h | h := lt_or_ge (dist i) b.bestD
  · rw [searchTurn_of_nearer h, min_eq_left h.le]
  · rw [searchTurn_of_not_nearer h, min_eq_right h]

/-- At the start nothing is settled. -/
theorem settles_initial (dist : Nat → Nat) (n : Nat) : Search.Settles dist n 0 ⟨0, n + 1, 0⟩ where
  least _ h := absurd h (Nat.not_lt_zero _)
  first _ h := absurd h (Nat.not_lt_zero _)
  attained h := absurd h (Nat.not_succ_le_self n)
  count := rfl

/-- A turn settles its candidate. -/
theorem Search.Settles.turn (h : b.Settles dist n i) (hpos : 0 < b.bestD) :
    (searchTurn dist i b).Settles dist n (i + 1) := by
  have hcount : b.count = i := h.count.trans (if_neg hpos.ne')
  obtain hnear | hfar := lt_or_ge (dist i) b.bestD
  · rw [searchTurn_of_nearer hnear]
    exact {
      least := Nat.forall_lt_succ_right.mpr ⟨fun j hj => hnear.le.trans (h.least j hj), le_rfl⟩
      first := fun j hj => hnear.trans_le (h.least j hj)
      attained := fun _ => ⟨i.lt_succ_self, rfl⟩
      count := by simp [hcount] }
  · rw [searchTurn_of_not_nearer hfar]
    exact {
      least := Nat.forall_lt_succ_right.mpr ⟨h.least, hfar⟩
      first := h.first
      attained := fun hn => (h.attained hn).imp_left Nat.lt_succ_of_lt
      count := by simp [hcount, hpos.ne'] }

/-- After an exact match no later candidate is nearer, so the loop may end. -/
theorem Search.Settles.of_exact (h : b.Settles dist n i) (hzero : b.bestD = 0) (hi : i ≤ i') : b.Settles dist n i' where
  least j _ := hzero.trans_le (Nat.zero_le _)
  first := h.first
  attained hn := (h.attained hn).imp_left hi.trans_lt'
  count := by rw [h.count, if_pos hzero, if_pos hzero]

/-- The loop settles a candidate a turn, however early an exact match ends it. -/
theorem searchFrom_settles (h : b.Settles dist n i) (hpos : 0 < b.bestD) :
    (searchFrom dist turns i b).Settles dist n (i + turns) := by
  induction turns generalizing i b with
  | zero => exact h
  | succ turns ih =>
    rw [searchFrom_succ]
    split_ifs with hzero
    · exact (h.turn hpos).of_exact (by rw [searchTurn_bestD, hzero, Nat.zero_min]) (by omega)
    · have hpos' : 0 < (searchTurn dist i b).bestD := by
        rw [searchTurn_bestD]
        exact lt_min (Nat.pos_of_ne_zero hzero) hpos
      rw [Nat.add_comm turns, ← Nat.add_assoc]
      exact ih (h.turn hpos) hpos'

/-- Where some candidate is settled, the best one is in range and its distance is the one carried. -/
theorem Search.Settles.best (h : b.Settles dist n i) (hi : 0 < i) (hn : dist 0 ≤ n) :
    b.bestI < i ∧ b.bestD = dist b.bestI := h.attained ((h.least 0 hi).trans hn)

theorem Search.Settles.count_le (h : b.Settles dist n i) (hb : b.bestI < i) : b.count ≤ i := by
  rw [h.count]
  split_ifs
  · exact hb
  · exact le_rfl

end Sys2Proof.Machine
end

section
/-! DECODE (43_decoder.md) on operands that are ready and fit its rule. -/

namespace Sys2Proof.Machine

variable {s : State} {rs1 rs2 : Buf}

/-! ### Candidates and their distances -/

theorem get_candidate (order : EnumOrder) (k i : Nat) {j : Nat} (hj : j < k) :
    (candidate order k i).get 0 j = candidateBit order k i j := by
  cases order <;> simp [candidate, candidateBit, hj]

@[simp] theorem candidateBit_zero (order : EnumOrder) (k j : Nat) : candidateBit order k 0 j = false := by
  cases order <;> exact Nat.zero_testBit _

/-- The loop measures the Hamming distance of a candidate's codeword (R72, R73, R78). -/
theorem candidateDistance_matrix (hr : s.rowsOf rs2 = 1) (hc : s.colsOf rs2 = s.colsOf rs1) (i : Nat) :
    candidateDistance s.params.order (s.matrix rs1) (s.matrix rs2) i = s.distanceOf rs1 rs2 i := by
  have hentry : ∀ j < s.colsOf rs1, ((candidate s.params.order (s.rowsOf rs1) i).mul (s.matrix rs1)).get 0 j =
      xorSum (s.rowsOf rs1) fun l => candidateBit s.params.order (s.rowsOf rs1) i l && s.storeBit rs1 l j := fun j hj =>
    (Mat.get_mul Nat.zero_lt_one hj).trans <| xorSum_congr fun l hl => by
      rw [get_candidate _ (s.rowsOf rs1) i hl, get_matrix hl hj]
  refine (Nat.zero_add _).trans (countOnes_congr fun j hj => ?_)
  have hsum := Mat.get_add (A := (candidate s.params.order (s.rowsOf rs1) i).mul (s.matrix rs1)) (B := s.matrix rs2)
    Nat.zero_lt_one hj
  exact hsum.trans (congrArg₂ _ (hentry j hj) (get_matrix (hr ▸ Nat.zero_lt_one) (hj.trans_eq hc.symm)))

theorem distanceOf_le (s : State) (rs1 rs2 : Buf) (i : Nat) : s.distanceOf rs1 rs2 i ≤ s.colsOf rs1 := countOnes_le _ _

/-- The all-zero message is at distance 0 from the all-zero vector, whatever the generator (R79). -/
theorem distanceOf_zero (hc : s.colsOf rs2 = s.colsOf rs1) (hzero : ∀ j < s.colsOf rs2, s.storeBit rs2 0 j = false) :
    s.distanceOf rs1 rs2 0 = 0 := by
  have hsame : s.distanceOf rs1 rs2 0 = countOnes (s.colsOf rs1) fun _ => false :=
    countOnes_congr fun j hj => by simp [hzero j (hj.trans_eq hc.symm)]
  simp [hsame, countOnes_eq_count]

/-- DECODE's loop settles all 2^k candidates. -/
theorem nearestCodeword_settles (hr : s.rowsOf rs2 = 1) (hc : s.colsOf rs2 = s.colsOf rs1) :
    (nearestCodeword s.params.order (s.matrix rs1) (s.matrix rs2)).Settles (s.distanceOf rs1 rs2) (s.colsOf rs1)
      (2 ^ s.rowsOf rs1) := by
  have hdist : candidateDistance s.params.order (s.matrix rs1) (s.matrix rs2) = s.distanceOf rs1 rs2 :=
    funext (candidateDistance_matrix hr hc)
  have hloop := searchFrom_settles (turns := 2 ^ s.rowsOf rs1) (settles_initial (s.distanceOf rs1 rs2) (s.colsOf rs1))
    (Nat.succ_pos _)
  rw [Nat.zero_add] at hloop
  rwa [nearestCodeword, hdist]

/-! ### DECODE -/

/-- Settles O43: the loop settles all candidates, and k, at most 31, leaves room for the result and the count. -/
theorem decodeFindsFirstNearestCodeword : Obligations.DecodeFindsFirstNearestCodeword := by
  intro s rd rs1 rs2 hl h1 h2 hr hc hk
  have hsettles := nearestCodeword_settles hr hc
  have hexec := exec_decode_ready h1 h2 hr hc hk rd
  generalize nearestCodeword s.params.order (s.matrix rs1) (s.matrix rs2) = b at hsettles hexec
  have hpow : 0 < 2 ^ s.rowsOf rs1 := Nat.two_pow_pos _
  obtain ⟨hb, hbest⟩ := hsettles.best hpow (distanceOf_le s rs1 rs2 0)
  have hcount := hsettles.count_le hb
  obtain ⟨least, first, -, count⟩ := hsettles
  rw [hbest] at least first count
  have ⟨hrmax, _, _, hcmax, _, hkmax⟩ := hl
  have hdistance : s.distanceOf rs1 rs2 b.bestI < 2 ^ 32 :=
    ((distanceOf_le s rs1 rs2 _).trans_lt (s.shapeOf rs1).cols.isLt).trans (by decide)
  have hcount32 : b.count < 2 ^ 32 := hcount.trans_lt (Nat.pow_lt_pow_right (by decide) (by omega))
  refine ⟨_, b.bestI, hb, hexec, complete_succeeded rfl, complete_keptOutside rfl, ?_, least, first, ?_, ?_⟩
  · exact (complete_holds hl hrmax (show s.rowsOf rs1 ≤ s.params.cmax by omega) rfl).of_entries fun i hi j hj => by
      obtain rfl : i = 0 := Nat.lt_one_iff.mp hi
      exact get_candidate _ _ _ hj
  · rw [hbest]
    exact (BitVec.toNat_ofNat _ _).trans (Nat.mod_eq_of_lt hdistance)
  · rw [← count]
    exact (BitVec.toNat_ofNat _ _).trans (Nat.mod_eq_of_lt hcount32)

/-- Settles O44: at distance 0 candidate 0 is the nearest, and no earlier one could be. -/
theorem decodeOfZeroVectorStopsAtOnce : Obligations.DecodeOfZeroVectorStopsAtOnce := by
  intro s rd rs1 rs2 hl h1 h2 hr hc hk hzero
  obtain ⟨t, b, -, hexec, hsucc, hkept, hholds, -, first, hresult, hdcount⟩ :=
    decodeFindsFirstNearestCodeword s rd rs1 rs2 hl h1 h2 hr hc hk
  have hexact : s.distanceOf rs1 rs2 0 = 0 := distanceOf_zero hc hzero
  obtain rfl : b = 0 := by
    by_contra hb
    exact Nat.not_lt_zero _ (hexact ▸ first 0 (Nat.pos_of_ne_zero hb))
  rw [hexact] at hresult hdcount
  have hresult0 : t.result = 0 := BitVec.eq_of_toNat_eq hresult
  have hdcount1 : t.dcount = 1 := BitVec.eq_of_toNat_eq hdcount
  rw [hresult0, hdcount1] at hsucc
  exact ⟨t, hexec, hsucc, hkept, hholds.of_entries fun _ _ j _ => candidateBit_zero _ _ j⟩

end Sys2Proof.Machine
end

section
/-! The interrupt output, and the errors a legal command reports (60_exceptions.md). -/

namespace Sys2Proof.Machine

variable {s t : State}

/-! ### The interrupt output (R86) -/

theorem irq_of_irqEn_eq_false (h : s.irqEn = false) : s.irq = false := by
  rw [State.irq, h, Bool.false_and]

theorem irq_of_done_eq_false (h : s.done = false) : s.irq = false := by
  rw [State.irq, h, Bool.and_false]

/-- A completion sets DONE and keeps IRQ_EN. -/
theorem CompletionWrites.irq (h : CompletionWrites s t) : t.irq = s.irqEn := by
  rw [h]
  exact Bool.and_true _

/-- A CTRL write with bit 0 clear disables the interrupt, with SRST and without it (R20). -/
theorem writeCtrl_irqEn {v : Word} (h : v.getLsbD 0 = false) : (State.writeCtrl v s).irqEn = false := by
  cases hv : v.getLsbD 1 with
  | true => rw [writeCtrl_soft hv, State.softReset_irqEn]
  | false => rw [writeCtrl_enable hv, h]

/-- Settles O20: a completion sets DONE, and each clearing event clears DONE or IRQ_EN. -/
theorem interruptOutputFollowsDone : Obligations.InterruptOutputFollowsDone := by
  refine ⟨fun s => ?_, fun s t w h => (runCommand_writes h).irq, fun s v hv => ?_, fun s v hv => ?_, fun s w hidle => ?_,
    fun s => ⟨irq_of_done_eq_false rfl, irq_of_done_eq_false rfl⟩⟩
  · rw [State.irq, Bool.and_eq_true]
  · exact irq_of_done_eq_false (by simp [hv])
  · exact irq_of_irqEn_eq_false (writeCtrl_irqEn hv)
  · exact irq_of_done_eq_false (by simp [State.busy_of_idle hidle])

/-! ### The first failing check (R84) -/

variable {i : Instr}

/-- Past the checks nothing but the operands' values and whether they are specified decides how a command completes (R62,
R101), and neither way is an error. -/
theorem ite_completeUnspecified_errcode {c : Prop} [Decidable c] {d : Option (Buf × Nat × Nat)} {d' : Option (Buf × Mat)}
    {res dc : Word} :
    ∃ t, (if c then completeUnspecified d s else complete d' res dc s) = .next t ∧ t.errcode = .none := by
  split <;> exact ⟨_, rfl, rfl⟩

/-- INV past its checks: its one error is SINGULAR, on a matrix it can read or over unspecified storage (R70, R101). -/
theorem exec_inv_errcode {rd rs1 : Buf} (hchecks : s.PassesChecks (.inv rd rs1)) :
    ∃ t, exec (.inv rd rs1) s = .next t ∧ (t.errcode = .none ∨ t.errcode = .singular) := by
  obtain ⟨hin, hshape, -⟩ := hchecks
  have h1 := inRange_of_sources hin rs1 (List.Mem.head _)
  have hs : s.rowsOf rs1 = s.colsOf rs1 := by simpa [State.shapeFault] using hshape
  simp only [exec, execInv, h1, hs, not_true_eq_false, ne_eq, if_false]
  split
  · split
    · exact ⟨_, rfl, .inr rfl⟩
    · exact ⟨_, rfl, .inl rfl⟩
  · split
    · exact ⟨_, rfl, .inr rfl⟩
    · exact ⟨_, rfl, .inl rfl⟩

/-- Every command but INV completes without an error past its checks. -/
theorem exec_errcode_of_ne_inv (hchecks : s.PassesChecks i) (hinv : ∀ rd rs1, i ≠ .inv rd rs1) :
    ∃ t, exec i s = .next t ∧ t.errcode = .none := by
  obtain ⟨hin, hshape, hlimit⟩ := hchecks
  have hin := inRange_of_sources hin
  cases i with
  | nop => exact ⟨_, rfl, rfl⟩
  | inv rd rs1 => exact absurd rfl (hinv rd rs1)
  | rank rs1 | weight rs1 | reduce rd rs1 =>
    have h1 := hin rs1 (List.Mem.head _)
    simp only [exec, execRank, execWeight, execReduce, h1, not_true_eq_false, if_false]
    exact ite_completeUnspecified_errcode
  | isinv rs1 =>
    have h1 := hin rs1 (List.Mem.head _)
    have hs : s.rowsOf rs1 = s.colsOf rs1 := by simpa [State.shapeFault] using hshape
    simp only [exec, execIsinv, h1, hs, not_true_eq_false, ne_eq, if_false]
    exact ite_completeUnspecified_errcode
  | pinv rd rs1 =>
    have h1 := hin rs1 (List.Mem.head _)
    have hfit : fitsBuffer s.params (s.colsOf rs1) (s.rowsOf rs1) = true := by
      simpa [State.limitFault, fitsBuffer] using hlimit
    simp only [exec, execPinv, h1, hfit, not_true_eq_false, if_false]
    exact ite_completeUnspecified_errcode
  | mmul rd rs1 rs2 =>
    have h1 := hin rs1 (List.Mem.head _)
    have h2 := hin rs2 (List.Mem.tail _ (List.Mem.head _))
    have hs : s.colsOf rs1 = s.rowsOf rs2 := by simpa [State.shapeFault] using hshape
    simp only [exec, execMmul, h1, h2, hs, not_true_eq_false, ne_eq, if_false]
    exact ite_completeUnspecified_errcode
  | madd rd rs1 rs2 =>
    have h1 := hin rs1 (List.Mem.head _)
    have h2 := hin rs2 (List.Mem.tail _ (List.Mem.head _))
    have ⟨hr, hc⟩ : s.rowsOf rs1 = s.rowsOf rs2 ∧ s.colsOf rs1 = s.colsOf rs2 := by
      simpa [State.shapeFault] using hshape
    simp only [exec, execMadd, h1, h2, hr, hc, not_true_eq_false, ne_eq, or_self, if_false]
    exact ite_completeUnspecified_errcode
  | decode rd rs1 rs2 =>
    have h1 := hin rs1 (List.Mem.head _)
    have h2 := hin rs2 (List.Mem.tail _ (List.Mem.head _))
    have ⟨hr, hc⟩ : s.rowsOf rs2 = 1 ∧ s.colsOf rs2 = s.colsOf rs1 := by simpa [State.shapeFault] using hshape
    have hk : ¬ s.params.kmax < s.rowsOf rs1 := by simpa [State.limitFault] using hlimit
    simp only [exec, execDecode, h1, h2, hr, hc, hk, not_true_eq_false, ne_eq, or_self, if_false]
    exact ite_completeUnspecified_errcode

/-- Settles O45: the failing checks are the raising lemmas of R84's checks; past them INV alone can fail. -/
theorem firstFailingCheckIsReported : Obligations.FirstFailingCheckIsReported := by
  refine fun i s => ⟨exec_outOfRange, fun code => exec_shapeFault, fun code => exec_limitFault, fun hchecks => ?_⟩
  by_cases hinv : ∃ rd rs1, i = .inv rd rs1
  · obtain ⟨rd, rs1, rfl⟩ := hinv
    obtain ⟨t, ht, hcode⟩ := exec_inv_errcode hchecks
    exact ⟨t, ht, hcode.imp_right fun hsingular => ⟨hsingular, rd, rs1, rfl⟩⟩
  · obtain ⟨t, ht, hcode⟩ := exec_errcode_of_ne_inv hchecks fun rd rs1 hi => hinv ⟨rd, rs1, hi⟩
    exact ⟨t, ht, .inl hcode⟩

/-! ### What a failure leaves (R83) -/

/-- INV draws the free values of a SINGULAR only where it read unspecified storage: they advance the counter (R101). -/
theorem not_ready_of_raiseUnspecifiedSingular {rd rs1 : Buf} (h : exec (.inv rd rs1) s = raiseUnspecifiedSingular s) :
    ¬ s.Ready rs1 := by
  intro hready
  have hfresh : s.fresh + 1 = s.fresh := exec_fresh (.inl fun b hb => List.mem_singleton.mp hb ▸ hready) h
  omega

/-- Settles O46: of the four ways a command completes, the two successes show no error code. -/
theorem failuresArePrecise : Obligations.FailuresArePrecise := by
  intro i s t h hcode
  obtain ⟨d, res, dc, -, he⟩ | ⟨code, -, he⟩ | ⟨d, -, he⟩ | ⟨rd, rs1, rfl, he⟩ := exec_cases i s <;>
    rw [he] at h <;> cases h
  · exact absurd rfl hcode
  · exact .inl rfl
  · exact absurd rfl hcode
  · exact .inr ⟨⟨rd, rs1, rfl, not_ready_of_raiseUnspecifiedSingular he⟩, rfl⟩

end Sys2Proof.Machine
end

section
/-! The two resets (R94, R95): what the registers read after either, and the steps in which they come. -/

namespace Sys2Proof.Machine

variable {s t : State}

/-! ### The registers a reset clears -/

/-- CTRL, STATUS, CMD, RESULT, DCOUNT and the phase have the values both resets give them (R94, R95). -/
structure RegistersReset (t : State) : Prop where
  irqEn : t.irqEn = false
  done : t.done = false
  err : t.err = false
  wob : t.wob = false
  errcode : t.errcode = .none
  cmdLast : t.cmdLast = 0
  result : t.result = 0
  dcount : t.dcount = 0
  phase : t.phase = .idle

theorem softReset_registersReset (s : State) : RegistersReset s.softReset :=
  ⟨rfl, rfl, rfl, rfl, rfl, rfl, rfl, rfl, rfl⟩

theorem RegistersReset.readValue_ctrl (h : RegistersReset t) : t.readValue 0x008 = 0 := by
  simp [ctrlWord_eq, h.irqEn]

theorem RegistersReset.readValue_status (h : RegistersReset t) : t.readValue 0x00C = 0 := by
  change t.statusWord = 0
  rw [State.statusWord, State.busy_of_idle h.phase, h.done, h.err, h.wob, h.errcode]
  decide

theorem RegistersReset.readValue_result (h : RegistersReset t) : t.readValue 0x014 = 0 :=
  (readValue_result_of_idle h.phase).trans h.result

theorem RegistersReset.readValue_dcount (h : RegistersReset t) : t.readValue 0x018 = 0 :=
  (readValue_dcount_of_idle h.phase).trans h.dcount

/-- The five registers of R95 read 0. -/
theorem RegistersReset.reads (h : RegistersReset t) :
    t.readValue 0x008 = 0 ∧ t.readValue 0x00C = 0 ∧ t.readValue 0x010 = 0 ∧ t.readValue 0x014 = 0 ∧
      t.readValue 0x018 = 0 :=
  ⟨h.readValue_ctrl, h.readValue_status, h.cmdLast, h.readValue_result, h.readValue_dcount⟩

/-! ### R94's table -/

/-- The registers have their reset values, the SHAPEs among them, and no storage byte is listed as written (R94). -/
structure HardResetTable (t : State) : Prop extends RegistersReset t where
  mem : t.mem = []
  shape : t.shape = Vector.replicate 4 ⟨0, 0⟩

theorem powerOn_hardResetTable (p : Params) : HardResetTable (State.powerOn p) :=
  ⟨⟨rfl, rfl, rfl, rfl, rfl, rfl, rfl, rfl, rfl⟩, rfl, rfl⟩

theorem hardReset_hardResetTable (s : State) : HardResetTable s.hardReset :=
  { powerOn_hardResetTable s.params with }

theorem HardResetTable.bitSpecified (h : HardResetTable t) (i : Buf) (r c : Nat) : t.bitSpecified i r c = false := by
  rw [State.bitSpecified, h.mem]
  rfl

theorem HardResetTable.shapeOf (h : HardResetTable t) (i : Buf) : t.shapeOf i = ⟨0, 0⟩ := by
  simp [State.shapeOf, h.shape]

theorem HardResetTable.readValue_shape (h : HardResetTable t) (i : Buf) :
    t.readValue (BitVec.ofNat 16 (0x020 + 4 * i.val)) = 0 := by
  rw [Machine.readValue_shape, h.shapeOf]
  rfl

/-- The invariant holds at power-on of an engine with legal parameters. -/
theorem State.Inv.powerOn {p : Params} (h : p.legal) : (State.powerOn p).Inv where
  paramsLegal := h
  memCanonical := Memory.wf_nil
  memInStorage := by simp [State.powerOn]
  busyFlags _ _ hbusy := Phase.noConfusion hbusy
  errHasCode herr := Bool.noConfusion herr

/-! ### The steps -/

/-- Unless a completion is due the step is the host's turn, and the turn's phase is all that can differ in the state it starts
from (R40, R62). -/
theorem step_hostTurn (h : ∀ w, s.phase ≠ .busy w 0) : ∃ ph, step s = hostTurn { s with phase := ph } := by
  obtain ⟨w, hphase, -⟩ | ⟨-, hstep⟩ | ⟨w, n, -, hstep⟩ := step_cases s
  · exact absurd hphase (h w)
  · exact ⟨s.phase, hstep⟩
  · exact ⟨.busy w n, hstep⟩

theorem hostWrite_softReset {v : Word} (h : v.getLsbD 1 = true) (s : State) : s.hostWrite 0x008 v = s.softReset :=
  writeCtrl_soft h s

theorem step_softReset {v : Word} {rest : List HostEvent} (hv : v.getLsbD 1 = true)
    (hhost : s.host = .write 0x008 4 v :: rest) (hdue : ∀ w, s.phase ≠ .busy w 0) :
    step s = .next { s.softReset with host := rest } := by
  obtain ⟨ph, hstep⟩ := step_hostTurn hdue
  rw [hstep, hostTurn_write (s := { s with phase := ph }) hhost, if_pos (by decide), hostWrite_softReset hv]
  rfl

theorem step_hardReset {rest : List HostEvent} (hhost : s.host = .hardReset :: rest) (hdue : ∀ w, s.phase ≠ .busy w 0) :
    step s = .next { s.hardReset with host := rest } := by
  obtain ⟨ph, hstep⟩ := step_hostTurn hdue
  rw [hstep]
  simp only [hostTurn, hhost]
  rfl

/-- Settles O25: the write is `State.softReset`, in the step too. -/
theorem softResetAborts : Obligations.SoftResetAborts := by
  intro s v hv
  obtain ⟨hctrl, hstatus, hcmd, hresult, hdcount⟩ := (softReset_registersReset s).reads
  exact ⟨s.softReset, hostWrite_softReset hv s, rfl, hctrl, hstatus, hcmd, hresult, hdcount, rfl, rfl,
    fun rest => step_softReset hv⟩

/-- Settles O26: `State.hardReset` gives R94's table, in the step too. -/
theorem hardResetGivesTheTable : Obligations.HardResetGivesTheTable := by
  intro s
  have h := hardReset_hardResetTable s
  exact ⟨⟨rfl, h.phase, irq_of_done_eq_false h.done, h.bitSpecified, h.readValue_shape 0, h.readValue_shape 1,
    h.readValue_shape 2, h.readValue_shape 3, rfl, rfl, h.reads⟩, fun rest => step_hardReset⟩

/-- Settles O27: power-on gives R94's table; PARAM is that of R5's defaults. -/
theorem resetStateGivesTheTable : Obligations.ResetStateGivesTheTable := by
  have h : HardResetTable State.reset := powerOn_hardResetTable _
  obtain ⟨hctrl, hstatus, hcmd, hresult, hdcount⟩ := h.reads
  exact ⟨h.phase, irq_of_done_eq_false h.done, h.bitSpecified, rfl, by decide, hctrl, hstatus, hcmd, hresult, hdcount,
    h.readValue_shape 0, h.readValue_shape 1, h.readValue_shape 2, h.readValue_shape 3⟩

/-- Settles O52: the default parameters of R5 are legal. -/
theorem resetSatisfiesTheInvariant : Obligations.ResetSatisfiesTheInvariant :=
  State.Inv.powerOn (by decide)

end Sys2Proof.Machine
end

section
/-! The busy engine's aperture (R98, R99): which offsets its writes are dropped at, and which read as free values. -/

namespace Sys2Proof.Machine

variable {s t : State} {p : Params} {off : Offset}

/-! ### The map -/

/-- An offset in a buffer's storage leads to a word of its window (R31). -/
theorem targetOf_of_inStorage (hl : p.legal) {i : Buf} (h : InStorage p i off.toNat) :
    ∃ r w, targetOf p off = .window i r w := by
  have hsize := bufferBytes_le hl
  unfold bufferBytes at hsize
  obtain ⟨hstart, hend⟩ := h
  have hbuf : windowOf off.toNat = i := by
    apply Fin.ext
    change (off.toNat - 0x2000) / 0x2000 % 4 = i.val
    omega
  have hword : (off.toNat - wbase i) / 4 < p.rmax * p.wpr := by
    unfold wbase
    omega
  rw [targetOf, if_pos (by omega), hbuf, windowWord, if_pos hword]
  exact ⟨_, _, rfl⟩

/-! ### Writes (R98) -/

/-- What a busy engine drops writes to: CMD, the SHAPEs and the words of the windows. -/
def Target.DropsWrites (target : Target) : Prop :=
  target = .cmd ∨ (∃ i, target = .shape i) ∨ ∃ i r w, target = .window i r w

theorem targetOf_dropsWrites (hl : p.legal)
    (h : off = 0x010 ∨ off = 0x020 ∨ off = 0x024 ∨ off = 0x028 ∨ off = 0x02C ∨ ∃ i, InStorage p i off.toNat) :
    (targetOf p off).DropsWrites := by
  obtain rfl | rfl | rfl | rfl | rfl | ⟨i, hin⟩ := h
  · exact .inl rfl
  · exact .inr (.inl ⟨0, rfl⟩)
  · exact .inr (.inl ⟨1, rfl⟩)
  · exact .inr (.inl ⟨2, rfl⟩)
  · exact .inr (.inl ⟨3, rfl⟩)
  · exact .inr (.inr ⟨i, targetOf_of_inStorage hl hin⟩)

theorem hostWrite_of_dropsWrites (hbusy : s.busy = true) (h : (targetOf s.params off).DropsWrites) (v : Word) :
    s.hostWrite off v = s.dropWrite := by
  obtain h | ⟨i, h⟩ | ⟨i, r, w, h⟩ := h <;> simp [State.hostWrite, h, hbusy]

/-- Writes to the registers a host only reads (R18, R19, R24, R25) and to reserved offsets (R26) are ignored in every phase. -/
theorem hostWrite_ignored
    (h : off = 0x000 ∨ off = 0x004 ∨ off = 0x014 ∨ off = 0x018 ∨ off = 0x01C ∨ (0x030 ≤ off.toNat ∧ off.toNat ≤ 0x1FFF) ∨
      0xA000 ≤ off.toNat ∨ ((0x2000 ≤ off.toNat ∧ off.toNat ≤ 0x9FFF) ∧ ∀ i, ¬ InStorage s.params i off.toNat))
    (v : Word) : s.hostWrite off v = s := by
  obtain rfl | rfl | rfl | rfl | rfl | hreserved := h
  case inr.inr.inr.inr.inr => exact hostWrite_reserved (targetOf_reserved (.inr hreserved)) v
  all_goals rfl

/-- Short of a hard reset, a step of a busy engine whose command is not due keeps the command, or is the soft reset that aborts it
(R95, R98). -/
theorem step_of_busy {w : Word} {n : Nat} (hphase : s.phase = .busy w (n + 1)) (h : step s = .next t)
    (hreset : s.host.head? ≠ some .hardReset) :
    CommandKept { s with phase := .busy w n } t ∨
      (RegistersReset t ∧ t.mem = s.mem ∧ t.shape = s.shape) := by
  obtain ⟨_, hdue, -⟩ | ⟨ph, hturn, heffect⟩ := step_effect h
  · simp [hphase] at hdue
  · obtain rfl : ph = .busy w n := by
      rw [hphase] at hturn
      cases hturn
      rfl
    obtain ⟨_, _, _, rfl⟩ | ⟨off, v, rest, -, rfl⟩ | ⟨rest, hhost, -⟩ := heffect
    · exact .inl ⟨rfl, rfl, rfl, rfl⟩
    · by_cases hsoft : off = 0x008 ∧ v.getLsbD 1 = true
      · obtain ⟨rfl, hv⟩ := hsoft
        rw [hostWrite_softReset hv]
        exact .inr ⟨softReset_registersReset _, rfl, rfl⟩
      · have hkept := hostWrite_commandKept (s := { s with phase := .busy w n, host := rest }) rfl hsoft
        exact .inl { hkept with }
    · simp [hhost] at hreset

/-- Settles O23: by what stands at the offset; of a busy engine's events only the resets reach the command. -/
theorem busyEngineDropsWrites : Obligations.BusyEngineDropsWrites := by
  refine ⟨fun s u n off v hl hbusy _ hoff => ?_, fun s v => ⟨rfl, rfl⟩, fun s off v _ _ hoff => hostWrite_ignored hoff v,
    fun s t w n hphase h hreset => ?_⟩
  · exact hostWrite_of_dropsWrites (State.busy_of_busy hbusy) (targetOf_dropsWrites hl hoff) v
  · obtain hkept | ⟨hregs, hmem, hshape⟩ := step_of_busy hphase h hreset
    · exact ⟨hkept.mem, hkept.shape, .inl ⟨n, hkept.phase⟩⟩
    · exact ⟨hmem, hshape, .inr ⟨hregs.phase, hregs.done, hregs.cmdLast⟩⟩

/-! ### Reads (R99) -/

/-- A busy read of RESULT, DCOUNT or a window's storage gives the free value of the counter. -/
theorem readValue_of_busy (hl : s.params.legal) (hbusy : s.busy = true)
    (h : off = 0x014 ∨ off = 0x018 ∨ ∃ i, InStorage s.params i off.toNat) :
    s.readValue off = Config.freeRead s.fresh := by
  obtain rfl | rfl | ⟨i, hin⟩ := h
  · exact if_pos hbusy
  · exact if_pos hbusy
  · obtain ⟨r, w, htarget⟩ := targetOf_of_inStorage hl hin
    simp [State.readValue, htarget, hbusy]

theorem Shape.toWord_rows (sh : Shape) : sh.toWord.extractLsb' 0 8 = sh.rows := by
  rw [Shape.toWord, BitVec.extractLsb'_append_eq_right]

theorem Shape.toWord_cols (sh : Shape) : sh.toWord.extractLsb' 16 8 = sh.cols := by
  rw [Shape.toWord, BitVec.extractLsb'_append_eq_of_le (by decide), BitVec.extractLsb'_append_eq_of_le (by decide),
    BitVec.extractLsb'_append_eq_right]

/-- Settles O24: the free reads are `readValue_of_busy`; what the other registers read does not ask for the phase. -/
theorem busyReadsAreUnspecified : Obligations.BusyReadsAreUnspecified := by
  refine fun s u n hl hphase => ⟨fun off _ hoff => ⟨readValue_of_busy hl (State.busy_of_busy hphase) hoff, rfl⟩, rfl, rfl,
    ctrlWord_eq s, rfl, rfl, fun i => ?_⟩
  rw [readValue_shape, Shape.toWord_rows, Shape.toWord_cols]
  exact ⟨rfl, rfl⟩

end Sys2Proof.Machine
end

section
/-! Commands over storage UNSPECIFIED since hard reset (R101). -/

namespace Sys2Proof.Machine

variable {s t : State} {i : Instr}

theorem not_all_specified (hin : ∀ b ∈ i.sources, s.inRange b = true) (h : ∃ b ∈ i.sources, ¬ s.Ready b) :
    ¬ ∀ b ∈ i.sources, s.specified b = true := by
  intro hspec
  obtain ⟨b, hb, hready⟩ := h
  exact hready ((ready_iff s b).mpr ⟨hin b hb, hspec b hb⟩)

/-- Past the checks, with a source not written throughout, a command completes with free values in the shape its rule gives, or it
is an INV that reports SINGULAR (R101). -/
theorem exec_of_not_ready (hchecks : s.PassesChecks i) (h : ∃ b ∈ i.sources, ¬ s.Ready b) :
    exec i s = completeUnspecified (i.destination.map fun rd => (rd, s.resultShape i)) s ∨
      (∃ rd rs1, i = .inv rd rs1) ∧ exec i s = raiseUnspecifiedSingular s := by
  obtain ⟨hin, hshape, hlimit⟩ := hchecks
  have hin := inRange_of_sources hin
  have hspec := not_all_specified hin h
  cases i with
  | nop => simp [Instr.sources] at hspec
  | rank rs1 | weight rs1 | reduce rd rs1 =>
    have h1 := hin rs1 (List.Mem.head _)
    have hs1 : s.specified rs1 = false := by simpa [Instr.sources] using hspec
    left
    simp [exec, execRank, execWeight, execReduce, h1, hs1, Instr.destination, State.resultShape]
  | isinv rs1 =>
    have h1 := hin rs1 (List.Mem.head _)
    have hs1 : s.specified rs1 = false := by simpa [Instr.sources] using hspec
    have hsquare : s.rowsOf rs1 = s.colsOf rs1 := by simpa [State.shapeFault] using hshape
    left
    simp [exec, execIsinv, h1, hs1, hsquare, Instr.destination]
  | inv rd rs1 =>
    have h1 := hin rs1 (List.Mem.head _)
    have hs1 : s.specified rs1 = false := by simpa [Instr.sources] using hspec
    have hsquare : s.rowsOf rs1 = s.colsOf rs1 := by simpa [State.shapeFault] using hshape
    cases hfree : Config.freeSingular s.fresh with
    | true => exact .inr ⟨⟨rd, rs1, rfl⟩, by simp [exec, execInv, h1, hs1, hsquare, hfree]⟩
    | false =>
      left
      simp [exec, execInv, h1, hs1, hsquare, hfree, Instr.destination, State.resultShape]
  | pinv rd rs1 =>
    have h1 := hin rs1 (List.Mem.head _)
    have hs1 : s.specified rs1 = false := by simpa [Instr.sources] using hspec
    have hfit : fitsBuffer s.params (s.colsOf rs1) (s.rowsOf rs1) = true := by
      simpa [State.limitFault, fitsBuffer] using hlimit
    left
    simp [exec, execPinv, h1, hs1, hfit, Instr.destination, State.resultShape]
  | mmul rd rs1 rs2 =>
    have h1 := hin rs1 (List.Mem.head _)
    have h2 := hin rs2 (List.Mem.tail _ (List.Mem.head _))
    have hs12 : s.specified rs1 = true → s.specified rs2 = false := by simpa [Instr.sources] using hspec
    have hfit : s.colsOf rs1 = s.rowsOf rs2 := by simpa [State.shapeFault] using hshape
    left
    simp +contextual [exec, execMmul, h1, h2, hs12, hfit, Instr.destination, State.resultShape]
  | madd rd rs1 rs2 =>
    have h1 := hin rs1 (List.Mem.head _)
    have h2 := hin rs2 (List.Mem.tail _ (List.Mem.head _))
    have hs12 : s.specified rs1 = true → s.specified rs2 = false := by simpa [Instr.sources] using hspec
    have ⟨hr, hc⟩ : s.rowsOf rs1 = s.rowsOf rs2 ∧ s.colsOf rs1 = s.colsOf rs2 := by
      simpa [State.shapeFault] using hshape
    left
    simp +contextual [exec, execMadd, h1, h2, hs12, hr, hc, Instr.destination, State.resultShape]
  | decode rd rs1 rs2 =>
    have h1 := hin rs1 (List.Mem.head _)
    have h2 := hin rs2 (List.Mem.tail _ (List.Mem.head _))
    have hs12 : s.specified rs1 = true → s.specified rs2 = false := by simpa [Instr.sources] using hspec
    have ⟨hr, hc⟩ : s.rowsOf rs2 = 1 ∧ s.colsOf rs2 = s.colsOf rs1 := by simpa [State.shapeFault] using hshape
    have hk : s.rowsOf rs1 ≤ s.params.kmax := by simpa [State.limitFault] using hlimit
    left
    simp +contextual [exec, execDecode, h1, h2, hs12, hr, hc, hk.not_gt, Instr.destination, State.resultShape]

/-- Past the checks the destination's shape fits a buffer: for DECODE because KMAX is below every legal CMAX (R5). -/
theorem resultShape_fits (hl : s.params.legal) (hchecks : s.PassesChecks i) :
    (s.resultShape i).1 ≤ s.params.rmax ∧ (s.resultShape i).2 ≤ s.params.cmax := by
  obtain ⟨hrmax, -, -, hcmax, -, hkmax⟩ := hl
  obtain ⟨hin, hshape, hlimit⟩ := hchecks
  have hin : ∀ b ∈ i.sources, s.rowsOf b ≤ s.params.rmax ∧ s.colsOf b ≤ s.params.cmax := fun b hb =>
    (inRange_iff s b).mp (inRange_of_sources hin b hb)
  cases i with
  | nop | rank _ | isinv _ | weight _ => exact ⟨Nat.zero_le _, Nat.zero_le _⟩
  | reduce rd rs1 | madd rd rs1 rs2 => exact hin rs1 (List.Mem.head _)
  | inv rd rs1 =>
    have ⟨hr, hc⟩ := hin rs1 (List.Mem.head _)
    have hsquare : s.rowsOf rs1 = s.colsOf rs1 := by simpa [State.shapeFault] using hshape
    exact ⟨hr, hsquare.trans_le hc⟩
  | pinv rd rs1 =>
    have ⟨hr, hc⟩ : s.colsOf rs1 ≤ s.params.rmax ∧ s.rowsOf rs1 ≤ s.params.cmax := by
      simpa [State.limitFault] using hlimit
    exact ⟨hr, hc⟩
  | mmul rd rs1 rs2 => exact ⟨(hin rs1 (List.Mem.head _)).1, (hin rs2 (List.Mem.tail _ (List.Mem.head _))).2⟩
  | decode rd rs1 rs2 =>
    have hk : s.rowsOf rs1 ≤ s.params.kmax := by simpa [State.limitFault] using hlimit
    have hc : s.rowsOf rs1 ≤ s.params.cmax := by omega
    exact ⟨hrmax, hc⟩

theorem get_unspecifiedMatrix {n r c row col : Nat} (hrow : row < r) (hcol : col < c) :
    (unspecifiedMatrix n r c).get row col = Config.freeEntry n row col := by
  simp [unspecifiedMatrix, hrow, hcol]

/-- The destination of a completion over unspecified storage holds free entries in the shape given, and nothing else is written
(R63, R101). -/
theorem completeUnspecified_destination {rd : Buf} {shape : Nat × Nat} (hl : s.params.legal)
    (hr : shape.1 ≤ s.params.rmax) (hc : shape.2 ≤ s.params.cmax)
    (h : completeUnspecified (some (rd, shape)) s = .next t) :
    KeptOutside s t rd ∧ t.Holds rd shape.1 shape.2 (Config.freeEntry s.fresh) := by
  have hkept := complete_keptOutside (s := { s with fresh := s.fresh + 1 }) h
  have hholds := complete_holds (s := { s with fresh := s.fresh + 1 })
    (V := unspecifiedMatrix s.fresh shape.1 shape.2) hl hr hc h
  exact ⟨{ hkept with }, hholds.of_entries fun _ hrow _ hcol => get_unspecifiedMatrix hrow hcol⟩

/-- Settles O47: the two ways to complete over unspecified storage. -/
theorem unspecifiedOperandsStillComplete : Obligations.UnspecifiedOperandsStillComplete := by
  intro i s hl hchecks hunready
  obtain he | ⟨hinv, he⟩ := exec_of_not_ready hchecks hunready
  · obtain ⟨hr, hc⟩ := resultShape_fits hl hchecks
    refine ⟨_, he, rfl, rfl, rfl, rfl, State.commitDest_fresh _ _, .inl rfl, fun _ hd => ?_,
      fun hcode => ErrCode.noConfusion hcode, fun rd hd _ => ?_⟩
    · rw [hd]
      exact ⟨rfl, rfl⟩
    · rw [hd]
      exact completeUnspecified_destination hl hr hc rfl
  · exact ⟨_, he, rfl, rfl, rfl, rfl, rfl, .inr ⟨rfl, hinv⟩, fun hcode => ErrCode.noConfusion hcode, fun _ => ⟨rfl, rfl⟩,
      fun _ _ hcode => ErrCode.noConfusion hcode⟩

end Sys2Proof.Machine
end
